-- ==== Sys2Proof/Word.lean ====
section
/-! DEFINITION. The word types of the framer and the plain containers its parameters and results are made of. -/

namespace Sys2Proof

/-- A byte (00_scope.md R9): bit 0 is the least significant bit. -/
abbrev Byte := BitVec 8

/-- A 7-bit register address of the main device, or a 7-bit follower address (R30, R50). -/
abbrev Addr7 := BitVec 7

/-- One of the four register banks (R7, R30). -/
abbrev Bank := Fin 4

/-- A full-scale range index, 0 to 3 in the order the document lists the ranges (R7, R96). -/
abbrev RangeIx := Fin 4

/-- An Axis Triplet (R15, R17). -/
structure Axis3 (α : Type) where
  x : α
  y : α
  z : α
deriving DecidableEq, Repr, Inhabited

/-- The same operation on each lane (R205). -/
def Axis3.map {α β : Type} (f : α → β) (t : Axis3 α) : Axis3 β := ⟨f t.x, f t.y, f t.z⟩

/-- The lane-wise sum the calibrations accumulate (R177, R205). -/
def Axis3.add (s t : Axis3 Int) : Axis3 Int := ⟨s.x + t.x, s.y + t.y, s.z + t.z⟩

/-- The lanes in the order x, y, z (R205). -/
def Axis3.toList {α : Type} (t : Axis3 α) : List α := [t.x, t.y, t.z]

/-- A table indexed 0 to 3: `BANK_VAL`, `GYRO_FS_BITS`, `GYRO_SF` and the like (R6). -/
structure Four (α : Type) where
  v0 : α
  v1 : α
  v2 : α
  v3 : α
deriving DecidableEq, Repr, Inhabited

/-- The entry of a table at an index. -/
def Four.get {α : Type} (t : Four α) (i : Fin 4) : α :=
  match i with
  | 0 => t.v0
  | 1 => t.v1
  | 2 => t.v2
  | 3 => t.v3

/-- The entries in index order. -/
def Four.toList {α : Type} (t : Four α) : List α := [t.v0, t.v1, t.v2, t.v3]

/-- An exact rational constant `num / den` of the parameter table (R11: `16.4 = 82/5`, `0.15 = 3/20`).
It is kept as the pair it was written as (log 18). -/
structure Ratio where
  num : Nat
  den : Nat
deriving DecidableEq, Repr, Inhabited

/-- A main-device register: bank and 7-bit address (R50). -/
structure RegAddr where
  bank : Bank
  reg : Addr7
deriving DecidableEq, Repr, Inhabited

end Sys2Proof
end

