-- ==== Sys2Proof/Syntax.lean ====
section
/-! DEFINITION. The operations of the framer: one constructor per row of spec/opcode_table.json. -/

namespace Sys2Proof

/-- The twenty host operations (30_encoding.md R90, R94) with their operand bytes as they stand in the packet (R96), and
the two bus frame forms (R82). Which operand values are legal is `Instr.wellFormed`. -/
inductive Instr where
  /-- `XFER tx, m` (R111); `ntx` is the length of `tx`. -/
  | xfer (tx : List Byte) (m : Byte)
  /-- `SELECT_BANK bank` (R121). -/
  | selectBank (bank : Byte)
  /-- `READ_U8 bank, reg` (R123). -/
  | readU8 (bank reg : Byte)
  /-- `WRITE_U8 bank, reg, value` (R125). -/
  | writeU8 (bank reg value : Byte)
  /-- `READ_BYTES bank, reg, len` (R127). -/
  | readBytes (bank reg len : Byte)
  /-- `WRITE_BYTES bank, reg, data` (R129); `len` is the length of `data`. -/
  | writeBytes (bank reg : Byte) (data : List Byte)
  /-- `BRIDGE_READ f, r, len` (R141). -/
  | bridgeRead (f r len : Byte)
  /-- `BRIDGE_WRITE f, r, value` (R145). -/
  | bridgeWrite (f r value : Byte)
  /-- `INIT_MAIN` (R160). -/
  | initMain
  /-- `INIT_BRIDGE_DEVICE` (R165). -/
  | initBridgeDevice
  /-- `CAL_GYRO` (R177). -/
  | calGyro
  /-- `CAL_ACCEL` (R181). -/
  | calAccel
  /-- `SELECT_GYRO_RANGE range` (R192). -/
  | selectGyroRange (range : Byte)
  /-- `SELECT_ACCEL_RANGE range` (R194). -/
  | selectAccelRange (range : Byte)
  /-- `READ_GYRO_RAW` (R196). -/
  | readGyroRaw
  /-- `READ_ACCEL_RAW` (R198). -/
  | readAccelRaw
  /-- `READ_GYRO_SCALED` (R201). -/
  | readGyroScaled
  /-- `READ_ACCEL_SCALED` (R203). -/
  | readAccelScaled
  /-- `READ_MAG_SCALED` (R206). -/
  | readMagScaled
  /-- `READ_SNAPSHOT` (R216). -/
  | readSnapshot
  /-- `FRAME_READ(a, m)`: the read frame of the bus (R82). -/
  | frameRead (addr : Addr7) (m : Nat)
  /-- `FRAME_WRITE(a, payload)`: the write frame of the bus (R82). -/
  | frameWrite (addr : Addr7) (payload : List Byte)
deriving DecidableEq, Repr, Inhabited

end Sys2Proof
end

