-- ==== Sys2Proof/Decode.lean ====
section
/-! DEFINITION. Decoding and encoding: host command packets (30_encoding.md R93 to R95, R99) and bus frame forms
(R80 to R83). Both are total; what is no instruction is rejected by name. -/

namespace Sys2Proof

/-! ### Host command packets -/

/-- What the decoder reads at the front of the bytes waiting at the command port. -/
inductive PacketDecode where
  /-- An operation and the bytes after its packet (R95). -/
  | instr (i : Instr) (rest : List Byte)
  /-- An opcode byte that is not in R94: "for an unknown opcode the packet is the opcode byte alone" (R95, R99). -/
  | illegalOpcode (opcode : Byte) (rest : List Byte)
  /-- The packet has not arrived whole: the framer goes on waiting (R93). -/
  | incomplete
deriving DecidableEq, Repr

/-- The first `n` bytes and the rest, if there are so many. -/
def splitBytes : Nat → List Byte → Option (List Byte × List Byte)
  | 0, bs => some ([], bs)
  | _ + 1, [] => none
  | n + 1, b :: bs => (splitBytes n bs).map fun q => (b :: q.1, q.2)

/-- A packet with one operand byte. -/
def operands1 (k : Byte → Instr) : List Byte → PacketDecode
  | a :: rest => .instr (k a) rest
  | [] => .incomplete

/-- A packet with two operand bytes. -/
def operands2 (k : Byte → Byte → Instr) : List Byte → PacketDecode
  | a :: b :: rest => .instr (k a b) rest
  | _ => .incomplete

/-- A packet with three operand bytes. -/
def operands3 (k : Byte → Byte → Byte → Instr) : List Byte → PacketDecode
  | a :: b :: c :: rest => .instr (k a b c) rest
  | _ => .incomplete

/-- `XFER`: `ntx`, `m`, `tx[0] .. tx[ntx-1]` (R94); length `3 + ntx` (R95). -/
def operandsXfer : List Byte → PacketDecode
  | ntx :: m :: rest =>
    match splitBytes ntx.toNat rest with
    | some (tx, rest') => .instr (.xfer tx m) rest'
    | none => .incomplete
  | _ => .incomplete

/-- `WRITE_BYTES`: `bank`, `reg`, `len`, `data[0] .. data[len-1]` (R94); length `4 + len` (R95). -/
def operandsWriteBytes : List Byte → PacketDecode
  | bank :: reg :: len :: rest =>
    match splitBytes len.toNat rest with
    | some (data, rest') => .instr (.writeBytes bank reg data) rest'
    | none => .incomplete
  | _ => .incomplete

/-- The command packet at the front of the waiting bytes (R94, R95, R99). -/
def decodePacket : List Byte → PacketDecode
  | [] => .incomplete
  | opcode :: rest =>
    match opcode.toNat with
    | 0x01 => operandsXfer rest
    | 0x10 => operands1 .selectBank rest
    | 0x11 => operands2 .readU8 rest
    | 0x12 => operands3 .writeU8 rest
    | 0x13 => operands3 .readBytes rest
    | 0x14 => operandsWriteBytes rest
    | 0x20 => operands3 .bridgeRead rest
    | 0x21 => operands3 .bridgeWrite rest
    | 0x30 => .instr .initMain rest
    | 0x31 => .instr .initBridgeDevice rest
    | 0x40 => .instr .calGyro rest
    | 0x41 => .instr .calAccel rest
    | 0x50 => operands1 .selectGyroRange rest
    | 0x51 => operands1 .selectAccelRange rest
    | 0x52 => .instr .readGyroRaw rest
    | 0x53 => .instr .readAccelRaw rest
    | 0x54 => .instr .readGyroScaled rest
    | 0x55 => .instr .readAccelScaled rest
    | 0x56 => .instr .readMagScaled rest
    | 0x60 => .instr .readSnapshot rest
    | _ => .illegalOpcode opcode rest

/-! ### Bus frame forms -/

/-- What a frame is, cut at its device-select bracket (R83): one of the two forms of R82, or the name of what it lacks. -/
inductive FrameDecode where
  | instr (i : Instr)
  /-- "the framer never emits a frame with no transmitted byte" (R101). -/
  | noCommandByte
  /-- The direction bit says read and payload bytes follow the command byte (R82). -/
  | readWithPayload
  /-- The direction bit says read and nothing is received (R82: `m >= 1`). -/
  | readWithoutReceive
  /-- The direction bit says write and bytes are received (R82). -/
  | writeWithReceive
  /-- The direction bit says write and no payload follows (R82: `k >= 1`). -/
  | writeWithoutPayload
deriving DecidableEq, Repr

/-- The form of the frame that sends `tx` and receives `m` bytes: "reads the direction from bit 7 of the first `TX`"
(R81, R83). -/
def decodeFrame (tx : List Byte) (m : Nat) : FrameDecode :=
  match tx with
  | [] => .noCommandByte
  | c :: payload =>
    if c.msb then
      if payload.length ≠ 0 then .readWithPayload
      else if m = 0 then .readWithoutReceive
      else .instr (.frameRead (c.setWidth 7) m)
    else
      if m ≠ 0 then .writeWithReceive
      else if payload.length = 0 then .writeWithoutPayload
      else .instr (.frameWrite (c.setWidth 7) payload)

/-! ### Encoding -/

/-- Direction of a bus frame: bit 7 of the command byte, set = read, clear = write (R81). -/
inductive Dir where
  | read
  | write
deriving DecidableEq, Repr

/-- The command byte `(dir << 7) | addr` (R81). -/
def commandByte (dir : Dir) (addr : Addr7) : Byte :=
  match dir with
  | .read => 0x80#8 ||| addr.setWidth 8
  | .write => addr.setWidth 8

/-- The two ways an instruction is written: a packet at the command port (R93), or a frame on the bus given by what is
sent and how many bytes are received inside its bracket (R80, R83). -/
inductive Wire where
  | packet (bytes : List Byte)
  | frame (tx : List Byte) (m : Nat)
deriving DecidableEq, Repr

/-- A length as the packet's length byte. -/
def lengthByte (bs : List Byte) : Byte := BitVec.ofNat 8 bs.length

/-- The words of an instruction, from the tables of R94 and R82. -/
def encode : Instr → Wire
  | .xfer tx m => .packet (0x01#8 :: lengthByte tx :: m :: tx)
  | .selectBank bank => .packet [0x10#8, bank]
  | .readU8 bank reg => .packet [0x11#8, bank, reg]
  | .writeU8 bank reg value => .packet [0x12#8, bank, reg, value]
  | .readBytes bank reg len => .packet [0x13#8, bank, reg, len]
  | .writeBytes bank reg data => .packet (0x14#8 :: bank :: reg :: lengthByte data :: data)
  | .bridgeRead f r len => .packet [0x20#8, f, r, len]
  | .bridgeWrite f r value => .packet [0x21#8, f, r, value]
  | .initMain => .packet [0x30#8]
  | .initBridgeDevice => .packet [0x31#8]
  | .calGyro => .packet [0x40#8]
  | .calAccel => .packet [0x41#8]
  | .selectGyroRange range => .packet [0x50#8, range]
  | .selectAccelRange range => .packet [0x51#8, range]
  | .readGyroRaw => .packet [0x52#8]
  | .readAccelRaw => .packet [0x53#8]
  | .readGyroScaled => .packet [0x54#8]
  | .readAccelScaled => .packet [0x55#8]
  | .readMagScaled => .packet [0x56#8]
  | .readSnapshot => .packet [0x60#8]
  | .frameRead addr m => .frame [commandByte .read addr] m
  | .frameWrite addr payload => .frame (commandByte .write addr :: payload) 0

/-- The instruction a wire form holds and nothing else: a packet with no byte left over, or a frame of one of the two
forms. -/
def decode : Wire → Option Instr
  | .packet bytes =>
    match decodePacket bytes with
    | .instr i [] => some i
    | .instr _ (_ :: _) => none
    | .illegalOpcode _ _ => none
    | .incomplete => none
  | .frame tx m =>
    match decodeFrame tx m with
    | .instr i => some i
    | .noCommandByte => none
    | .readWithPayload => none
    | .readWithoutReceive => none
    | .writeWithReceive => none
    | .writeWithoutPayload => none

/-! ### Words of the opcode table -/

/-- The bytes of a table word: byte 0 is bits 7:0 (R94: "match and mask apply to byte 0 of the packet"). -/
def tableBytes (nbits w : Nat) : List Byte :=
  (List.range (nbits / 8)).map fun k => BitVec.ofNat 8 (w >>> (8 * k))

/-- The longest packet: `WRITE_BYTES` with `len = 255` (R94, R95). -/
def longestPacket : Nat := 259

/-- The length of the packet at the front of the bytes: "for the fixed-length opcodes the length is in rule R94; for `XFER`
it reads `ntx` (second byte) and the packet is `3 + ntx` bytes; for `WRITE_BYTES` it reads `len` (fourth byte) and the packet
is `4 + len` bytes"; an unknown opcode is alone (R94, R95). -/
def packetLength (bytes : List Byte) : Nat :=
  match (bytes.getD 0 0x00#8).toNat with
  | 0x01 => 3 + (bytes.getD 1 0x00#8).toNat
  | 0x10 => 2
  | 0x11 => 3
  | 0x12 => 4
  | 0x13 => 4
  | 0x14 => 4 + (bytes.getD 3 0x00#8).toNat
  | 0x20 => 4
  | 0x21 => 4
  | 0x50 => 2
  | 0x51 => 2
  | _ => 1

/-- The waiting bytes of a table word: its bytes, then zeros up to the longest packet. -/
def tablePacket (nbits w : Nat) : List Byte :=
  tableBytes nbits w ++ List.replicate (longestPacket - nbits / 8) 0x00#8

/-- The frame of a table word whose first byte is no host opcode (log 12): a read frame of the fewest bytes the form
admits, or a write frame of the word's further bytes, of one zero byte if it has none. -/
def tableFrame (nbits w : Nat) : List Byte × Nat :=
  match tableBytes nbits w with
  | [] => ([0x00#8, 0x00#8], 0)
  | [c] => if c.msb then ([c], 1) else ([c, 0x00#8], 0)
  | c :: payload => if c.msb then (c :: payload, 1) else (c :: payload, 0)

/-- The instruction the decoder reads from a table word: as a host packet if its first byte is one of the twenty
opcodes, else as the first byte of a bus frame (log 12). -/
def decodeTableWord (nbits w : Nat) : Option Instr :=
  match decodePacket (tablePacket nbits w) with
  | .instr i _ => some i
  | .illegalOpcode _ _ => decode (.frame (tableFrame nbits w).1 (tableFrame nbits w).2)
  | .incomplete => none

end Sys2Proof
end

