-- ==== Sys2Proof/Config.lean ====
section
/-! DEFINITION. What an implementation fixes (the parameter record of 00_scope.md R6) and the free values of the
model: what the environment answers (20_memory.md R66, 40_bus_transaction.md R112), when the bridge completes
and what the magnetometer samples (10_state.md R34, R35). -/

namespace Sys2Proof

/-- The micro-operations an initialization step is a list of (43_initialization.md R156, a closed vocabulary). -/
inductive MicroOp where
  /-- `W(b, a, v)`: `WriteU8(b, a, v)`. -/
  | w (addr : RegAddr) (v : Byte)
  /-- `RMW(b, a, keep, set)`: read, then write `(t & keep) | set`. -/
  | rmw (addr : RegAddr) (keep set : Byte)
  /-- `BW(r, v)`: `BridgeWrite(MAG_ADDR, r, v)`; in `INIT_MAG_STEPS` only. -/
  | bw (r v : Byte)
  /-- `D(ms)`: `Delay(ms)`. -/
  | d (ms : Nat)
deriving DecidableEq, Repr, Inhabited

/-- `INIT_MAIN_STEPS`: one list for each of the seven named steps of R161. -/
structure MainSteps where
  reset : List MicroOp
  wake : List MicroOp
  clock : List MicroOp
  odrAlign : List MicroOp
  busMode : List MicroOp
  lpf : List MicroOp
  smplrt : List MicroOp
deriving DecidableEq, Repr, Inhabited

/-- `INIT_MAG_STEPS`: one list for each of the six named steps of R166. -/
structure MagSteps where
  brReset : List MicroOp
  brEnable : List MicroOp
  brClock : List MicroOp
  brOdr : List MicroOp
  magSoftReset : List MicroOp
  magMode : List MicroOp
deriving DecidableEq, Repr, Inhabited

/-- `MAIN_ID`: bank, register and expected byte (R6, R158). -/
structure MainId where
  addr : RegAddr
  value : Byte
deriving DecidableEq, Repr, Inhabited

/-- `MAG_ID`: follower register and expected byte (R6, R159). -/
structure MagId where
  reg : Byte
  value : Byte
deriving DecidableEq, Repr, Inhabited

/-- `SPI_MODE`: clock polarity and phase, OPEN (D1); no rule depends on it. -/
structure SpiMode where
  cpol : Bool
  cpha : Bool
deriving DecidableEq, Repr, Inhabited

/-- `BIT_ORDER`, OPEN (D1, R56); no rule depends on it. -/
inductive BitOrder where
  | msbFirst
  | lsbFirst
deriving DecidableEq, Repr, Inhabited

/-- The static record `Params` (00_scope.md R6; 10_state.md R28): fixed when the block is instantiated and constant
through a run. `DIR_READ` is no field: R81 fixes it as bit 7. -/
structure Params where
  /-- `BANK_SEL_REG` -/
  bankSelReg : Addr7
  /-- `BANK_VAL[b]` -/
  bankVal : Four Byte
  /-- `BR_ADDR_REG`, bank 3 -/
  brAddrReg : Addr7
  /-- `BR_REG_REG`, bank 3 -/
  brRegReg : Addr7
  /-- `BR_DO_REG`, bank 3 -/
  brDoReg : Addr7
  /-- `BR_CTRL_REG`, bank 3 -/
  brCtrlReg : Addr7
  /-- `BR_ENABLE_BIT` -/
  brEnableBit : Byte
  /-- `BR_READ_BIT` -/
  brReadBit : Byte
  /-- `RELAY_REG`, bank 0 -/
  relayReg : Addr7
  /-- `MAG_ADDR` -/
  magAddr : Addr7
  /-- `MAG_DATA_REG` -/
  magDataReg : Byte
  /-- `MAG_ST1_REG` -/
  magSt1Reg : Byte
  /-- `MAG_DRDY_MASK` -/
  magDrdyMask : Byte
  /-- `MAG_ST2_REG` -/
  magSt2Reg : Byte
  /-- `MAG_OVF_MASK` -/
  magOvfMask : Byte
  /-- `MAG_SCALE`, a multiplier -/
  magScale : Ratio
  /-- `GYRO_OUT` -/
  gyroOut : RegAddr
  /-- `ACCEL_OUT` -/
  accelOut : RegAddr
  /-- `GYRO_OFFS[a]` -/
  gyroOffs : Axis3 RegAddr
  /-- `ACCEL_OFFS[a]` -/
  accelOffs : Axis3 RegAddr
  /-- `GYRO_CFG` -/
  gyroCfg : RegAddr
  /-- `GYRO_FS_MASK` -/
  gyroFsMask : Byte
  /-- `GYRO_FS_BITS[r]` -/
  gyroFsBits : Four Byte
  /-- `ACCEL_CFG` -/
  accelCfg : RegAddr
  /-- `ACCEL_FS_MASK` -/
  accelFsMask : Byte
  /-- `ACCEL_FS_BITS[r]` -/
  accelFsBits : Four Byte
  /-- `GYRO_SF[r]` -/
  gyroSf : Four Ratio
  /-- `ACCEL_SF[r]` -/
  accelSf : Four Ratio
  /-- `CAL_SAMPLES` -/
  calSamples : Nat
  /-- `GYRO_CAL_DIV` -/
  gyroCalDiv : Nat
  /-- `ACCEL_CAL_DIV` -/
  accelCalDiv : Nat
  /-- `CAL_SAMPLE_DELAY`, ms -/
  calSampleDelay : Nat
  /-- `T_BR1`, ms -/
  tBr1 : Nat
  /-- `T_BR2`, ms -/
  tBr2 : Nat
  /-- `MAIN_ID` -/
  mainId : MainId
  /-- `MAG_ID` -/
  magId : MagId
  /-- `ID_RETRY_MAX` -/
  idRetryMax : Nat
  /-- `T_ID_RETRY`, ms -/
  tIdRetry : Nat
  /-- `INIT_MAIN_STEPS` -/
  initMainSteps : MainSteps
  /-- `INIT_MAG_STEPS` -/
  initMagSteps : MagSteps
  /-- `INIT_GYRO_RANGE` -/
  initGyroRange : RangeIx
  /-- `INIT_ACCEL_RANGE` -/
  initAccelRange : RangeIx
  /-- `MAX_BURST` -/
  maxBurst : Nat
  /-- `ACCEL_Z_ARTIFACT` -/
  accelZArtifact : Bool
  /-- `SPI_MODE`, used by no rule (log 15) -/
  spiMode : SpiMode
  /-- `BIT_ORDER`, used by no rule (log 15) -/
  bitOrder : BitOrder
  /-- `SCLK_HZ`, used by no rule (log 15) -/
  sclkHz : Nat
  /-- `TX_FILL`: driven during RX, appears in no trace (R84, log 15) -/
  txFill : Byte
deriving DecidableEq, Repr, Inhabited

/-- The example parameter set EX of 95_test_vectors.md section 0. The spec gives it as an example and not as a
requirement, so it is the model's choice for `State.reset` and nothing else (DESIGN CHOICE, log 3); the values of
`SPI_MODE`, `BIT_ORDER`, `SCLK_HZ` and `TX_FILL`, which EX does not list, are those 93 table G2 suggests. -/
def Params.vectorsEX : Params where
  bankSelReg := 0x7F#7
  bankVal := ⟨0x00#8, 0x01#8, 0x02#8, 0x03#8⟩
  brAddrReg := 0x03#7
  brRegReg := 0x04#7
  brDoReg := 0x06#7
  brCtrlReg := 0x05#7
  brEnableBit := 0x80#8
  brReadBit := 0x80#8
  relayReg := 0x3B#7
  magAddr := 0x0C#7
  magDataReg := 0x11#8
  magSt1Reg := 0x10#8
  magDrdyMask := 0x01#8
  magSt2Reg := 0x18#8
  magOvfMask := 0x08#8
  magScale := ⟨3, 20⟩
  gyroOut := ⟨0, 0x33#7⟩
  accelOut := ⟨0, 0x2D#7⟩
  gyroOffs := ⟨⟨2, 0x03#7⟩, ⟨2, 0x05#7⟩, ⟨2, 0x07#7⟩⟩
  accelOffs := ⟨⟨1, 0x14#7⟩, ⟨1, 0x17#7⟩, ⟨1, 0x1A#7⟩⟩
  gyroCfg := ⟨2, 0x01#7⟩
  gyroFsMask := 0x06#8
  gyroFsBits := ⟨0x00#8, 0x02#8, 0x04#8, 0x06#8⟩
  accelCfg := ⟨2, 0x14#7⟩
  accelFsMask := 0x06#8
  accelFsBits := ⟨0x00#8, 0x02#8, 0x04#8, 0x06#8⟩
  gyroSf := ⟨⟨131, 1⟩, ⟨131, 2⟩, ⟨164, 5⟩, ⟨82, 5⟩⟩
  accelSf := ⟨⟨16384, 1⟩, ⟨8192, 1⟩, ⟨4096, 1⟩, ⟨2048, 1⟩⟩
  calSamples := 100
  gyroCalDiv := 4
  accelCalDiv := 8
  calSampleDelay := 0
  tBr1 := 2
  tBr2 := 3
  mainId := ⟨⟨0, 0x00#7⟩, 0xEA#8⟩
  magId := ⟨0x01#8, 0x09#8⟩
  idRetryMax := 3
  tIdRetry := 0
  initMainSteps :=
    { reset := [.w ⟨0, 0x06#7⟩ 0xC1#8, .d 100]
      wake := [.rmw ⟨0, 0x06#7⟩ 0xBF#8 0x00#8, .d 100]
      clock := [.rmw ⟨0, 0x06#7⟩ 0xFF#8 0x01#8, .d 10]
      odrAlign := [.w ⟨2, 0x09#7⟩ 0x01#8]
      busMode := [.rmw ⟨0, 0x03#7⟩ 0xFF#8 0x10#8]
      lpf := [.rmw ⟨2, 0x01#7⟩ 0xFF#8 0x00#8, .rmw ⟨2, 0x14#7⟩ 0xFF#8 0x00#8]
      smplrt := [.w ⟨2, 0x00#7⟩ 0x00#8, .w ⟨2, 0x10#7⟩ 0x00#8, .w ⟨2, 0x11#7⟩ 0x00#8] }
  initMagSteps :=
    { brReset := [.rmw ⟨0, 0x03#7⟩ 0xFF#8 0x02#8, .d 100]
      brEnable := [.rmw ⟨0, 0x03#7⟩ 0xFF#8 0x20#8, .d 100]
      brClock := [.rmw ⟨3, 0x01#7⟩ 0xFF#8 0x07#8]
      brOdr := [.w ⟨3, 0x00#7⟩ 0x04#8]
      magSoftReset := [.bw 0x32#8 0x01#8, .d 100]
      magMode := [.bw 0x31#8 0x08#8, .d 100] }
  initGyroRange := 3
  initAccelRange := 3
  maxBurst := 6
  accelZArtifact := false
  spiMode := ⟨false, false⟩
  bitOrder := .msbFirst
  sclkHz := 7000000
  txFill := 0x00#8

/-- What the bus transport reports for one byte transferred: "failed" or "done" (60_exceptions.md R230). A failed step
"may or may not have left its event (both are admitted)" (R112): `eventLeft` says which (log 11). -/
inductive Report where
  | done
  | failed (eventLeft : Bool)
deriving DecidableEq, Repr, Inhabited

/-- One answer of the environment to one `TX` or `RX` step: the byte on the data-in line (ignored during `TX`, R84) and
the transport's report. -/
structure BusAnswer where
  byte : Byte
  report : Report
deriving DecidableEq, Repr, Inhabited

/-- A FREE VALUE of the model: what the environment answers at its `n`th bus step, for every step no script answers.
R66: "The normative rules of this spec place no constraint on it"; R112: whether and where the transport fails "is
chosen by the environment". It has no body, so nothing can be proved of it (log 1). -/
opaque Config.busAnswer : Nat → BusAnswer

/-- When the bridge completes one follower transaction, and whether it starts it again (R34): `wait` counts the bus events
the device sees after the trigger and before the completion, 0 for "at the trigger". Which it is the framer cannot observe;
whether it repeats "is not in the source" (N10). -/
structure BridgeAnswer where
  wait : Nat
  repeats : Bool
deriving DecidableEq, Repr, Inhabited

/-- A free value: the bridge's answer for its `n`th transaction, for every one that no list of answers covers. R34: "It
completes at a time the framer cannot observe". It has no body (log 23). -/
opaque Config.bridgeAnswer : Nat → BridgeAnswer

/-- A free value: the byte the bridge finds at its `n`th read of a magnetometer register that the sensor refreshes, for every
one that no list of bytes covers. R35: such reads are answered "from the environment oracle". It has no body (log 25). -/
opaque Config.magnetometerSample : Nat → Byte

end Sys2Proof
end

