-- ==== Sys2Proof/Machine/State.lean ====
section
/-! DEFINITION. The state of the framer (10_state.md), of its ports and of its environment, as plain data, and reset
(10_state.md R36, 70_reset_and_hazards.md R260). -/

namespace Sys2Proof.Machine

/-- The sequencer: `IDLE` between operations, `BUSY` within one (R24). -/
inductive Seq where
  | idle
  | busy
deriving DecidableEq, Repr, Inhabited

/-- The device-select output: `HIGH` deasserted, `LOW` asserted (R25). -/
inductive Level where
  | high
  | low
deriving DecidableEq, Repr, Inhabited

/-- The events of the trace (R13, R27). -/
inductive Event where
  | csLow
  | tx (b : Byte)
  | rx (b : Byte)
  | csHigh
  | delay (ms : Nat)
deriving DecidableEq, Repr, Inhabited

/-- The cause a failed magnetometer gate reports (R226). -/
inductive GateCause where
  | notReady
  | overflow
deriving DecidableEq, Repr, Inhabited

/-- The device an identity check did not find (R226). -/
inductive DeviceName where
  | main
  | magnetometer
deriving DecidableEq, Repr, Inhabited

/-- The modality whose scale factor is `UNSET` (R226). -/
inductive Modality where
  | gyroscope
  | accelerometer
deriving DecidableEq, Repr, Inhabited

/-- The closed list of exceptions of 60_exceptions.md R226. "No operation ends with anything outside this list." -/
inductive Error where
  | notReadyOrOverflow (cause : GateCause)
  | sensorError (cause : GateCause)
  | deviceNotFound (device : DeviceName)
  | busError
  | illegalCommand
  | scaleFactorUnset (modality : Modality)
deriving DecidableEq, Repr, Inhabited

/-- A memory: (address, byte) cells with strictly rising addresses and no zero byte (`Memory.wf`); an unlisted address
reads as `Memory.unlisted` (log 19). -/
abbrev Memory := List Host.Cell

/-- Who says when the bridge completes its coming transactions (R34). -/
inductive BridgeTiming where
  /-- Each at its trigger write and once: the reference device of 20_memory.md R70. -/
  | atTrigger
  /-- As the answers `coming` say, the next one first; past them the free value `Config.bridgeAnswer`, whose index `count` is
  the number of transactions answered (log 23). -/
  | chosen (coming : List BridgeAnswer) (count : Nat)
deriving DecidableEq, Repr, Inhabited

/-- Whether the sensors refresh their sample registers (R35). -/
inductive Sampling where
  /-- "its sample registers never change on their own": the reference device of 20_memory.md R70. -/
  | still
  /-- They "change on their own": a read of one is answered by the environment, not from a store. A read frame of the main
  device takes the byte the environment answers to its `RX` (R66); a read the bridge makes of the magnetometer takes the next
  byte of `coming`, and past them the free value `Config.magnetometerSample`, whose index `count` is the number of such reads
  (log 25). -/
  | moving (coming : List Byte) (count : Nat)
deriving DecidableEq, Repr, Inhabited

/-- The devices behind the bus: the device bank (R31), the main-device registers `DEV[b][a]` (R30) and the magnetometer
registers `MAG[r]` (R33) in one memory, the bridge's in-flight state (R34), the sensors (R35), and the frame being consumed.
With `timing` `atTrigger` and `sampling` `still` it is the reference device of 20_memory.md R70. -/
structure Device where
  /-- `DEV.bank` (R31). -/
  bank : Bank
  /-- `DEV[b][a]` at `128 * b + a`, `MAG[r]` at `512 + r` (R30, R33, R50). -/
  regs : Memory
  /-- The one pending follower-side transaction, with the bus events still to come before it completes (R34). -/
  pending : Option BridgeAnswer
  /-- When the transactions to come complete (R34). -/
  timing : BridgeTiming
  /-- Whether the sensors refresh the sample registers (R35). -/
  sampling : Sampling
  /-- The bytes transmitted since the last `CS_LOW`. -/
  frameTx : List Byte
  /-- The number of bytes received since the last `CS_LOW`. -/
  frameRx : Nat
deriving DecidableEq, Repr, Inhabited

/-- The environment of the framer (00_scope.md R3, 20_memory.md R66): the answers it gives to `TX` and `RX` steps. -/
structure Env where
  /-- The answers to the coming bus steps, the next one first. -/
  script : List BusAnswer
  /-- How many bus steps have been answered: the index of the free value for a step no script answers (log 1). -/
  count : Nat
  /-- The devices of R30 to R35, when the environment computes its answers from them; else nothing constrains the received bytes. -/
  device : Option Device
deriving DecidableEq, Repr, Inhabited

/-- One frame to be run alone: the bytes to send and the count to receive (R82, R92; log 5). -/
structure FrameReq where
  tx : List Byte
  m : Nat
deriving DecidableEq, Repr, Inhabited

/-- The state of the machine. -/
structure State where
  /-- `Params` (R6, R28): constant; no operation writes it. -/
  params : Params
  /-- `x[SF_GYRO]`; `none` is `UNSET` (R22). -/
  sfGyro : Option Ratio
  /-- `x[SF_ACCEL]`; `none` is `UNSET` (R22). -/
  sfAccel : Option Ratio
  /-- `SEQ` (R24). -/
  seq : Seq
  /-- `CS` (R25). -/
  cs : Level
  /-- `TR`, oldest event first (R27). -/
  tr : List Event
  /-- The bytes waiting at the command port, the next one first (R93; log 6). -/
  portIn : List Byte
  /-- A bus frame to be run alone (R82, R92; log 5). -/
  busReq : Option FrameReq
  /-- The response packets sent since reset, oldest first (R97, D33; log 14). -/
  responses : List (List Byte)
  /-- The environment (R3, R66). -/
  env : Env
deriving DecidableEq, Repr, Inhabited

/-- The machine has no fault: "There is no panic, halt, lock-up or stuck state of the framer anywhere in this spec"
(60_exceptions.md R225). Every error of R226 is a next state. -/
inductive Fault where
deriving DecidableEq, Repr

/-- Why the model gives no next state. -/
inductive Refusal where
  /-- An instruction whose arm of `exec` has no meaning yet; safe. -/
  | notModelled (mnemonic : String)
  /-- Raised by `issue` when an operation is issued while `SEQ = BUSY`: "such inputs are not offered" (R24, I15); safe:
  no run from reset meets it. -/
  | commandWhileBusy
  /-- Raised by `issue` when `Params` is ill-formed: "well-formedness is a precondition of the model; no rule is stated
  for ill-formed records" (I19); safe. -/
  | illFormedParams
  /-- Raised by `step` for a bus request, and by `execFrameRead` and `execFrameWrite` for operands, that are neither of
  the two frame forms of R82: "the framer emits exactly two frame forms", R101; safe. -/
  | notAFrameForm
deriving DecidableEq, Repr

/-- The environment at reset: no script and no devices, so that every answer is the free value (R36: device
state "unspecified: any value"; log 2). -/
def Env.reset : Env := { script := [], count := 0, device := none }

/-- The machine after `RESET`, for an instance with parameters `p` (R36, R260). -/
def State.resetWith (p : Params) : State where
  params := p
  sfGyro := none
  sfAccel := none
  seq := .idle
  cs := .high
  tr := []
  portIn := []
  busReq := none
  responses := []
  env := Env.reset

/-- The machine after `RESET`. The instance's parameters are the example set EX (DESIGN CHOICE, log 3); everything else
is as R36 and R260 state it. -/
def State.reset : State := State.resetWith Params.vectorsEX

end Sys2Proof.Machine
end

