-- ==== Sys2Proof/Machine/Memory.lean ====
section
/-! DEFINITION. The register spaces outside the framer as one memory in canonical form (10_state.md R30, R33;
20_memory.md R50). Only the devices of the environment hold one. -/

namespace Sys2Proof.Machine

/-- The number of registers: 4 banks of 128 main-device registers and 256 magnetometer registers (R30, R33). -/
def Memory.size : Nat := 768

/-- `DEV[b][a]` (R30). -/
def mainKey (bank : Bank) (a : Nat) : Nat := 128 * bank.val + a

/-- `MAG[r]` (R33). -/
def magKey (r : Nat) : Nat := 512 + r

/-- What an unlisted address reads as: "every register zero except those listed" (95_test_vectors.md section 0; log 19). -/
def Memory.unlisted : Byte := 0x00#8

/-- The byte at an address. -/
def Memory.read : Memory → Nat → Byte
  | [], _ => Memory.unlisted
  | (k, v) :: rest, a => if k = a then v else Memory.read rest a

/-- The memory with the byte at an address written, in canonical form again. -/
def Memory.write : Memory → Nat → Byte → Memory
  | [], a, v => if v = Memory.unlisted then [] else [(a, v)]
  | (k, w) :: rest, a, v =>
    if a < k then (if v = Memory.unlisted then (k, w) :: rest else (a, v) :: (k, w) :: rest)
    else if a = k then (if v = Memory.unlisted then rest else (a, v) :: rest)
    else (k, w) :: Memory.write rest a v

/-- The canonical form: addresses strictly rising and within the two register spaces, and no cell that an unlisted
address would read as. -/
abbrev Memory.wf (m : Memory) : Prop :=
  m.Pairwise (fun c d => c.1 < d.1) ∧ ∀ c ∈ m, c.1 < Memory.size ∧ c.2 ≠ Memory.unlisted

end Sys2Proof.Machine
end

