-- ==== Sys2Proof/Machine/Device.lean ====
section
/-! DEFINITION. The devices behind the bus as one possible environment: the main device's registers and bank (10_state.md
R30, R31), the magnetometer's registers (R33), the bridge between them with its transaction in flight (R34), and the sensors
that refresh sample registers (R35). It consumes the trace frame by frame as 20_memory.md R70 describes; the reference device
of R70 is the one whose bridge completes at the trigger and whose samples stand still. What R70 leaves open is in log 8, what
R34 leaves open in log 23, what R35 leaves open in log 25. -/

namespace Sys2Proof.Machine

/-- The register `a` of the current bank (R51: the physical register is `DEV[DEV.bank][a]`). -/
def Device.readReg (d : Device) (a : Nat) : Byte := d.regs.read (mainKey d.bank a)

/-- The bank whose payload a byte is: "if exists b with BANK_VAL[b] = d_i" (R70), the lowest such. -/
def bankOfPayload (p : Params) (v : Byte) : Option Bank :=
  if p.bankVal.get 0 = v then some 0
  else if p.bankVal.get 1 = v then some 1
  else if p.bankVal.get 2 = v then some 2
  else if p.bankVal.get 3 = v then some 3
  else none

/-- The axis-data registers of the main device, six from `GYRO_OUT` and six from `ACCEL_OUT` (R32, R35). -/
def mainSampleReg (p : Params) (bank : Bank) (a : Nat) : Bool :=
  (bank = p.gyroOut.bank ∧ p.gyroOut.reg.toNat ≤ a ∧ a < p.gyroOut.reg.toNat + 6) ∨
  (bank = p.accelOut.bank ∧ p.accelOut.reg.toNat ≤ a ∧ a < p.accelOut.reg.toNat + 6)

/-- The magnetometer registers its sensor refreshes: the six axis-data registers (R33, R35), and the two status registers that
tell of them (DEDUCED, log 25). -/
def magSampleReg (p : Params) (r : Byte) : Bool :=
  (r - p.magDataReg).toNat < 6 ∨ r = p.magSt1Reg ∨ r = p.magSt2Reg

/-- The next sample byte, and the sensors after it (R35; log 25); `stored` while the samples stand still. -/
def Sampling.next (stored : Byte) : Sampling → Byte × Sampling
  | .still => (stored, .still)
  | .moving [] count => (Config.magnetometerSample count, .moving [] (count + 1))
  | .moving (b :: coming) count => (b, .moving coming (count + 1))

/-- The byte the bridge finds at magnetometer register `r`, and the sensors after the read: what is stored there, or a sample
(R33, R35). -/
def Device.followerByte (p : Params) (d : Device) (r : Byte) : Byte × Sampling :=
  let stored := d.regs.read (magKey r.toNat)
  if magSampleReg p r then d.sampling.next stored else (stored, d.sampling)

/-- One follower byte deposited in the relay window: `DEV[0][RELAY_REG+j] <- MAG[(r+j) mod 256]` (R70). A window byte past
address 127 does not exist (R30) and is dropped (log 8). -/
def Device.depositByte (p : Params) (d : Device) (r : Byte) (j : Nat) : Device :=
  let found := d.followerByte p (r + BitVec.ofNat 8 j)
  { d with
    regs := if p.relayReg.toNat + j < 128 then d.regs.write (mainKey 0 (p.relayReg.toNat + j)) found.1 else d.regs
    sampling := found.2 }

/-- The follower's reply copied into the relay window, `n` bytes in all, from the `j`th on (R70, R150 b). -/
def Device.depositReply (p : Params) (r : Byte) : Nat → Nat → Device → Device
  | 0, _, d => d
  | n + 1, j, d => Device.depositReply p r n (j + 1) (d.depositByte p r j)

/-- The follower-side transaction, done as the current contents of the bridge registers describe it (R34, R70, R150 b, c):
a read deposits the count in `BR_CTRL_REG` of follower bytes in the relay window, a write stores the data-out byte. -/
def Device.transact (p : Params) (d : Device) : Device :=
  let f := d.regs.read (mainKey 3 p.brAddrReg.toNat)
  let r := d.regs.read (mainKey 3 p.brRegReg.toNat)
  let control := d.regs.read (mainKey 3 p.brCtrlReg.toNat)
  if f.setWidth 7 = p.magAddr then
    if f &&& p.brReadBit ≠ 0x00#8 then Device.depositReply p r (control &&& 0x7F#8).toNat 0 d
    else { d with regs := d.regs.write (magKey r.toNat) (d.regs.read (mainKey 3 p.brDoReg.toNat)) }
  else d

/-- The answer for the next transaction, and the timing of those after it (R34; log 23). -/
def BridgeTiming.next : BridgeTiming → BridgeAnswer × BridgeTiming
  | .atTrigger => ({ wait := 0, repeats := false }, .atTrigger)
  | .chosen [] count => (Config.bridgeAnswer count, .chosen [] (count + 1))
  | .chosen (a :: coming) count => (a, .chosen coming (count + 1))

/-- What follows a completion: nothing is pending, or the transaction is again, to complete at a later event (R34, N10). -/
def Device.afterCompletion (d : Device) (repeats : Bool) : Device :=
  if repeats then
    { d with
      pending := some { d.timing.next.1 with wait := d.timing.next.1.wait + 1 }
      timing := d.timing.next.2 }
  else { d with pending := none }

/-- The pending transaction takes effect when its wait is over; until then neither the relay window nor the follower register
changes (R34). -/
def Device.settle (p : Params) (d : Device) : Device :=
  match d.pending with
  | none => d
  | some answer =>
    if answer.wait = 0 then (d.transact p).afterCompletion answer.repeats else d

/-- `BR_CTRL_REG` was written with the enable bit set: "the bridge holds one pending follower-side transaction" (R34). One that
was pending is so no more (log 23). -/
def Device.trigger (p : Params) (d : Device) : Device :=
  { d with pending := some d.timing.next.1, timing := d.timing.next.2 }.settle p

/-- The bridge works on while a bus event passes (R34, R62). -/
def Device.tick (p : Params) (d : Device) : Device :=
  match d.pending with
  | none => d
  | some answer => { d with pending := some { answer with wait := answer.wait - 1 } }.settle p

/-- One payload byte of a write frame, at register address `a` (R70). An address past 127 does not exist (R30) and the
byte is dropped (log 8). That a byte written by a reset step does no more than be stored is the model's choice: R261 and N28
give the devices' own resets no effect on their registers (DESIGN CHOICE, log 26). -/
def Device.writeByte (p : Params) (d : Device) (a : Nat) (v : Byte) : Device :=
  if a = p.bankSelReg.toNat then
    match bankOfPayload p v with
    | some b => { d with bank := b }
    | none => d
  else if a < 128 then
    let written := { d with regs := d.regs.write (mainKey d.bank a) v }
    if d.bank = 3 ∧ a = p.brCtrlReg.toNat ∧ v &&& p.brEnableBit ≠ 0x00#8 then written.trigger p else written
  else d

/-- The payload bytes of a write frame at ascending addresses (R58, R70). -/
def Device.writeBytes (p : Params) : Device → Nat → List Byte → Device
  | d, _, [] => d
  | d, a, v :: vs => Device.writeBytes p (d.writeByte p a v) (a + 1) vs

/-- The effect of the frame just closed: a write frame writes its payload, a read frame changes nothing (R70). -/
def Device.closeFrame (p : Params) (d : Device) : Device :=
  match d.frameTx with
  | [] => d
  | c :: payload => if c.msb then d else d.writeBytes p (c.setWidth 7).toNat payload

/-- What one event of the trace does to the frame being consumed (R70: it consumes `TR` frame by frame; on DELAY nothing). -/
def Device.frameEvent (p : Params) (d : Device) : Event → Device
  | .csLow => { d with frameTx := [], frameRx := 0 }
  | .tx b => { d with frameTx := d.frameTx ++ [b] }
  | .rx _ => { d with frameRx := d.frameRx + 1 }
  | .csHigh => { (d.closeFrame p) with frameTx := [], frameRx := 0 }
  | .delay _ => d

/-- The device's view of one event of the trace: the bridge works on, then the frame does what it does. -/
def Device.onEvent (p : Params) (d : Device) (ev : Event) : Device := (d.tick p).frameEvent p ev

/-- Whether a read of the register is answered by the sensor and not from the store (R35). -/
def Device.sampledHere (p : Params) (d : Device) (a : Nat) : Bool :=
  d.sampling ≠ .still ∧ mainSampleReg p d.bank a = true

/-- The byte the device answers to the next `RX` of the open frame: register `a + i` of the current bank in a read frame,
the bank payload at the bank-select register (R70). It is `free`, the environment's own answer (R66), for a sample register
that the sensors refresh (R35), and for what R70 does not describe: a byte received in a write frame, an address past 127
(log 8). -/
def Device.reply (p : Params) (d : Device) (free : Byte) : Byte :=
  match d.frameTx with
  | [] => free
  | c :: _ =>
    let a := (c.setWidth 7).toNat + d.frameRx
    if c.msb = true ∧ a < 128 then
      if a = p.bankSelReg.toNat then p.bankVal.get d.bank
      else if d.sampledHere p a then free
      else d.readReg a
    else free

end Sys2Proof.Machine
end

