-- ==== Sys2Proof/Machine/Environment.lean ====
section
/-! DEFINITION. What the environment answers (20_memory.md R66, 40_bus_transaction.md R112): the one place where a
received byte or a transport failure comes from. -/

namespace Sys2Proof.Machine

/-- The environment's answer to the next bus step, and the environment after it: the script's next answer; with the
script used up, the free value (log 1), which never fails before the devices (log 8). -/
def Env.next (e : Env) : BusAnswer × Env :=
  match e.script with
  | a :: rest => (a, { e with script := rest, count := e.count + 1 })
  | [] =>
    match e.device with
    | none => (Config.busAnswer e.count, { e with count := e.count + 1 })
    | some _ => ({ byte := (Config.busAnswer e.count).byte, report := .done }, { e with count := e.count + 1 })

/-- The byte received when the answer carries `byte`: that byte, or what the devices hold (R66, R70). -/
def Env.received (p : Params) (e : Env) (byte : Byte) : Byte :=
  match e.device with
  | none => byte
  | some d => d.reply p byte

/-- The environment sees an event of the trace (R70). -/
def Env.observe (p : Params) (e : Env) (ev : Event) : Env := { e with device := e.device.map fun d => d.onEvent p ev }

end Sys2Proof.Machine
end

