-- ==== Sys2Proof/Machine/Parameters.lean ====
section
/-! DEFINITION. Well-formedness of the parameter record (93_implementation_defined.md I19; 43_initialization.md R156,
R157, R166; 44_calibration.md R184; 45_scaled_read.md R191; 30_encoding.md R87). -/

namespace Sys2Proof

/-- A positive rational (R191, R200: "`SF > 0` always"). -/
def Ratio.positive (q : Ratio) : Bool := decide (0 < q.num) && decide (0 < q.den)

/-- The list ends with a `D(ms)` with `ms > 0` (R157). -/
def endsWithSettle (steps : List MicroOp) : Bool :=
  match steps.getLast? with
  | some (.d ms) => decide (0 < ms)
  | _ => false

/-- A micro-operation on the main device, or a delay: `W`, `RMW` or `D` (R156, R166). -/
def MicroOp.onMain : MicroOp → Bool
  | .w _ _ => true
  | .rmw _ _ _ => true
  | .bw _ _ => false
  | .d _ => true

/-- A micro-operation on the magnetometer, or a delay: `BW` or `D` (R166). -/
def MicroOp.onMag : MicroOp → Bool
  | .w _ _ => false
  | .rmw _ _ _ => false
  | .bw _ _ => true
  | .d _ => true

/-- The steps of `INIT_MAIN` in the order R160 runs them. -/
def MainSteps.inOrder (m : MainSteps) : List MicroOp :=
  m.reset ++ m.wake ++ m.clock ++ m.odrAlign ++ m.busMode ++ m.lpf ++ m.smplrt

/-- `BW` is "allowed in `INIT_MAG_STEPS` only" (R156); `RESET`, `WAKE` and `CLOCK` end with a settle delay (R157). -/
def MainSteps.wf (m : MainSteps) : Bool :=
  m.inOrder.all MicroOp.onMain &&
    endsWithSettle m.reset && endsWithSettle m.wake && endsWithSettle m.clock

/-- The first four steps "use `W` or `RMW`; the last two act on the magnetometer and so use `BW`" (R166); `BR_RESET`,
`BR_ENABLE`, `MAG_SOFT_RESET` and `MAG_MODE` end with a settle delay (R157). -/
def MagSteps.wf (m : MagSteps) : Bool :=
  (m.brReset ++ m.brEnable ++ m.brClock ++ m.brOdr).all MicroOp.onMain &&
    (m.magSoftReset ++ m.magMode).all MicroOp.onMag &&
    endsWithSettle m.brReset && endsWithSettle m.brEnable &&
    endsWithSettle m.magSoftReset && endsWithSettle m.magMode

/-- "every divisor is a positive rational" (R191). -/
def divisorsPositive (t : Four Ratio) : Bool := t.toList.all Ratio.positive

/-- `FS_BITS[r] & ~FS_MASK = 0` for every range (R191). -/
def bitsUnderMask (mask : Byte) (t : Four Byte) : Bool := t.toList.all fun b => decide (b &&& ~~~mask = 0x00#8)

/-- A well-formed `Params` record (I19; log 4). -/
def Params.wf (p : Params) : Bool :=
  divisorsPositive p.gyroSf && divisorsPositive p.accelSf && decide (0 < p.magScale.den) &&
    bitsUnderMask p.gyroFsMask p.gyroFsBits && bitsUnderMask p.accelFsMask p.accelFsBits &&
    decide (1 ≤ p.calSamples) && decide (1 ≤ p.gyroCalDiv) && decide (1 ≤ p.accelCalDiv) &&
    decide (1 ≤ p.idRetryMax) && decide (p.maxBurst ≤ 127) &&
    p.initMainSteps.wf && p.initMagSteps.wf

end Sys2Proof
end

