-- ==== Sys2Proof/Machine/Ops.lean ====
section
/-! DEFINITION. The shared operations of the framer: the trace, the frame (40_bus_transaction.md R111), delays (R13),
raising and taking an exception (00_scope.md R14, 60_exceptions.md R234) and issuing an operation (R24, R93). -/

namespace Sys2Proof.Machine

/-! ### Updates of the state, one per field -/

/-- Appends an event to `TR` (R13, R27); the environment sees it. -/
def State.record (s : State) (ev : Event) : State :=
  { s with tr := s.tr ++ [ev], env := s.env.observe s.params ev }

/-- `CS <- v` (R25). -/
def State.setCs (s : State) (v : Level) : State := { s with cs := v }

/-- `SEQ <- v` (R24). -/
def State.setSeq (s : State) (v : Seq) : State := { s with seq := v }

/-- `x[SF_GYRO] <- q` (R22, R192). -/
def State.setSfGyro (s : State) (q : Ratio) : State := { s with sfGyro := some q }

/-- `x[SF_ACCEL] <- q` (R22, R194). -/
def State.setSfAccel (s : State) (q : Ratio) : State := { s with sfAccel := some q }

/-- The environment after an answer. -/
def State.setEnv (s : State) (e : Env) : State := { s with env := e }

/-- The bytes left waiting at the command port. -/
def State.setPortIn (s : State) (bytes : List Byte) : State := { s with portIn := bytes }

/-- The bus frame waiting to be run alone. -/
def State.setBusReq (s : State) (q : Option FrameReq) : State := { s with busReq := q }

/-- Sends a response packet to the host (R97). -/
def State.send (s : State) (packet : List Byte) : State := { s with responses := s.responses ++ [packet] }

/-! ### Device-select -/

/-- `emit CS_LOW ; CS <- LOW` (R111). -/
def State.beginFrame (s : State) : State := (s.record .csLow).setCs .low

/-- `emit CS_HIGH ; CS <- HIGH` (R111). -/
def State.endFrame (s : State) : State := (s.record .csHigh).setCs .high

/-- "if a frame is open, `emit CS_HIGH`" (R234 step 1, R14, R113). -/
def State.closeFrame (s : State) : State := if s.cs = .low then s.endFrame else s

/-! ### Exceptions -/

/-- The response packet of an error: status and info bytes (R97, R226). -/
def errorPacket : Error → List Byte
  | .notReadyOrOverflow .notReady => [0x01#8, 0x00#8]
  | .notReadyOrOverflow .overflow => [0x01#8, 0x01#8]
  | .sensorError .notReady => [0x02#8, 0x00#8]
  | .sensorError .overflow => [0x02#8, 0x01#8]
  | .deviceNotFound .main => [0x03#8, 0x00#8]
  | .deviceNotFound .magnetometer => [0x03#8, 0x01#8]
  | .busError => [0x04#8]
  | .illegalCommand => [0x05#8]
  | .scaleFactorUnset .gyroscope => [0x06#8, 0x00#8]
  | .scaleFactorUnset .accelerometer => [0x06#8, 0x01#8]

/-- Taking an exception (R234): the open frame is closed, the response packet `status, info` is sent, `SEQ <- IDLE`.
"Nothing is saved, because there is nothing to resume"; there is no return from an exception (R236). -/
def State.takeException (e : Error) (s : State) : State := (s.closeFrame.send (errorPacket e)).setSeq .idle

/-- The success response: status `OK` and the payload (R97, R98); `SEQ <- IDLE` (R24). -/
def State.respondOk (payload : List Byte) (s : State) : State := (s.send (0x00#8 :: payload)).setSeq .idle

/-! ### Operations -/

/-- A run of the framer within one operation: a result or a raised exception (R14), and the state, which keeps every
change made so far either way. -/
abbrev Op (α : Type) : Type := ExceptT Error (StateM State) α

/-- `raise E(info)`: closes any open frame first, and nothing after it runs (R14). -/
def raise {α : Type} (e : Error) : Op α := do
  modify State.closeFrame
  throw e

/-- The parameter record (R6). -/
def parameters : Op Params := do return (← get).params

/-- Appends an event to the trace. -/
def emit (ev : Event) : Op Unit := modify fun s => s.record ev

/-- `Delay(d)`: appends `DELAY(d)`; "`Delay(0)` does nothing and appends nothing" (R13, D10). -/
def delay (d : Nat) : Op Unit := if d = 0 then pure () else emit (.delay d)

/-- The environment's answer to a bus step (R66, R112). -/
def answer : Op BusAnswer := do
  let s ← get
  set (s.setEnv s.env.next.2)
  return s.env.next.1

/-- The event a failed step left, if it left one (R112). -/
def emitIf (eventLeft : Bool) (ev : Event) : Op Unit := if eventLeft then emit ev else pure ()

/-- The transport reported failure at a bus step: the step may have left its event; control goes to `FAIL`, which closes
the frame and raises `BusError` (R111, R112). -/
def transportFailed {α : Type} (eventLeft : Bool) (ev : Event) : Op α := do
  emitIf eventLeft ev
  raise .busError

/-- `emit TX(b)`, which may fail (R111); the data-in byte of the answer is ignored (R84). -/
def txByte (b : Byte) : Op Unit := do
  let a ← answer
  match a.report with
  | .done => emit (.tx b)
  | .failed eventLeft => transportFailed eventLeft (.tx b)

/-- `r <- RX()`, which may fail (R111, R13); the byte is the environment's (R66). -/
def rxByte : Op Byte := do
  let a ← answer
  let s ← get
  let r := s.env.received s.params a.byte
  match a.report with
  | .done => do
    emit (.rx r)
    return r
  | .failed eventLeft => transportFailed eventLeft (.rx r)

/-- All outbound bytes, in order (R80, R111). -/
def txAll : List Byte → Op Unit
  | [] => pure ()
  | b :: bs => do
    txByte b
    txAll bs

/-- `m` inbound bytes, in order (R80, R111). -/
def rxAll : Nat → Op (List Byte)
  | 0 => pure []
  | m + 1 => do
    let r ← rxByte
    let rs ← rxAll m
    return r :: rs

/-- `Frame(tx, m)`: the whole framed exchange (R111). -/
def frame (tx : List Byte) (m : Nat) : Op (List Byte) := do
  modify State.beginFrame
  txAll tx
  let rx ← rxAll m
  modify State.endFrame
  return rx

/-! ### Issuing an operation -/

/-- The response to a finished operation (R97, R234). -/
def respond : Except Error (List Byte) × State → State
  | (.ok payload, s) => s.respondOk payload
  | (.error e, s) => s.takeException e

/-- Issues an operation: only in `SEQ = IDLE`; `SEQ <- BUSY`; the operation runs to its response, which sets
`SEQ <- IDLE` (R24, R93). Well-formed `Params` are a precondition (I19). -/
def issue (op : Op (List Byte)) (s : State) : Host.Outcome State Fault Refusal :=
  if s.seq = .busy then .refused .commandWhileBusy
  else if s.params.wf = false then .refused .illFormedParams
  else .next (respond (op (s.setSeq .busy)))

end Sys2Proof.Machine
end

