-- ==== Sys2Proof/Machine/Operands.lean ====
section
/-! DEFINITION. Operand forms: the operand checks of 30_encoding.md R100, the bytes the framer assembles (R81, R85 to
R89), and the byte order of 16-bit values (20_memory.md R53 to R55). -/

namespace Sys2Proof.Machine

/-! ### Operand checks (R96, R100): the first that fails raises `IllegalCommand`, before any bus event -/

/-- A two-bit operand: "bits 7:2 must be 0" (R96). -/
def indexOperand (b : Byte) : Op (Fin 4) :=
  if b >>> 2 = 0x00#8 then pure (b.setWidth 2).toFin else raise .illegalCommand

/-- `bank` (R96, R100 check 1). -/
def bankOperand (b : Byte) : Op Bank := indexOperand b

/-- `range` (R96, R100 check 1). -/
def rangeOperand (b : Byte) : Op RangeIx := indexOperand b

/-- A seven-bit operand: "bit 7 must be 0" (R96). -/
def addrOperand (b : Byte) : Op Addr7 :=
  if b.msb then raise .illegalCommand else pure (b.setWidth 7)

/-- `1 <= len <= MAX_BURST` and `start + len <= 128` (R57, R100 checks 2 and 3). -/
def burstOperand (start : Addr7) (len : Nat) : Op Unit := do
  let p ← parameters
  if 1 ≤ len ∧ len ≤ p.maxBurst then
    if start.toNat + len ≤ 128 then pure () else raise .illegalCommand
  else raise .illegalCommand

/-- `ntx` in 1..255 (R96, R100 check 4; log 13). -/
def transmitOperand (tx : List Byte) : Op Unit :=
  if 1 ≤ tx.length ∧ tx.length ≤ 255 then pure () else raise .illegalCommand

/-! ### Bytes the framer assembles -/

/-- Bridge follower-address byte, read form: `BR_READ_BIT | f` (R86). -/
def followerReadByte (p : Params) (f : Addr7) : Byte := p.brReadBit ||| f.setWidth 8

/-- Bridge follower-address byte, "the write-address form": `f` alone (R86). -/
def followerWriteByte (f : Addr7) : Byte := f.setWidth 8

/-- Bridge control byte: `BR_ENABLE_BIT | len` (R87). -/
def controlByte (p : Params) (len : Nat) : Byte := p.brEnableBit ||| BitVec.ofNat 8 len

/-- A read-modify-write value: `(t & keep) | set` (R156, R192). -/
def mergeBits (t keep set : Byte) : Byte := (t &&& keep) ||| set

/-! ### 16-bit values -/

/-- The byte at a position of a reply; a reply of `m` bytes has positions 0 to `m - 1`. -/
def byteAt (d : List Byte) (k : Nat) : Byte := d.getD k 0x00#8

/-- `s16(high << 8 | low)` (R9, R10). -/
def s16 (high low : Byte) : Int := (high ++ low).toInt

/-- `u16(i)`: `i mod 65536` (R10). -/
def u16 (i : Int) : BitVec 16 := BitVec.ofInt 16 i

/-- `v[15:8]` (R9). -/
def highByte (v : BitVec 16) : Byte := v.extractLsb' 8 8

/-- `v[7:0]` (R9). -/
def lowByte (v : BitVec 16) : Byte := v.extractLsb' 0 8

/-- A 16-bit pattern as a big-endian pair `[v[15:8], v[7:0]]` (R55, R88). -/
def bigEndianPair (v : BitVec 16) : List Byte := [highByte v, lowByte v]

/-- Main-device axis registers, big-endian (R53). -/
def axisBig (d : List Byte) : Axis3 Int :=
  { x := s16 (byteAt d 0) (byteAt d 1)
    y := s16 (byteAt d 2) (byteAt d 3)
    z := s16 (byteAt d 4) (byteAt d 5) }

/-- Magnetometer axis registers, little-endian (R54). -/
def axisLittle (m : List Byte) : Axis3 Int :=
  { x := s16 (byteAt m 1) (byteAt m 0)
    y := s16 (byteAt m 3) (byteAt m 2)
    z := s16 (byteAt m 5) (byteAt m 4) }

/-- A raw triplet as payload: `x`, `y`, `z`, each as `u16` pattern, high byte first (R98). -/
def rawPayload (t : Axis3 Int) : List Byte := (t.toList.map fun i => bigEndianPair (u16 i)).flatten

/-- A binary32 pattern, most significant byte first (R98). -/
def wordBytes (v : BitVec 32) : List Byte :=
  [v.extractLsb' 24 8, v.extractLsb' 16 8, v.extractLsb' 8 8, v.extractLsb' 0 8]

/-- A scaled triplet as payload: 12 bytes (R98). -/
def scaledPayload (t : Axis3 (BitVec 32)) : List Byte := (t.toList.map wordBytes).flatten

/-- `tdiv(a, b)`: division truncated toward zero (R10, D12). -/
def tdiv (a : Int) (b : Nat) : Int := Int.tdiv a b

end Sys2Proof.Machine
end

