-- ==== Sys2Proof/Machine/Flags.lean ====
section
/-! DEFINITION. The flags of the framer (10_state.md R23) and the two status bits of the magnetometer gate
(45_scaled_read.md R206). The framer has no other flag (R23). -/

namespace Sys2Proof.Machine

/-- `SFV_GYRO = (x[SF_GYRO] != UNSET)` (R23). -/
def State.sfvGyro (s : State) : Bool := s.sfGyro.isSome

/-- `SFV_ACCEL = (x[SF_ACCEL] != UNSET)` (R23). -/
def State.sfvAccel (s : State) : Bool := s.sfAccel.isSome

/-- The "data ready" bit of a status-1 byte: "Only the masked bit is tested" (R206, R207 d). -/
def dataReady (p : Params) (s1 : Byte) : Bool := decide (s1 &&& p.magDrdyMask ≠ 0x00#8)

/-- The "overflow" bit of a status-2 byte (R206, R207 d). -/
def overflowed (p : Params) (s2 : Byte) : Bool := decide (s2 &&& p.magOvfMask ≠ 0x00#8)

end Sys2Proof.Machine
end

