-- ==== Sys2Proof/Machine/Bus.lean ====
section
/-! DEFINITION. The bus transaction primitive: `XFER` (40_bus_transaction.md R110 to R116) and the two frame forms of the
bus (30_encoding.md R82). -/

namespace Sys2Proof.Machine

/-- `FRAME_READ(a, m)`: the command byte with bit 7 set, then `m` received bytes (R81, R82). -/
def readFrame (a : Addr7) (m : Nat) : Op (List Byte) := frame [commandByte .read a] m

/-- `FRAME_WRITE(a, data)`: the command byte with bit 7 clear, then the data (R81, R82). -/
def writeFrame (a : Addr7) (data : List Byte) : Op Unit := do
  let _ ← frame (commandByte .write a :: data) 0
  return ()

/-- `XFER tx, m` (R111): the bytes are transmitted as given; the payload is the `m` received bytes (R98). -/
def execXfer (tx : List Byte) (m : Byte) (s : State) : Host.Outcome State Fault Refusal :=
  issue (do
    transmitOperand tx
    frame tx m.toNat) s

/-- `FRAME_READ` run alone (R82, R92; log 5): only the form of R82, `m >= 1`; answers the received bytes. -/
def execFrameRead (a : Addr7) (m : Nat) (s : State) : Host.Outcome State Fault Refusal :=
  if m = 0 then .refused .notAFrameForm else issue (readFrame a m) s

/-- `FRAME_WRITE` run alone (R82, R92; log 5): only the form of R82, at least one payload byte. -/
def execFrameWrite (a : Addr7) (payload : List Byte) (s : State) : Host.Outcome State Fault Refusal :=
  if payload.length = 0 then .refused .notAFrameForm
  else issue (do
    writeFrame a payload
    return []) s

end Sys2Proof.Machine
end

