-- ==== Sys2Proof/Machine/Access.lean ====
section
/-! DEFINITION. The bank selector and main-device register access (41_register_access.md R120 to R131). -/

namespace Sys2Proof.Machine

/-- `SelectBank(b)` (R121): the bank-select frame (R85). The framer records nothing about the bank (R26). -/
def selectBank (b : Bank) : Op Unit := do
  let p ← parameters
  writeFrame p.bankSelReg [p.bankVal.get b]

/-- `ReadU8(b, a)` (R123): bank-select frame, read frame of one byte; "return rx[0]". -/
def readU8 (r : RegAddr) : Op Byte := do
  selectBank r.bank
  let rx ← readFrame r.reg 1
  return byteAt rx 0

/-- `WriteU8(b, a, v)` (R125). -/
def writeU8 (r : RegAddr) (v : Byte) : Op Unit := do
  selectBank r.bank
  writeFrame r.reg [v]

/-- `ReadBytes(b, a, n)` (R127): all bytes from one frame. -/
def readBytes (r : RegAddr) (n : Nat) : Op (List Byte) := do
  selectBank r.bank
  readFrame r.reg n

/-- `WriteBytes(b, a, d)` (R129): all bytes in one frame. -/
def writeBytes (r : RegAddr) (data : List Byte) : Op Unit := do
  selectBank r.bank
  writeFrame r.reg data

/-- `SELECT_BANK bank` (R121). -/
def execSelectBank (bank : Byte) (s : State) : Host.Outcome State Fault Refusal :=
  issue (do
    let b ← bankOperand bank
    selectBank b
    return []) s

/-- `READ_U8 bank, reg -> byte` (R123). -/
def execReadU8 (bank reg : Byte) (s : State) : Host.Outcome State Fault Refusal :=
  issue (do
    let b ← bankOperand bank
    let a ← addrOperand reg
    let v ← readU8 ⟨b, a⟩
    return [v]) s

/-- `WRITE_U8 bank, reg, value` (R125). -/
def execWriteU8 (bank reg value : Byte) (s : State) : Host.Outcome State Fault Refusal :=
  issue (do
    let b ← bankOperand bank
    let a ← addrOperand reg
    writeU8 ⟨b, a⟩ value
    return []) s

/-- `READ_BYTES bank, reg, len -> bytes` (R127). -/
def execReadBytes (bank reg len : Byte) (s : State) : Host.Outcome State Fault Refusal :=
  issue (do
    let b ← bankOperand bank
    let a ← addrOperand reg
    burstOperand a len.toNat
    readBytes ⟨b, a⟩ len.toNat) s

/-- `WRITE_BYTES bank, reg, data` (R129). -/
def execWriteBytes (bank reg : Byte) (data : List Byte) (s : State) : Host.Outcome State Fault Refusal :=
  issue (do
    let b ← bankOperand bank
    let a ← addrOperand reg
    burstOperand a data.length
    writeBytes ⟨b, a⟩ data
    return []) s

end Sys2Proof.Machine
end

