-- ==== Sys2Proof/Machine/Bridge.lean ====
section
/-! DEFINITION. Bridge-relayed access to the magnetometer (42_bridge_access.md R140 to R150). -/

namespace Sys2Proof.Machine

/-- `BridgeRead(f, r, n)` (R141): steps 1 to 6, the two waits where the document puts them (R142). -/
def bridgeReadBytes (f : Addr7) (r : Byte) (n : Nat) : Op (List Byte) := do
  let p ← parameters
  writeU8 ⟨3, p.brAddrReg⟩ (followerReadByte p f)
  writeU8 ⟨3, p.brRegReg⟩ r
  delay p.tBr1
  writeU8 ⟨3, p.brCtrlReg⟩ (controlByte p n)
  delay p.tBr2
  readBytes ⟨0, p.relayReg⟩ n

/-- `BridgeWrite(f, r, v)` (R145): one byte, no read-back; returns after the second wait (R146). -/
def bridgeWriteByte (f : Addr7) (r v : Byte) : Op Unit := do
  let p ← parameters
  writeU8 ⟨3, p.brAddrReg⟩ (followerWriteByte f)
  writeU8 ⟨3, p.brRegReg⟩ r
  writeU8 ⟨3, p.brDoReg⟩ v
  delay p.tBr1
  writeU8 ⟨3, p.brCtrlReg⟩ (controlByte p 1)
  delay p.tBr2

/-- `BRIDGE_READ f, r, len -> bytes` (R141); the window must end by address 127 (R100 check 3). -/
def execBridgeRead (f r len : Byte) (s : State) : Host.Outcome State Fault Refusal :=
  issue (do
    let f' ← addrOperand f
    let p ← parameters
    burstOperand p.relayReg len.toNat
    bridgeReadBytes f' r len.toNat) s

/-- `BRIDGE_WRITE f, r, value` (R145). -/
def execBridgeWrite (f r value : Byte) (s : State) : Host.Outcome State Fault Refusal :=
  issue (do
    let f' ← addrOperand f
    bridgeWriteByte f' r value
    return []) s

end Sys2Proof.Machine
end

