-- ==== Sys2Proof/Machine/Float32.lean ====
section
/-! DEFINITION. `f32(q)`: the binary32 pattern nearest an exact rational, ties to even, rounded once (00_scope.md R11,
45_scaled_read.md R200). -/

namespace Sys2Proof.Machine

/-- `n / d` rounded to the nearest natural, ties to even (R200 point 6). -/
def roundHalfEven (n d : Nat) : Nat :=
  if 2 * (n % d) < d then n / d
  else if d < 2 * (n % d) then n / d + 1
  else if (n / d) % 2 = 0 then n / d
  else n / d + 1

/-- `n * 2^k / d` rounded to the nearest natural, ties to even. -/
def roundScaled (n d : Nat) (k : Int) : Nat :=
  if 0 ≤ k then roundHalfEven (n * 2 ^ k.toNat) d else roundHalfEven n (d * 2 ^ (-k).toNat)

/-- Whether `2^l <= n / d`. -/
def geTwoPow (n d : Nat) (l : Int) : Bool :=
  if 0 ≤ l then decide (d * 2 ^ l.toNat ≤ n) else decide (d ≤ n * 2 ^ (-l).toNat)

/-- The exponent of `n / d`: the greatest `e` with `2^e <= n / d`, for positive `n` and `d`. -/
def binaryExponent (n d : Nat) : Int :=
  let l : Int := (Nat.log2 n : Int) - (Nat.log2 d : Int)
  if geTwoPow n d l then l else l - 1

/-- The pattern of the largest finite binary32 number. -/
def f32LargestFinite : Nat := 0x7F7FFFFF

/-- The pattern of `n / d` without its sign, unbounded: the significand has 24 bits, fewer below the least normal exponent
-126. A carry out of the significand goes into the exponent. -/
def f32Magnitude (n d : Nat) : Nat :=
  if n = 0 ∨ d = 0 then 0
  else
    let e := max (binaryExponent n d) (-126)
    (e + 126).toNat * 2 ^ 23 + roundScaled n d (23 - e)

/-- `f32(n / d)`, `d` positive: the binary32 number nearest `n / d` (R11), always finite (R200 point 3), so that past the
largest finite number the nearest number is that one, with the sign of `n` (log 10). A zero result is `+0.0`: "negative
zero never occurs" (R200 point 4). -/
def f32 (n : Int) (d : Nat) : BitVec 32 :=
  let magnitude := min (f32Magnitude n.natAbs d) f32LargestFinite
  BitVec.ofNat 32 ((if n < 0 ∧ magnitude ≠ 0 then 2 ^ 31 else 0) + magnitude)

end Sys2Proof.Machine
end

