-- ==== Sys2Proof/Machine/Scaled.lean ====
section
/-! DEFINITION. Range selection, raw reads, scaled reads and the magnetometer gate (45_scaled_read.md R190 to R209). -/

namespace Sys2Proof.Machine

/-! ### Range selection -/

/-- `SelectGyroRange(r)` (R192): the divisor is stored after the write has completed. -/
def selectGyroRange (r : RangeIx) : Op Unit := do
  let p ← parameters
  let t ← readU8 p.gyroCfg
  writeU8 p.gyroCfg (mergeBits t (~~~p.gyroFsMask) (p.gyroFsBits.get r))
  modify fun s => s.setSfGyro (p.gyroSf.get r)

/-- `SelectAccelRange(r)` (R194). -/
def selectAccelRange (r : RangeIx) : Op Unit := do
  let p ← parameters
  let t ← readU8 p.accelCfg
  writeU8 p.accelCfg (mergeBits t (~~~p.accelFsMask) (p.accelFsBits.get r))
  modify fun s => s.setSfAccel (p.accelSf.get r)

/-- `SELECT_GYRO_RANGE range` (R192). -/
def execSelectGyroRange (range : Byte) (s : State) : Host.Outcome State Fault Refusal :=
  issue (do
    let r ← rangeOperand range
    selectGyroRange r
    return []) s

/-- `SELECT_ACCEL_RANGE range` (R194). -/
def execSelectAccelRange (range : Byte) (s : State) : Host.Outcome State Fault Refusal :=
  issue (do
    let r ← rangeOperand range
    selectAccelRange r
    return []) s

/-! ### Raw reads -/

/-- `ReadGyroRaw()` (R196). -/
def readGyroRaw : Op (Axis3 Int) := do
  let p ← parameters
  let d ← readBytes p.gyroOut 6
  return axisBig d

/-- `ReadAccelRaw()` (R198). -/
def readAccelRaw : Op (Axis3 Int) := do
  let p ← parameters
  let d ← readBytes p.accelOut 6
  return axisBig d

/-- `READ_GYRO_RAW -> Axis3<i16>` (R196). -/
def execReadGyroRaw (s : State) : Host.Outcome State Fault Refusal :=
  issue (do
    let t ← readGyroRaw
    return rawPayload t) s

/-- `READ_ACCEL_RAW -> Axis3<i16>` (R198). -/
def execReadAccelRaw (s : State) : Host.Outcome State Fault Refusal :=
  issue (do
    let t ← readAccelRaw
    return rawPayload t) s

/-! ### Scaling -/

/-- `f32(v / SF)` of the exact quotient (R11, R200). -/
def scaleBy (sf : Ratio) (v : Int) : BitVec 32 := f32 (v * sf.den) sf.num

/-- `f32((z + SF) / SF)`, the z-axis artifact (R204): with `SF = n / d`, `(z * d + n) / n`. -/
def scaleWithArtifact (sf : Ratio) (z : Int) : BitVec 32 := f32 (z * sf.den + sf.num) sf.num

/-- `f32(v * MAG_SCALE)` (R206, R208). -/
def scaleMag (scale : Ratio) (v : Int) : BitVec 32 := f32 (v * scale.num) scale.den

/-- The scaled gyroscope triplet (R201, R205). -/
def scaleGyro (sf : Ratio) (t : Axis3 Int) : Axis3 (BitVec 32) := t.map (scaleBy sf)

/-- The scaled accelerometer triplet; the artifact on z alone, when the parameter asks for it (R203, R204). -/
def scaleAccel (artifact : Bool) (sf : Ratio) (t : Axis3 Int) : Axis3 (BitVec 32) :=
  { x := scaleBy sf t.x
    y := scaleBy sf t.y
    z := if artifact then scaleWithArtifact sf t.z else scaleBy sf t.z }

/-- `x[SF_GYRO]`, or `ScaleFactorUnset(gyroscope)` (R201, I1). -/
def gyroFactor : Op Ratio := do
  let s ← get
  match s.sfGyro with
  | some sf => pure sf
  | none => raise (.scaleFactorUnset .gyroscope)

/-- `x[SF_ACCEL]`, or `ScaleFactorUnset(accelerometer)` (R203, I1). -/
def accelFactor : Op Ratio := do
  let s ← get
  match s.sfAccel with
  | some sf => pure sf
  | none => raise (.scaleFactorUnset .accelerometer)

/-- `ReadGyroScaled()` (R201): the test of the factor comes before any bus event. -/
def readGyroScaled : Op (Axis3 (BitVec 32)) := do
  let sf ← gyroFactor
  let t ← readGyroRaw
  return scaleGyro sf t

/-- `ReadAccelScaled()` (R203). -/
def readAccelScaled : Op (Axis3 (BitVec 32)) := do
  let sf ← accelFactor
  let p ← parameters
  let t ← readAccelRaw
  return scaleAccel p.accelZArtifact sf t

/-- `ReadMagScaled()` (R206): ready gate, data, overflow gate, in this order (R207). -/
def readMagScaled : Op (Axis3 (BitVec 32)) := do
  let p ← parameters
  let s1 ← bridgeReadBytes p.magAddr p.magSt1Reg 1
  if dataReady p (byteAt s1 0) then do
    let m ← bridgeReadBytes p.magAddr p.magDataReg 6
    let s2 ← bridgeReadBytes p.magAddr p.magSt2Reg 1
    if overflowed p (byteAt s2 0) then raise (.notReadyOrOverflow .overflow)
    else return (axisLittle m).map (scaleMag p.magScale)
  else raise (.notReadyOrOverflow .notReady)

/-- `READ_GYRO_SCALED -> Axis3<f32>` (R201). -/
def execReadGyroScaled (s : State) : Host.Outcome State Fault Refusal :=
  issue (do
    let t ← readGyroScaled
    return scaledPayload t) s

/-- `READ_ACCEL_SCALED -> Axis3<f32>` (R203). -/
def execReadAccelScaled (s : State) : Host.Outcome State Fault Refusal :=
  issue (do
    let t ← readAccelScaled
    return scaledPayload t) s

/-- `READ_MAG_SCALED -> Axis3<f32>` or `NotReadyOrOverflow` (R206). -/
def execReadMagScaled (s : State) : Host.Outcome State Fault Refusal :=
  issue (do
    let t ← readMagScaled
    return scaledPayload t) s

end Sys2Proof.Machine
end

