-- ==== Sys2Proof/Machine/Calibration.lean ====
section
/-! DEFINITION. The calibration engine (44_calibration.md R175 to R185). -/

namespace Sys2Proof.Machine

/-- `Delay(CAL_SAMPLE_DELAY)` after a sample with `n` samples still to come: "if i < CAL_SAMPLES" (R176, R177). -/
def sampleGap (n : Nat) : Op Unit :=
  if n = 0 then pure ()
  else do
    let p ← parameters
    delay p.calSampleDelay

/-- `n` samples of a modality's axis registers, summed per lane onto `acc` (R176, R177, R181): each one 6-byte read,
assembled big-endian; `Delay(CAL_SAMPLE_DELAY)` between two samples and not after the last. -/
def sumSamples (source : RegAddr) : Nat → Axis3 Int → Op (Axis3 Int)
  | 0, acc => pure acc
  | n + 1, acc => do
    let d ← readBytes source 6
    sampleGap n
    sumSamples source n (acc.add (axisBig d))

/-- "average (integer truncation)": `tdiv(s_a, CAL_SAMPLES)` (R177, R181). -/
def sampleAverage (p : Params) (sum : Int) : Int := tdiv sum p.calSamples

/-- `tdiv(-avg, GYRO_CAL_DIV)`: "negate", then "divide by 4" (R177). -/
def gyroOffset (p : Params) (sum : Int) : Int := tdiv (-(sampleAverage p sum)) p.gyroCalDiv

/-- The pair written for a gyroscope axis (R177, R55). -/
def gyroPair (p : Params) (sum : Int) : List Byte := bigEndianPair (u16 (gyroOffset p sum))

/-- `u16(old - tdiv(avg, ACCEL_CAL_DIV))`, mod 2^16 (R181, R182). -/
def accelOffset (p : Params) (existing : List Byte) (sum : Int) : BitVec 16 :=
  u16 (s16 (byteAt existing 0) (byteAt existing 1) - tdiv (sampleAverage p sum) p.accelCalDiv)

/-- The pair written for an accelerometer axis: the reserved bit 0 of the low byte is the one read (R89, R181, R183). -/
def accelPair (p : Params) (existing : List Byte) (sum : Int) : List Byte :=
  let new := accelOffset p existing sum
  [highByte new, (lowByte new &&& 0xFE#8) ||| (byteAt existing 1 &&& 0x01#8)]

/-- `CalGyro()` (R177): samples, then a blind write of each pair in the order x, y, z. -/
def calGyro : Op Unit := do
  let p ← parameters
  let sum ← sumSamples p.gyroOut p.calSamples ⟨0, 0, 0⟩
  writeBytes p.gyroOffs.x (gyroPair p sum.x)
  writeBytes p.gyroOffs.y (gyroPair p sum.y)
  writeBytes p.gyroOffs.z (gyroPair p sum.z)

/-- `CalAccel()` (R181): samples, then all three pairs read, then all three written, in the order x, y, z (R182 e). -/
def calAccel : Op Unit := do
  let p ← parameters
  let sum ← sumSamples p.accelOut p.calSamples ⟨0, 0, 0⟩
  let ex ← readBytes p.accelOffs.x 2
  let ey ← readBytes p.accelOffs.y 2
  let ez ← readBytes p.accelOffs.z 2
  writeBytes p.accelOffs.x (accelPair p ex sum.x)
  writeBytes p.accelOffs.y (accelPair p ey sum.y)
  writeBytes p.accelOffs.z (accelPair p ez sum.z)

/-- `CAL_GYRO` (R177). -/
def execCalGyro (s : State) : Host.Outcome State Fault Refusal :=
  issue (do
    calGyro
    return []) s

/-- `CAL_ACCEL` (R181). -/
def execCalAccel (s : State) : Host.Outcome State Fault Refusal :=
  issue (do
    calAccel
    return []) s

end Sys2Proof.Machine
end

