-- ==== Sys2Proof/Machine/Init.lean ====
section
/-! DEFINITION. The initialization sequencer (43_initialization.md R155 to R168). -/

namespace Sys2Proof.Machine

/-- One micro-operation of a step list (R156). -/
def runMicroOp : MicroOp → Op Unit
  | .w addr v => writeU8 addr v
  | .rmw addr keep set => do
    let t ← readU8 addr
    writeU8 addr (mergeBits t keep set)
  | .bw r v => do
    let p ← parameters
    bridgeWriteByte p.magAddr r v
  | .d ms => delay ms

/-- A step's list, left to right (R156). -/
def runSteps : List MicroOp → Op Unit
  | [] => pure ()
  | op :: ops => do
    runMicroOp op
    runSteps ops

/-- The identity check of the main device with `n` attempts left (R158): at most `ID_RETRY_MAX` reads; `DeviceNotFound`
when the last one mismatches. -/
def identityMain : Nat → Op Unit
  | 0 => raise (.deviceNotFound .main)
  | n + 1 => do
    let p ← parameters
    let v ← readU8 p.mainId.addr
    if v = p.mainId.value then pure ()
    else if n = 0 then raise (.deviceNotFound .main)
    else do
      delay p.tIdRetry
      identityMain n

/-- The identity check of the magnetometer with `n` attempts left, through the bridge (R159). -/
def identityMag : Nat → Op Unit
  | 0 => raise (.deviceNotFound .magnetometer)
  | n + 1 => do
    let p ← parameters
    let rx ← bridgeReadBytes p.magAddr p.magId.reg 1
    if byteAt rx 0 = p.magId.value then pure ()
    else if n = 0 then raise (.deviceNotFound .magnetometer)
    else do
      delay p.tIdRetry
      identityMag n

/-- `InitMain()` (R160). -/
def initMain : Op Unit := do
  let p ← parameters
  identityMain p.idRetryMax
  runSteps p.initMainSteps.reset
  runSteps p.initMainSteps.wake
  runSteps p.initMainSteps.clock
  runSteps p.initMainSteps.odrAlign
  runSteps p.initMainSteps.busMode
  runSteps p.initMainSteps.lpf
  runSteps p.initMainSteps.smplrt
  calGyro
  calAccel
  selectGyroRange p.initGyroRange
  selectAccelRange p.initAccelRange

/-- `InitBridgeDevice()` (R165). -/
def initBridgeDevice : Op Unit := do
  let p ← parameters
  runSteps p.initMagSteps.brReset
  runSteps p.initMagSteps.brEnable
  runSteps p.initMagSteps.brClock
  identityMag p.idRetryMax
  runSteps p.initMagSteps.brOdr
  runSteps p.initMagSteps.magSoftReset
  runSteps p.initMagSteps.magMode

/-- `INIT_MAIN` (R160). -/
def execInitMain (s : State) : Host.Outcome State Fault Refusal :=
  issue (do
    initMain
    return []) s

/-- `INIT_BRIDGE_DEVICE` (R165). -/
def execInitBridgeDevice (s : State) : Host.Outcome State Fault Refusal :=
  issue (do
    initBridgeDevice
    return []) s

end Sys2Proof.Machine
end

