-- ==== Sys2Proof/Machine/Snapshot.lean ====
section
/-! DEFINITION. The aggregate snapshot (46_snapshot.md R215 to R221). -/

namespace Sys2Proof.Machine

/-- A failure of the magnetometer gate becomes `SensorError` with the same cause; every other error passes unwrapped
(R216, R219, R235). -/
def rewrapGateError : Error → Error
  | .notReadyOrOverflow c => .sensorError c
  | .sensorError c => .sensorError c
  | .deviceNotFound d => .deviceNotFound d
  | .busError => .busError
  | .illegalCommand => .illegalCommand
  | .scaleFactorUnset m => .scaleFactorUnset m

/-- The magnetometer read of the snapshot (R216). -/
def readMagInSnapshot : Op (Axis3 (BitVec 32)) :=
  tryCatch readMagScaled fun e => raise (rewrapGateError e)

/-- `ReadSnapshot()` (R216): both factors tested before any bus event; then gyroscope, accelerometer, magnetometer
(R217). The payload is the three triplets in that order (R98). -/
def readSnapshot : Op (List Byte) := do
  let _ ← gyroFactor
  let _ ← accelFactor
  let g ← readGyroScaled
  let a ← readAccelScaled
  let m ← readMagInSnapshot
  return scaledPayload g ++ scaledPayload a ++ scaledPayload m

/-- `READ_SNAPSHOT -> Snapshot` or `SensorError` (R216). -/
def execReadSnapshot (s : State) : Host.Outcome State Fault Refusal := issue readSnapshot s

end Sys2Proof.Machine
end

