-- ==== Sys2Proof/Machine/Dispatch.lean ====
section
/-! DEFINITION. What each operation does: one arm per constructor of `Instr`, one direct call of its meaning. -/

namespace Sys2Proof.Machine

def exec (i : Instr) (s : State) : Host.Outcome State Fault Refusal :=
  match i with
  | .xfer tx m => Sys2Proof.Machine.execXfer tx m s
  | .selectBank bank => Sys2Proof.Machine.execSelectBank bank s
  | .readU8 bank reg => Sys2Proof.Machine.execReadU8 bank reg s
  | .writeU8 bank reg value => Sys2Proof.Machine.execWriteU8 bank reg value s
  | .readBytes bank reg len => Sys2Proof.Machine.execReadBytes bank reg len s
  | .writeBytes bank reg data => Sys2Proof.Machine.execWriteBytes bank reg data s
  | .bridgeRead f r len => Sys2Proof.Machine.execBridgeRead f r len s
  | .bridgeWrite f r value => Sys2Proof.Machine.execBridgeWrite f r value s
  | .initMain => Sys2Proof.Machine.execInitMain s
  | .initBridgeDevice => Sys2Proof.Machine.execInitBridgeDevice s
  | .calGyro => Sys2Proof.Machine.execCalGyro s
  | .calAccel => Sys2Proof.Machine.execCalAccel s
  | .selectGyroRange range => Sys2Proof.Machine.execSelectGyroRange range s
  | .selectAccelRange range => Sys2Proof.Machine.execSelectAccelRange range s
  | .readGyroRaw => Sys2Proof.Machine.execReadGyroRaw s
  | .readAccelRaw => Sys2Proof.Machine.execReadAccelRaw s
  | .readGyroScaled => Sys2Proof.Machine.execReadGyroScaled s
  | .readAccelScaled => Sys2Proof.Machine.execReadAccelScaled s
  | .readMagScaled => Sys2Proof.Machine.execReadMagScaled s
  | .readSnapshot => Sys2Proof.Machine.execReadSnapshot s
  | .frameRead addr m => Sys2Proof.Machine.execFrameRead addr m s
  | .frameWrite addr payload => Sys2Proof.Machine.execFrameWrite addr payload s

end Sys2Proof.Machine
end

