-- ==== Sys2Proof/Machine/Port.lean ====
section
/-! DEFINITION. The command port: what stands in front of the framer, and how an instruction is placed there
(30_encoding.md R93 to R95, R99; log 5, log 6). -/

namespace Sys2Proof.Machine

/-- What the framer finds to do next. -/
inductive Pending where
  /-- An instruction, and the state with its bytes consumed. -/
  | run (i : Instr) (s : State)
  /-- An unknown opcode byte, and the state with that one byte consumed (R95, R99). -/
  | illegal (s : State)
  /-- A bus request that is neither frame form (R82, R101). -/
  | notAFrame
  /-- No whole packet: "the framer waits in `SEQ = IDLE`" (R36, R93). -/
  | waiting
deriving DecidableEq, Repr

/-- A bus request is run before the command port is read (log 5). -/
def fetch (s : State) : Pending :=
  match s.busReq with
  | some q =>
    match decode (.frame q.tx q.m) with
    | some i => .run i (s.setBusReq none)
    | none => .notAFrame
  | none =>
    match decodePacket s.portIn with
    | .instr i rest => .run i (s.setPortIn rest)
    | .illegalOpcode _ rest => .illegal (s.setPortIn rest)
    | .incomplete => .waiting

/-- An unknown opcode: "emits no bus event, changes no state, and responds `IllegalCommand`" (R99). -/
def illegalPacket (s : State) : Host.Outcome State Fault Refusal := issue (raise .illegalCommand) s

/-- The packet of a table word, without the zeros after it (R95). -/
def tableWordPacket (nbits w : Nat) : List Byte :=
  (tablePacket nbits w).take (packetLength (tablePacket nbits w))

/-- The state with the instruction of a table word next to run: its packet put in front of the bytes waiting at the
command port, or, where the word's first byte is no host opcode, its frame as the bus request (log 12). -/
def placeTableWord (s : State) (nbits w : Nat) : State :=
  match decodePacket (tablePacket nbits w) with
  | .illegalOpcode _ _ => s.setBusReq (some { tx := (tableFrame nbits w).1, m := (tableFrame nbits w).2 })
  | .instr _ _ => (s.setBusReq none).setPortIn (tableWordPacket nbits w ++ s.portIn)
  | .incomplete => (s.setBusReq none).setPortIn (tableWordPacket nbits w ++ s.portIn)

end Sys2Proof.Machine
end

