-- ==== Sys2Proof/Machine/Step.lean ====
section
/-! DEFINITION. One step of the machine: the framer takes what is pending at its ports and runs it to its response. -/

namespace Sys2Proof.Machine

/-- One step (R24, R93): the pending instruction runs; an unknown opcode is answered; with nothing whole pending the
framer waits and nothing changes. -/
def step (s : State) : Host.Outcome State Fault Refusal :=
  match fetch s with
  | .run i s' => exec i s'
  | .illegal s' => illegalPacket s'
  | .notAFrame => .refused .notAFrameForm
  | .waiting => .next s

/-- The state with the instruction of a table word next to run. -/
def State.withFetchWord (s : State) (nbits w : Nat) : State := placeTableWord s nbits w

end Sys2Proof.Machine
end

