-- ==== Sys2Proof/WellFormed.lean ====
section
/-! DEFINITION. Which operations are well-formed: the operand ranges of 30_encoding.md R96 and the checks of R100 for a
host operation, the shape of R82 for a bus frame form. -/

namespace Sys2Proof

/-- `bank` and `range`: bits 7:2 are zero (R96, R100 check 1). -/
def legalIndex (b : Byte) : Bool := b.toNat < 4

/-- `reg` and `f`: bit 7 is zero (R96, R100 check 1). -/
def legalAddr (b : Byte) : Bool := b.toNat < 128

/-- `len` in 1..MAX_BURST and `start + len <= 128` (R57, R100 checks 2 and 3). -/
def legalBurst (p : Params) (start len : Nat) : Bool :=
  decide (1 ≤ len) && decide (len ≤ p.maxBurst) && decide (start + len ≤ 128)

/-- The well-formed operations of a framer with parameters `p`. -/
def Instr.wellFormed (p : Params) : Instr → Bool
  | .xfer tx _ => decide (1 ≤ tx.length) && decide (tx.length ≤ 255)
  | .selectBank bank => legalIndex bank
  | .readU8 bank reg => legalIndex bank && legalAddr reg
  | .writeU8 bank reg _ => legalIndex bank && legalAddr reg
  | .readBytes bank reg len => legalIndex bank && legalAddr reg && legalBurst p reg.toNat len.toNat
  | .writeBytes bank reg data => legalIndex bank && legalAddr reg && legalBurst p reg.toNat data.length
  | .bridgeRead f _ len => legalAddr f && legalBurst p p.relayReg.toNat len.toNat
  | .bridgeWrite f _ _ => legalAddr f
  | .initMain => true
  | .initBridgeDevice => true
  | .calGyro => true
  | .calAccel => true
  | .selectGyroRange range => legalIndex range
  | .selectAccelRange range => legalIndex range
  | .readGyroRaw => true
  | .readAccelRaw => true
  | .readGyroScaled => true
  | .readAccelScaled => true
  | .readMagScaled => true
  | .readSnapshot => true
  | .frameRead _ m => decide (1 ≤ m)
  | .frameWrite _ payload => decide (1 ≤ payload.length)

/-- The two bus frame forms, which no host packet encodes (R82). -/
def Instr.isFrameForm : Instr → Bool
  | .frameRead _ _ => true
  | .frameWrite _ _ => true
  | .xfer _ _ => false
  | .selectBank _ => false
  | .readU8 _ _ => false
  | .writeU8 _ _ _ => false
  | .readBytes _ _ _ => false
  | .writeBytes _ _ _ => false
  | .bridgeRead _ _ _ => false
  | .bridgeWrite _ _ _ => false
  | .initMain => false
  | .initBridgeDevice => false
  | .calGyro => false
  | .calAccel => false
  | .selectGyroRange _ => false
  | .selectAccelRange _ => false
  | .readGyroRaw => false
  | .readAccelRaw => false
  | .readGyroScaled => false
  | .readAccelScaled => false
  | .readMagScaled => false
  | .readSnapshot => false

end Sys2Proof
end

