-- ==== Sys2Proof/Safety.lean ====
section
/-! DEFINITION. The terms claims are made in: what the framer does at its pins when nothing fails, written as event
lists; what an environment lets happen; the discipline of the trace; the invariant of the machine. -/

namespace Sys2Proof.Machine

/-! ### Legal operand bytes (R96) -/

/-- The operand byte of a bank or a range: bits 1:0 the index, bits 7:2 zero. -/
def indexByte (b : Fin 4) : Byte := BitVec.ofNat 8 b.val

/-- The operand byte of a register or a follower address: bits 6:0 the address, bit 7 zero. -/
def addrByte (a : Addr7) : Byte := a.setWidth 8

/-! ### When an operation may be issued -/

/-- The host may issue an operation, on a well-formed instance (R24, I19). -/
abbrev State.ready (s : State) : Prop := s.seq = .idle ∧ s.params.wf = true

/-! ### What an environment lets happen -/

/-- The environment after the events `es`, if it answers every `TX` of them with success and every `RX` of them with
success and that byte; `none` if it does not. -/
def Env.run (p : Params) : Env → List Event → Option Env
  | e, [] => some e
  | e, .csLow :: es => Env.run p (e.observe p .csLow) es
  | e, .csHigh :: es => Env.run p (e.observe p .csHigh) es
  | e, .delay d :: es => Env.run p (e.observe p (.delay d)) es
  | e, .tx b :: es =>
    if e.next.1.report = .done then Env.run p (e.next.2.observe p (.tx b)) es else none
  | e, .rx r :: es =>
    if e.next.1.report = .done ∧ e.next.2.received p e.next.1.byte = r then
      Env.run p (e.next.2.observe p (.rx r)) es
    else none

/-- `CS` after the events (R25). -/
def csAfter (c : Level) : List Event → Level
  | [] => c
  | .csLow :: es => csAfter .low es
  | .csHigh :: es => csAfter .high es
  | .tx _ :: es => csAfter c es
  | .rx _ :: es => csAfter c es
  | .delay _ :: es => csAfter c es

/-- The state after the events `es`, with the environment as it then is: nothing but `TR`, `CS` and the environment has
changed. -/
def State.advance (s : State) (es : List Event) (e : Env) : State :=
  { s with tr := s.tr ++ es, cs := csAfter s.cs es, env := e }

/-! ### What the framer does at its pins when nothing fails -/

/-- A frame (R80). -/
def frameEvents (tx rx : List Byte) : List Event :=
  [.csLow] ++ tx.map .tx ++ rx.map .rx ++ [.csHigh]

/-- The two bytes of the bank-select frame (R85). -/
def selectBytes (p : Params) (b : Bank) : List Byte := [p.bankSelReg.setWidth 8, p.bankVal.get b]

/-- The bank-select frame (R85, R121). -/
def selectEvents (p : Params) (b : Bank) : List Event := frameEvents (selectBytes p b) []

/-- A main-device read answered by the bytes `rx`: bank select, then the read frame (R123, R127). -/
def readEvents (p : Params) (r : RegAddr) (rx : List Byte) : List Event :=
  selectEvents p r.bank ++ frameEvents [0x80#8 ||| r.reg.setWidth 8] rx

/-- A main-device write: bank select, then the write frame (R125, R129). -/
def writeEvents (p : Params) (r : RegAddr) (data : List Byte) : List Event :=
  selectEvents p r.bank ++ frameEvents (r.reg.setWidth 8 :: data) []

/-- `Delay(d)` (R13). -/
def delayEvents (d : Nat) : List Event := if d = 0 then [] else [.delay d]

/-- A relayed read of follower register `r` answered by the bytes `rx` (R141). -/
def bridgeReadEvents (p : Params) (f : Addr7) (r : Byte) (rx : List Byte) : List Event :=
  writeEvents p ⟨3, p.brAddrReg⟩ [p.brReadBit ||| f.setWidth 8] ++
  writeEvents p ⟨3, p.brRegReg⟩ [r] ++
  delayEvents p.tBr1 ++
  writeEvents p ⟨3, p.brCtrlReg⟩ [p.brEnableBit ||| BitVec.ofNat 8 rx.length] ++
  delayEvents p.tBr2 ++
  readEvents p ⟨0, p.relayReg⟩ rx

/-- A relayed write of `v` to follower register `r` (R145). -/
def bridgeWriteEvents (p : Params) (f : Addr7) (r v : Byte) : List Event :=
  writeEvents p ⟨3, p.brAddrReg⟩ [f.setWidth 8] ++
  writeEvents p ⟨3, p.brRegReg⟩ [r] ++
  writeEvents p ⟨3, p.brDoReg⟩ [v] ++
  delayEvents p.tBr1 ++
  writeEvents p ⟨3, p.brCtrlReg⟩ [p.brEnableBit ||| 0x01#8] ++
  delayEvents p.tBr2

/-- A full-scale selection that finds `t` in the configuration register (R192, R194). -/
def selectRangeEvents (p : Params) (cfg : RegAddr) (mask bits t : Byte) : List Event :=
  readEvents p cfg [t] ++ writeEvents p cfg [(t &&& ~~~mask) ||| bits]

/-- The samples of a calibration: one read each, with the sample delay between two of them (R176). -/
def sampleEvents (p : Params) (source : RegAddr) : List (List Byte) → List Event
  | [] => []
  | [d] => readEvents p source d
  | d :: d' :: ds => readEvents p source d ++ delayEvents p.calSampleDelay ++ sampleEvents p source (d' :: ds)

/-- The lane-wise sum of big-endian samples (R53, R177). -/
def sampleSum : List (List Byte) → Axis3 Int
  | [] => ⟨0, 0, 0⟩
  | d :: ds => (axisBig d).add (sampleSum ds)

/-- `CAL_GYRO` on the samples `ds` (R177). -/
def calGyroEvents (p : Params) (ds : List (List Byte)) : List Event :=
  sampleEvents p p.gyroOut ds ++
  writeEvents p p.gyroOffs.x (gyroPair p (sampleSum ds).x) ++
  writeEvents p p.gyroOffs.y (gyroPair p (sampleSum ds).y) ++
  writeEvents p p.gyroOffs.z (gyroPair p (sampleSum ds).z)

/-- `CAL_ACCEL` on the samples `ds` and the existing offset pairs `old` (R181). -/
def calAccelEvents (p : Params) (ds : List (List Byte)) (old : Axis3 (List Byte)) : List Event :=
  sampleEvents p p.accelOut ds ++
  readEvents p p.accelOffs.x old.x ++
  readEvents p p.accelOffs.y old.y ++
  readEvents p p.accelOffs.z old.z ++
  writeEvents p p.accelOffs.x (accelPair p old.x (sampleSum ds).x) ++
  writeEvents p p.accelOffs.y (accelPair p old.y (sampleSum ds).y) ++
  writeEvents p p.accelOffs.z (accelPair p old.z (sampleSum ds).z)

/-- The number of bytes a step list reads: one for each `RMW` (R156). -/
def readsOf : List MicroOp → Nat
  | [] => 0
  | .w _ _ :: ops => readsOf ops
  | .rmw _ _ _ :: ops => readsOf ops + 1
  | .bw _ _ :: ops => readsOf ops
  | .d _ :: ops => readsOf ops

/-- A step list whose `RMW`s read the bytes `rs`, in order (R156). -/
def stepEvents (p : Params) : List MicroOp → List Byte → List Event
  | [], _ => []
  | .w addr v :: ops, rs => writeEvents p addr [v] ++ stepEvents p ops rs
  | .rmw addr keep set :: ops, r :: rs =>
    readEvents p addr [r] ++ writeEvents p addr [(r &&& keep) ||| set] ++ stepEvents p ops rs
  | .rmw _ _ _ :: _, [] => []
  | .bw r v :: ops, rs => bridgeWriteEvents p p.magAddr r v ++ stepEvents p ops rs
  | .d ms :: ops, rs => delayEvents ms ++ stepEvents p ops rs

/-- The main device's identity reads that mismatch, each followed by the retry delay (R158). -/
def mainMismatchEvents (p : Params) : List Byte → List Event
  | [] => []
  | v :: vs => readEvents p p.mainId.addr [v] ++ delayEvents p.tIdRetry ++ mainMismatchEvents p vs

/-- The magnetometer's identity reads that mismatch, each followed by the retry delay (R159). -/
def magMismatchEvents (p : Params) : List Byte → List Event
  | [] => []
  | v :: vs =>
    bridgeReadEvents p p.magAddr p.magId.reg [v] ++ delayEvents p.tIdRetry ++ magMismatchEvents p vs

/-- The steps of `INIT_BRIDGE_DEVICE` before its identity check (R165). -/
def stepsBeforeIdentity (m : MagSteps) : List MicroOp := m.brReset ++ m.brEnable ++ m.brClock

/-- The steps of `INIT_BRIDGE_DEVICE` after its identity check (R165). -/
def stepsAfterIdentity (m : MagSteps) : List MicroOp := m.brOdr ++ m.magSoftReset ++ m.magMode

/-- The three relayed reads of an open gate (R206, R207 b). -/
def magEvents (p : Params) (s1 : Byte) (m : List Byte) (s2 : Byte) : List Event :=
  bridgeReadEvents p p.magAddr p.magSt1Reg [s1] ++
  bridgeReadEvents p p.magAddr p.magDataReg m ++
  bridgeReadEvents p p.magAddr p.magSt2Reg [s2]

/-- The two main-device reads of a snapshot (R216, R217). -/
def snapshotMainEvents (p : Params) (g a : List Byte) : List Event :=
  readEvents p p.gyroOut g ++ readEvents p p.accelOut a

/-- `INIT_MAIN` up to and with its gyroscope range selection (R160): what comes before the accelerometer's. -/
def initMainEventsBeforeAccel (p : Params) (vs rs : List Byte) (gs as : List (List Byte)) (old : Axis3 (List Byte))
    (tg : Byte) : List Event :=
  mainMismatchEvents p vs ++ readEvents p p.mainId.addr [p.mainId.value] ++ stepEvents p p.initMainSteps.inOrder rs ++
  calGyroEvents p gs ++ calAccelEvents p as old ++
  selectRangeEvents p p.gyroCfg p.gyroFsMask (p.gyroFsBits.get p.initGyroRange) tg

/-- `INIT_MAIN` (R160): identity reads `vs` that mismatch and one that matches, the steps reading `rs`, both calibrations, both
range selections finding `tg` and `ta`. -/
def initMainEvents (p : Params) (vs rs : List Byte) (gs as : List (List Byte)) (old : Axis3 (List Byte)) (tg ta : Byte) :
    List Event :=
  initMainEventsBeforeAccel p vs rs gs as old tg ++
  selectRangeEvents p p.accelCfg p.accelFsMask (p.accelFsBits.get p.initAccelRange) ta

/-- `INIT_BRIDGE_DEVICE` (R165): the steps before the identity check reading `rs`, identity reads `vs` that mismatch and one
that matches, the steps after it reading `rs'`. -/
def initBridgeEvents (p : Params) (vs rs rs' : List Byte) : List Event :=
  stepEvents p (stepsBeforeIdentity p.initMagSteps) rs ++ magMismatchEvents p vs ++
  bridgeReadEvents p p.magAddr p.magId.reg [p.magId.value] ++ stepEvents p (stepsAfterIdentity p.initMagSteps) rs'

/-! ### What the framer does at its pins when the transport fails (R112) -/

/-- A frame begun: `sent` transmitted and `rx` received so far. -/
def openFrameEvents (sent rx : List Byte) : List Event := [.csLow] ++ sent.map .tx ++ rx.map .rx

/-- The end of a frame in which the step `ev` failed: "the failing step itself may or may not have left its event", then the
frame is closed. -/
def failureEvents (left : Bool) (ev : Event) : List Event := (if left then [ev] else []) ++ [.csHigh]

/-- The environment after it reported that failure. -/
def Env.afterFailure (p : Params) (e : Env) (left : Bool) (ev : Event) : Env :=
  (if left then e.next.2.observe p ev else e.next.2).observe p .csHigh

/-- The byte the environment answers to the next `RX`. -/
def Env.nextByte (p : Params) (e : Env) : Byte := e.next.2.received p e.next.1.byte

/-- The four register accesses of family 41: `i` selects bank `b`, then sends `tx` and receives `m` bytes in one frame
(R123, R125, R127, R129). -/
inductive IsAccess (p : Params) : Instr → Bank → List Byte → Nat → Prop where
  | readU8 (b : Bank) (a : Addr7) : IsAccess p (.readU8 (indexByte b) (addrByte a)) b [0x80#8 ||| addrByte a] 1
  | writeU8 (b : Bank) (a : Addr7) (v : Byte) :
    IsAccess p (.writeU8 (indexByte b) (addrByte a) v) b [addrByte a, v] 0
  | readBytes (b : Bank) (a : Addr7) (len : Byte) (h : legalBurst p a.toNat len.toNat = true) :
    IsAccess p (.readBytes (indexByte b) (addrByte a) len) b [0x80#8 ||| addrByte a] len.toNat
  | writeBytes (b : Bank) (a : Addr7) (data : List Byte) (h : legalBurst p a.toNat data.length = true) :
    IsAccess p (.writeBytes (indexByte b) (addrByte a) data) b (addrByte a :: data) 0

/-- The bus step that fails where `ev` would be the next event: a byte to send, or a byte to receive, which is then the
environment's; the other events are no steps of the transport (R112). -/
def Env.failedStep (p : Params) (e : Env) : Event → Option Event
  | .tx b => some (.tx b)
  | .rx _ => some (.rx (e.nextByte p))
  | .csLow => none
  | .csHigh => none
  | .delay _ => none

/-- The environment lets the first `n` of the events `es` happen, is then `e`, and reports a failure at the next one, a bus
step: `ev` is that step and `left` says whether it left its event (R112). -/
structure FailsAt (s : State) (es : List Event) (n : Nat) (e : Env) (left : Bool) (ev : Event) : Prop where
  run : s.env.run s.params (es.take n) = some e
  step : es[n]?.bind (e.failedStep s.params) = some ev
  report : e.next.1.report = .failed left

/-- The answers of a device to `INIT_MAIN` before its accelerometer range selection: fewer mismatches than attempts, a byte for
each read of the step lists, the samples and the existing pairs of the calibrations (R156, R158, R176, R181). -/
structure InitMainAnswers (p : Params) (vs rs : List Byte) (gs as : List (List Byte)) (old : Axis3 (List Byte)) :
    Prop where
  attempts : vs.length < p.idRetryMax
  mismatch : ∀ v ∈ vs, v ≠ p.mainId.value
  reads : rs.length = readsOf p.initMainSteps.inOrder
  gyroSamples : gs.length = p.calSamples
  gyroSix : ∀ d ∈ gs, d.length = 6
  accelSamples : as.length = p.calSamples
  accelSix : ∀ d ∈ as, d.length = 6
  pairs : ∀ d ∈ old.toList, d.length = 2

/-- `es` is what the instruction emits in the state when nothing fails, for some bytes received: `SELECT_BANK`, and the
composite operations of 42 to 46 that are made of register accesses (R235). `INIT_MAIN` is taken up to its accelerometer range
selection, before which it writes no factor. -/
inductive IsRun (s : State) : Instr → List Event → Prop where
  | selectBank (b : Bank) : IsRun s (.selectBank (indexByte b)) (selectEvents s.params b)
  | bridgeRead (f : Addr7) (r len : Byte) (rx : List Byte)
    (hl : legalBurst s.params s.params.relayReg.toNat len.toNat = true) (h : rx.length = len.toNat) :
    IsRun s (.bridgeRead (addrByte f) r len) (bridgeReadEvents s.params f r rx)
  | bridgeWrite (f : Addr7) (r v : Byte) :
    IsRun s (.bridgeWrite (addrByte f) r v) (bridgeWriteEvents s.params f r v)
  | initMain (vs rs : List Byte) (gs as : List (List Byte)) (old : Axis3 (List Byte)) (tg : Byte)
    (h : InitMainAnswers s.params vs rs gs as old) :
    IsRun s .initMain (initMainEventsBeforeAccel s.params vs rs gs as old tg)
  | initBridgeDevice (vs rs rs' : List Byte) (hn : vs.length < s.params.idRetryMax)
    (hv : ∀ v ∈ vs, v ≠ s.params.magId.value) (hr : rs.length = readsOf (stepsBeforeIdentity s.params.initMagSteps))
    (hr' : rs'.length = readsOf (stepsAfterIdentity s.params.initMagSteps)) :
    IsRun s .initBridgeDevice (initBridgeEvents s.params vs rs rs')
  | calGyro (ds : List (List Byte)) (h : ds.length = s.params.calSamples) (h6 : ∀ d ∈ ds, d.length = 6) :
    IsRun s .calGyro (calGyroEvents s.params ds)
  | calAccel (ds : List (List Byte)) (old : Axis3 (List Byte)) (h : ds.length = s.params.calSamples)
    (h6 : ∀ d ∈ ds, d.length = 6) (h2 : ∀ d ∈ old.toList, d.length = 2) :
    IsRun s .calAccel (calAccelEvents s.params ds old)
  | selectGyroRange (r : RangeIx) (v : Byte) :
    IsRun s (.selectGyroRange (indexByte r))
      (selectRangeEvents s.params s.params.gyroCfg s.params.gyroFsMask (s.params.gyroFsBits.get r) v)
  | selectAccelRange (r : RangeIx) (v : Byte) :
    IsRun s (.selectAccelRange (indexByte r))
      (selectRangeEvents s.params s.params.accelCfg s.params.accelFsMask (s.params.accelFsBits.get r) v)
  | readGyroRaw (d : List Byte) (h : d.length = 6) : IsRun s .readGyroRaw (readEvents s.params s.params.gyroOut d)
  | readAccelRaw (d : List Byte) (h : d.length = 6) : IsRun s .readAccelRaw (readEvents s.params s.params.accelOut d)
  | readGyroScaled (d : List Byte) (h : d.length = 6) (hf : s.sfGyro ≠ none) :
    IsRun s .readGyroScaled (readEvents s.params s.params.gyroOut d)
  | readAccelScaled (d : List Byte) (h : d.length = 6) (hf : s.sfAccel ≠ none) :
    IsRun s .readAccelScaled (readEvents s.params s.params.accelOut d)
  | readMagScaled (s1 : Byte) (m : List Byte) (s2 : Byte) (h : m.length = 6)
    (h1 : s1 &&& s.params.magDrdyMask ≠ 0x00#8) : IsRun s .readMagScaled (magEvents s.params s1 m s2)
  | readSnapshot (g a : List Byte) (s1 : Byte) (m : List Byte) (s2 : Byte) (hg : g.length = 6) (ha : a.length = 6)
    (h : m.length = 6) (hfg : s.sfGyro ≠ none) (hfa : s.sfAccel ≠ none) (h1 : s1 &&& s.params.magDrdyMask ≠ 0x00#8) :
    IsRun s .readSnapshot (snapshotMainEvents s.params g a ++ magEvents s.params s1 m s2)

/-! ### Reading a trace -/

/-- The frames of a trace: "A decoder of `TR` cuts frames at `CS_LOW` and `CS_HIGH`" (R83); the first argument is the frame under
way. -/
def cutFrames : Option FrameReq → List Event → List FrameReq
  | _, [] => []
  | _, .csLow :: es => cutFrames (some { tx := [], m := 0 }) es
  | some f, .tx b :: es => cutFrames (some { f with tx := f.tx ++ [b] }) es
  | some f, .rx _ :: es => cutFrames (some { f with m := f.m + 1 }) es
  | some f, .csHigh :: es => f :: cutFrames none es
  | none, .csHigh :: es => cutFrames none es
  | none, .tx _ :: es => cutFrames none es
  | none, .rx _ :: es => cutFrames none es
  | f, .delay _ :: es => cutFrames f es

/-- The frames of a trace that begins with no frame open. -/
def framesOf (es : List Event) : List FrameReq := cutFrames none es

/-- The delays of a trace. -/
def delaysOf (es : List Event) : List Nat :=
  es.filterMap fun ev => match ev with
    | .delay d => some d
    | .csLow => none
    | .csHigh => none
    | .tx _ => none
    | .rx _ => none

/-- Where a trace stands with respect to frames. -/
inductive Phase where
  /-- No frame is open. -/
  | closed
  /-- A frame is open and nothing has been received. -/
  | sending
  /-- A frame is open and bytes have been received. -/
  | receiving
deriving DecidableEq, Repr

/-- The discipline of one event: a frame is transmitted bytes, then received bytes (R80); it is closed before the next
`CS_LOW` and before any `DELAY` (R113, R116); `DELAY(0)` never occurs (R13). -/
def Phase.next : Phase → Event → Option Phase
  | .closed, .csLow => some .sending
  | .closed, .delay d => if d = 0 then none else some .closed
  | .closed, .tx _ => none
  | .closed, .rx _ => none
  | .closed, .csHigh => none
  | .sending, .tx _ => some .sending
  | .sending, .rx _ => some .receiving
  | .sending, .csHigh => some .closed
  | .sending, .csLow => none
  | .sending, .delay _ => none
  | .receiving, .rx _ => some .receiving
  | .receiving, .csHigh => some .closed
  | .receiving, .tx _ => none
  | .receiving, .csLow => none
  | .receiving, .delay _ => none

/-- Where a trace stands after the events, or `none` if they break the discipline. -/
def phaseFrom : Phase → List Event → Option Phase
  | q, [] => some q
  | q, ev :: es =>
    match q.next ev with
    | some q' => phaseFrom q' es
    | none => none

/-- The device-select output agrees with a trace that keeps the discipline (R25). -/
def State.busOk (s : State) : Prop :=
  (s.cs = .high ∧ phaseFrom .closed s.tr = some .closed) ∨
  (s.cs = .low ∧ phaseFrom .closed s.tr = some .sending) ∨
  (s.cs = .low ∧ phaseFrom .closed s.tr = some .receiving)

/-! ### The invariant -/

/-- The memory of the environment, where it has one, is in canonical form. -/
def Env.wf (e : Env) : Prop := ∀ d, e.device = some d → d.regs.wf

/-- A scale-factor register holds `UNSET` or one of the divisors of its modality (R22). -/
def fromTable (sf : Option Ratio) (t : Four Ratio) : Prop := ∀ q, sf = some q → q ∈ t.toList

/-- The invariant of the machine between operations: the sequencer is idle, no frame is open and the trace keeps its
discipline (R25, R113, R116), the scale factors come from their tables (R22), the environment's memory is canonical. -/
structure State.Inv (s : State) : Prop where
  seq : s.seq = .idle
  cs : s.cs = .high
  trace : phaseFrom .closed s.tr = some .closed
  sfGyro : fromTable s.sfGyro s.params.gyroSf
  sfAccel : fromTable s.sfAccel s.params.accelSf
  env : s.env.wf

/-! ### Against the devices -/

/-- The parameters under which the bridge is the one of R32 and R70: the four bridge registers and the
bank-select register are distinct, the two bits are 0x80, banks 0 and 3 have their own payloads. -/
def bridgeLayout (p : Params) : Prop :=
  [p.bankSelReg, p.brAddrReg, p.brRegReg, p.brDoReg, p.brCtrlReg].Nodup ∧
  p.brEnableBit = 0x80#8 ∧ p.brReadBit = 0x80#8 ∧
  bankOfPayload p (p.bankVal.get 0) = some 0 ∧ bankOfPayload p (p.bankVal.get 3) = some 3

/-- The bridge's next transaction completes within `T_BR2`, once (R150 b, c): at the trigger, or at the next bus event where
that is the `DELAY` of `T_BR2` (log 23). -/
def settlesInTime (p : Params) (d : Device) : Prop :=
  d.timing.next.1.repeats = false ∧ (d.timing.next.1.wait = 0 ∨ (d.timing.next.1.wait = 1 ∧ p.tBr2 ≠ 0))

/-- A read of the register answers what is stored there: the samples stand still, or it is no sample register (R35). -/
def Device.storeAnswers (p : Params) (d : Device) (b : Bank) (a : Nat) : Prop :=
  d.sampling = .still ∨ mainSampleReg p b a = false

/-- A relayed read that fills `n` bytes of the relay window changes no register but those and the three it programs (R141). -/
def keptByRelayedRead (p : Params) (n : Nat) (d d' : Device) : Prop :=
  ∀ x, x ≠ mainKey 3 p.brAddrReg.toNat → x ≠ mainKey 3 p.brRegReg.toNat → x ≠ mainKey 3 p.brCtrlReg.toNat →
    (∀ k, k < n → x ≠ mainKey 0 (p.relayReg.toNat + k)) → d'.regs.read x = d.regs.read x

/-- The environment's answer to a bus step that is done and on which it gives the byte `b` (R66). -/
def doneAnswer (b : Byte) : BusAnswer := { byte := b, report := .done }

/-! ### Numbers -/

/-- `s16(u)` in the words of R10: "`s16(u) = u` when `u < 32768`, else `u - 65536`". -/
def signed16 (u : Nat) : Int := if u < 32768 then (u : Int) else (u : Int) - 65536

/-- A raw sample (R184 point 1). -/
def isSample (v : Int) : Prop := -32768 ≤ v ∧ v ≤ 32767

/-- A finite pattern: the exponent field is not all ones. -/
def f32Finite (b : BitVec 32) : Prop := b.toNat % 2 ^ 31 < 0x7F800000

/-- The number a finite pattern stands for (R11): without sign, `m * 2^(x - 150)` with exponent field `x` and a hidden bit
when `x` is not 0. -/
def f32Value (b : BitVec 32) : ℚ :=
  let x : Nat := b.toNat / 2 ^ 23 % 256
  let f : Nat := b.toNat % 2 ^ 23
  let magnitude : ℚ := if x = 0 then (f : ℚ) * 2 ^ (-149 : Int) else ((2 ^ 23 + f : Nat) : ℚ) * 2 ^ ((x : Int) - 150)
  if b.toNat < 2 ^ 31 then magnitude else -magnitude

/-- `b` is the binary32 number nearest `q`, "round to nearest, ties to even" (R11): no finite pattern is nearer, and where
another number is as near, the last significand bit of `b` is 0. -/
def nearestEven (q : ℚ) (b : BitVec 32) : Prop :=
  f32Finite b ∧ ∀ c, f32Finite c →
    |f32Value b - q| ≤ |f32Value c - q| ∧
      (|f32Value c - q| = |f32Value b - q| → f32Value c = f32Value b ∨ b.toNat % 2 = 0)

/-- The number of a ratio. -/
def ratioValue (q : Ratio) : ℚ := (q.num : ℚ) / (q.den : ℚ)

/-! ### Host opcodes -/

/-- The twenty opcode bytes of R94. -/
def hostOpcodes : List Nat :=
  [0x01, 0x10, 0x11, 0x12, 0x13, 0x14, 0x20, 0x21, 0x30, 0x31, 0x40, 0x41, 0x50, 0x51, 0x52, 0x53, 0x54, 0x55, 0x56, 0x60]

/-! ### Responses -/

/-- The status byte of a success response (R97). -/
def okStatus : Byte := 0x00#8

/-- The length of an operation's success payload (R98; for a frame form, the bytes it receives). -/
def payloadLength : Instr → Nat
  | .xfer _ m => m.toNat
  | .selectBank _ => 0
  | .readU8 _ _ => 1
  | .writeU8 _ _ _ => 0
  | .readBytes _ _ len => len.toNat
  | .writeBytes _ _ _ => 0
  | .bridgeRead _ _ len => len.toNat
  | .bridgeWrite _ _ _ => 0
  | .initMain => 0
  | .initBridgeDevice => 0
  | .calGyro => 0
  | .calAccel => 0
  | .selectGyroRange _ => 0
  | .selectAccelRange _ => 0
  | .readGyroRaw => 6
  | .readAccelRaw => 6
  | .readGyroScaled => 12
  | .readAccelScaled => 12
  | .readMagScaled => 12
  | .readSnapshot => 36
  | .frameRead _ m => m
  | .frameWrite _ _ => 0

/-- `BusError`: "every operation that emits a frame" (R226). -/
def busErrorPacket : List Byte := [0x04#8]

/-- `IllegalCommand` (R226). -/
def illegalCommandPacket : List Byte := [0x05#8]

/-- The error packets an operation may end with: the "raised by" column of the closed list of R226, `IllegalCommand` only
where the operation has operands to check (R100). -/
def errorPacketsOf : Instr → List (List Byte)
  | .xfer _ _ => [busErrorPacket, illegalCommandPacket]
  | .selectBank _ => [busErrorPacket, illegalCommandPacket]
  | .readU8 _ _ => [busErrorPacket, illegalCommandPacket]
  | .writeU8 _ _ _ => [busErrorPacket, illegalCommandPacket]
  | .readBytes _ _ _ => [busErrorPacket, illegalCommandPacket]
  | .writeBytes _ _ _ => [busErrorPacket, illegalCommandPacket]
  | .bridgeRead _ _ _ => [busErrorPacket, illegalCommandPacket]
  | .bridgeWrite _ _ _ => [busErrorPacket, illegalCommandPacket]
  | .initMain => [busErrorPacket, [0x03#8, 0x00#8]]
  | .initBridgeDevice => [busErrorPacket, [0x03#8, 0x01#8]]
  | .calGyro => [busErrorPacket]
  | .calAccel => [busErrorPacket]
  | .selectGyroRange _ => [busErrorPacket, illegalCommandPacket]
  | .selectAccelRange _ => [busErrorPacket, illegalCommandPacket]
  | .readGyroRaw => [busErrorPacket]
  | .readAccelRaw => [busErrorPacket]
  | .readGyroScaled => [busErrorPacket, [0x06#8, 0x00#8]]
  | .readAccelScaled => [busErrorPacket, [0x06#8, 0x01#8]]
  | .readMagScaled => [busErrorPacket, [0x01#8, 0x00#8], [0x01#8, 0x01#8]]
  | .readSnapshot =>
    [busErrorPacket, [0x02#8, 0x00#8], [0x02#8, 0x01#8], [0x06#8, 0x00#8], [0x06#8, 0x01#8]]
  | .frameRead _ _ => [busErrorPacket]
  | .frameWrite _ _ => [busErrorPacket]

/-- The operation that took `s` to `t` succeeded: the one response it sent has the status `OK` (R97). -/
def succeeded (s t : State) : Prop := ∃ payload, t.responses = s.responses ++ [okStatus :: payload]

/-- The operation that took `s` to `t` sent the one response `packet`. -/
def answeredWith (s t : State) (packet : List Byte) : Prop := t.responses = s.responses ++ [packet]

end Sys2Proof.Machine
end

