-- ==== Sys2Proof/Certificates/Slice0/Obligations.lean ====
section
/-! DEFINITION. The statements for the provers. Every statement quantifies over the state, hence over the parameter record
(R6) and over what the environment answers (R66). "log <n>" is notes/assumptions/<n>.md.

How a completion is stated: `s.env.run s.params es = some e` says that the environment lets the events `es` happen and is then
`e`; the conclusion is the whole next state: `s` with the events appended to `TR`, that environment, and one response. What
`State.advance` and `State.send` do not write is unchanged: that is the frame. -/

open Sys2Proof Sys2Proof.Machine

/-! ### Encodings -/

/-- Decoding the words of a well-formed instruction gives it back, for the twenty packets of R94 and the two frames of R82. -/
def Obligations.DecodeEncodeRoundTrip : Prop :=
  ∀ p i, i.wellFormed p = true → decode (encode i) = some i

/-- Encoding a decoded instruction gives the words back; a decoded frame is well-formed (R82, R94). -/
def Obligations.EncodeDecodeRoundTrip : Prop :=
  (∀ bytes i, decode (.packet bytes) = some i → i.isFrameForm = false ∧ encode i = .packet bytes) ∧
  (∀ tx m i, decode (.frame tx m) = some i →
    i.isFrameForm = true ∧ (∀ p, i.wellFormed p = true) ∧ encode i = .frame tx m)

/-- How much the decoder consumes (R94, R95): a packet of the length its opcode gives it, which is the encoding of the
instruction read; it waits exactly as long as fewer bytes are there; an opcode outside R94 is a packet of one byte. -/
def Obligations.PacketsAreCutByTheirLength : Prop :=
  (∀ bytes i rest, decodePacket bytes = .instr i rest →
    packetLength bytes ≤ bytes.length ∧ rest = bytes.drop (packetLength bytes) ∧
      encode i = .packet (bytes.take (packetLength bytes))) ∧
  (∀ bytes, decodePacket bytes = .incomplete ↔ bytes.length < packetLength bytes) ∧
  (∀ bytes opcode rest,
    decodePacket bytes = .illegalOpcode opcode rest ↔ bytes = opcode :: rest ∧ opcode.toNat ∉ hostOpcodes)

/-- A few words written out from R94, R82 and the packets of 95_test_vectors.md. -/
def Obligations.DecodeKnownWords : Prop :=
  decode (.packet [0x01#8, 0x01#8, 0x01#8, 0x80#8]) = some (.xfer [0x80#8] 0x01#8) ∧
  decode (.packet [0x12#8, 0x03#8, 0x05#8, 0x86#8]) = some (.writeU8 0x03#8 0x05#8 0x86#8) ∧
  decode (.packet [0x14#8, 0x02#8, 0x03#8, 0x02#8, 0xFF#8, 0xE7#8]) =
    some (.writeBytes 0x02#8 0x03#8 [0xFF#8, 0xE7#8]) ∧
  decode (.packet [0x20#8, 0x0C#8, 0x11#8, 0x06#8]) = some (.bridgeRead 0x0C#8 0x11#8 0x06#8) ∧
  decode (.packet [0x31#8]) = some .initBridgeDevice ∧
  decode (.packet [0x41#8]) = some .calAccel ∧
  decode (.packet [0x51#8, 0x03#8]) = some (.selectAccelRange 0x03#8) ∧
  decode (.packet [0x60#8]) = some .readSnapshot ∧
  decode (.frame [0xBB#8] 6) = some (.frameRead 0x3B#7 6) ∧
  decode (.frame [0x05#8, 0x86#8] 0) = some (.frameWrite 0x05#7 [0x86#8])

/-- The command byte: bit 7 the direction, bits 6:0 the address (R81). -/
def Obligations.CommandByteFields : Prop :=
  ∀ a : Addr7,
    (commandByte .read a).toNat = 128 + a.toNat ∧ (commandByte .read a).msb = true ∧
    (commandByte .write a).toNat = a.toNat ∧ (commandByte .write a).msb = false ∧
    (commandByte .read a).setWidth 7 = a ∧ (commandByte .write a).setWidth 7 = a

/-- The bridge bytes with the values the spec gives `BR_ENABLE_BIT` (the document's 0x80) and `BR_READ_BIT` (decided 0x80):
read form, write form, control byte (R86, R87). -/
def Obligations.BridgeBytes : Prop :=
  ∀ p : Params, p.brEnableBit = 0x80#8 → p.brReadBit = 0x80#8 →
    (∀ f, (followerReadByte p f).toNat = 128 + f.toNat ∧ (followerWriteByte f).toNat = f.toNat) ∧
    (∀ n, n ≤ 127 → (controlByte p n).toNat = 128 + n)

/-! ### Steps and packets -/

/-- A step runs the decoded instruction: of the packet at the command port, whose bytes it consumes, or of the bus frame
that waits alone, which it takes first (R93, R95; the bus frame is the model's choice, log 5). -/
def Obligations.StepRunsDecodedInstruction : Prop :=
  (∀ s i rest, s.busReq = none → decodePacket s.portIn = .instr i rest →
    step s = exec i { s with portIn := rest }) ∧
  (∀ s q i, s.busReq = some q → decode (.frame q.tx q.m) = some i →
    step s = exec i { s with busReq := none })

/-- With no whole packet at the command port the framer waits and nothing changes (R24, R36, R93; log 6). -/
def Obligations.StepWaitsForAWholePacket : Prop :=
  ∀ s, s.busReq = none → decodePacket s.portIn = .incomplete → step s = .next s

/-- R99: every opcode byte not in R94 (236 of the 256 values) is consumed alone, emits no event, changes no state, and is
answered `IllegalCommand`. -/
def Obligations.IllegalOpcodesRefused : Prop :=
  ((List.range 256).filter fun v => !hostOpcodes.contains v).length = 236 ∧
  ∀ s opcode rest, s.ready → s.cs = .high → s.busReq = none → s.portIn = opcode :: rest →
    opcode.toNat ∉ hostOpcodes →
    step s = .next ({ s with portIn := rest }.send illegalCommandPacket)

/-- R100: a host operation with an operand out of range emits no event, changes no state, and is answered
`IllegalCommand`. (An `XFER` packet cannot carry more than 255 bytes; for such a term see `OutsideThePremises`.) -/
def Obligations.IllegalOperandsRefused : Prop :=
  ∀ s i, s.ready → s.cs = .high → i.isFrameForm = false → i.wellFormed s.params = false →
    (∀ tx m, i = .xfer tx m → tx.length ≤ 255) →
    exec i s = .next (s.send illegalCommandPacket)

/-- What the model does outside the premises of the spec; each is the model's choice: a command while `SEQ = BUSY` (I15, log
7), an ill-formed parameter record (I19, log 4), a bus frame of neither form (R82, log 5), an `XFER` term of more bytes
than a packet holds (log 13). -/
def Obligations.OutsideThePremises : Prop :=
  (∀ s i, s.seq = .busy → (i.isFrameForm = true → i.wellFormed s.params = true) →
    exec i s = .refused .commandWhileBusy) ∧
  (∀ s i, s.seq = .idle → s.params.wf = false → (i.isFrameForm = true → i.wellFormed s.params = true) →
    exec i s = .refused .illFormedParams) ∧
  (∀ s i, i.isFrameForm = true → i.wellFormed s.params = false → exec i s = .refused .notAFrameForm) ∧
  (∀ s q, s.busReq = some q → decode (.frame q.tx q.m) = none → step s = .refused .notAFrameForm) ∧
  (∀ s tx m, s.ready → s.cs = .high → 255 < tx.length →
    exec (.xfer tx m) s = .next (s.send illegalCommandPacket))

/-! ### Reset, invariant, frame -/

/-- R260, for an instance with any parameters: both factors `UNSET`, both flags false, `SEQ` idle, `CS` high, `TR` empty, `Params`
the instance's and changed by no operation; no event is emitted and the framer then waits for a command. -/
def Obligations.ResetValues : Prop :=
  (∀ p, (State.resetWith p).sfGyro = none ∧ (State.resetWith p).sfAccel = none ∧
    (State.resetWith p).sfvGyro = false ∧ (State.resetWith p).sfvAccel = false ∧
    (State.resetWith p).seq = .idle ∧ (State.resetWith p).cs = .high ∧ (State.resetWith p).tr = [] ∧
    (State.resetWith p).params = p ∧ step (State.resetWith p) = .next (State.resetWith p)) ∧
  (∀ s t, step s = .next t → t.params = s.params)

/-- Reset meets the invariant, whatever the parameters. -/
def Obligations.ResetMeetsInvariant : Prop := State.reset.Inv ∧ ∀ p, (State.resetWith p).Inv

/-- Every step keeps the invariant: idle, no frame open, the trace well bracketed with no delay inside a frame, the
factors `UNSET` or from their tables, the devices' memory canonical. -/
def Obligations.StepKeepsInvariant : Prop := ∀ s t, s.Inv → step s = .next t → t.Inv

/-- R113: on every exit path the frame is closed. In the trace of any operation every `CS_LOW` is followed by a `CS_HIGH` before
the next `CS_LOW`, before any `DELAY` and before the response; `CS` is high whenever the framer is idle again. -/
def Obligations.FramesCloseOnEveryExitPath : Prop :=
  ∀ i s t, s.cs = .high → phaseFrom .closed s.tr = some .closed → exec i s = .next t →
    t.seq = .idle ∧ t.cs = .high ∧ phaseFrom .closed t.tr = some .closed

/-- Every operation ends with exactly one response: for a host operation a success packet of the length R98 gives, or an
error packet that R226 lets this operation raise. Two parts are the model's choice: that a bus frame form answers, with a
payload of its `m` bytes or `BusError` (log 5), and that an `XFER` term of more than 255 bytes, which no packet carries,
is answered `IllegalCommand` (log 13). -/
def Obligations.EveryOperationAnswersOnce : Prop :=
  ∀ i s t, exec i s = .next t →
    t.seq = .idle ∧ ∃ packet, t.responses = s.responses ++ [packet] ∧
      ((∃ payload, packet = okStatus :: payload ∧ payload.length = payloadLength i) ∨ packet ∈ errorPacketsOf i)

/-- What no operation changes, whatever it answers: the parameters (R28), what waits at the ports; the trace and the
responses only grow (R27, R97). -/
def Obligations.OperationFrame : Prop :=
  ∀ i s t, exec i s = .next t →
    t.params = s.params ∧ t.portIn = s.portIn ∧ t.busReq = s.busReq ∧ s.tr <+: t.tr ∧ s.responses <+: t.responses

/-- The scale-factor registers are written only by the two range selections and by `INIT_MAIN`, each with a divisor of its own
table, and are never cleared (R22, R23). -/
def Obligations.OnlyRangeSelectionsWriteFactors : Prop :=
  ∀ i s t, exec i s = .next t →
    ((∀ r, i ≠ .selectGyroRange r) → i ≠ .initMain → t.sfGyro = s.sfGyro) ∧
    ((∀ r, i ≠ .selectAccelRange r) → i ≠ .initMain → t.sfAccel = s.sfAccel) ∧
    (t.sfGyro = s.sfGyro ∨ ∃ k, t.sfGyro = some (s.params.gyroSf.get k)) ∧
    (t.sfAccel = s.sfAccel ∨ ∃ k, t.sfAccel = some (s.params.accelSf.get k)) ∧
    (s.sfvGyro = true → t.sfvGyro = true) ∧ (s.sfvAccel = true → t.sfvAccel = true)

/-! ### The bus transaction primitive -/

/-- `XFER` completes (R111): all of `tx` sent as given, then `m` bytes received, in one frame; the received bytes are the
payload; nothing but `CS`, `TR` (and the environment) changes. -/
def Obligations.XferTransfers : Prop :=
  ∀ s e tx m rx, s.ready → 1 ≤ tx.length → tx.length ≤ 255 → rx.length = m.toNat →
    s.env.run s.params (frameEvents tx rx) = some e →
    exec (.xfer tx m) s = .next ((s.advance (frameEvents tx rx) e).send (okStatus :: rx))

/-- R112: a failure reported at any `TX` or `RX` step. The events of the completed steps stay; the failing step may or may not have
left its event; nothing else of the frame follows but its closing; the received bytes are discarded; the answer is
`BusError`, and nothing is retried. -/
def Obligations.XferFailureClosesTheFrame : Prop :=
  (∀ s e tx m (k : Nat) (hk : k < tx.length) left, s.ready → tx.length ≤ 255 →
    s.env.run s.params (openFrameEvents (tx.take k) []) = some e → e.next.1.report = .failed left →
    exec (.xfer tx m) s =
      .next ((s.advance (openFrameEvents (tx.take k) [] ++ failureEvents left (.tx tx[k]))
        (e.afterFailure s.params left (.tx tx[k]))).send busErrorPacket)) ∧
  (∀ s e tx (m : Byte) rx left, s.ready → 1 ≤ tx.length → tx.length ≤ 255 → rx.length < m.toNat →
    s.env.run s.params (openFrameEvents tx rx) = some e → e.next.1.report = .failed left →
    exec (.xfer tx m) s =
      .next ((s.advance (openFrameEvents tx rx ++ failureEvents left (.rx (e.nextByte s.params)))
        (e.afterFailure s.params left (.rx (e.nextByte s.params)))).send busErrorPacket))

/-- The two frame forms of R82, run alone, complete; that they run alone and answer like `XFER` is the model's choice (log 5). -/
def Obligations.FrameFormsTransfer : Prop :=
  (∀ s e a rx, s.ready → 1 ≤ rx.length →
    s.env.run s.params (frameEvents [0x80#8 ||| addrByte a] rx) = some e →
    exec (.frameRead a rx.length) s =
      .next ((s.advance (frameEvents [0x80#8 ||| addrByte a] rx) e).send (okStatus :: rx))) ∧
  (∀ s e a payload, s.ready → 1 ≤ payload.length →
    s.env.run s.params (frameEvents (addrByte a :: payload) []) = some e →
    exec (.frameWrite a payload) s =
      .next ((s.advance (frameEvents (addrByte a :: payload) []) e).send [okStatus]))

/-! ### Register access -/

/-- `SELECT_BANK` completes with the one bank-select frame, whatever bank was selected before (R121, R85). -/
def Obligations.SelectBankSends : Prop :=
  ∀ s e b, s.ready → s.env.run s.params (selectEvents s.params b) = some e →
    exec (.selectBank (indexByte b)) s = .next ((s.advance (selectEvents s.params b) e).send [okStatus])

/-- `READ_U8` completes: bank select, read frame of one byte, that byte returned (R123). -/
def Obligations.ReadU8Reads : Prop :=
  ∀ s e b a v, s.ready → s.env.run s.params (readEvents s.params ⟨b, a⟩ [v]) = some e →
    exec (.readU8 (indexByte b) (addrByte a)) s =
      .next ((s.advance (readEvents s.params ⟨b, a⟩ [v]) e).send [okStatus, v])

/-- `WRITE_U8` completes: bank select, write frame of one byte (R125). -/
def Obligations.WriteU8Writes : Prop :=
  ∀ s e b a v, s.ready → s.env.run s.params (writeEvents s.params ⟨b, a⟩ [v]) = some e →
    exec (.writeU8 (indexByte b) (addrByte a) v) s =
      .next ((s.advance (writeEvents s.params ⟨b, a⟩ [v]) e).send [okStatus])

/-- `READ_BYTES` completes: bank select, then all the bytes from one frame, returned in the order received (R127, R98). -/
def Obligations.ReadBytesReads : Prop :=
  ∀ s e b a (len : Byte) rx, s.ready → legalBurst s.params a.toNat len.toNat = true → rx.length = len.toNat →
    s.env.run s.params (readEvents s.params ⟨b, a⟩ rx) = some e →
    exec (.readBytes (indexByte b) (addrByte a) len) s =
      .next ((s.advance (readEvents s.params ⟨b, a⟩ rx) e).send (okStatus :: rx))

/-- `WRITE_BYTES` completes: bank select, then all the bytes in one frame with the direction bit clear (R129). -/
def Obligations.WriteBytesWrites : Prop :=
  ∀ s e b a data, s.ready → legalBurst s.params a.toNat data.length = true →
    s.env.run s.params (writeEvents s.params ⟨b, a⟩ data) = some e →
    exec (.writeBytes (indexByte b) (addrByte a) data) s =
      .next ((s.advance (writeEvents s.params ⟨b, a⟩ data) e).send [okStatus])

/-- R130, for the four register accesses: a failure of the bank-select frame ends the operation with `BusError` and the access
frame is not emitted; a failure of the access frame ends it after a bank-select frame that stays; no bank is restored.
The same at every bus step of `SELECT_BANK` and of every composite operation (R112, R149, R168, R235): what was done before it
stays, pairs already written among it (R177), nothing follows, nothing is retried, and an identity read that fails is no
mismatch (R158). No factor changes, but the gyroscope's where `INIT_MAIN` fails after its gyroscope range selection. -/
def Obligations.AccessFailureEndsTheOperation : Prop :=
  (∀ s e i b tx m (k : Nat) (hk : k < (selectBytes s.params b).length) left, IsAccess s.params i b tx m → s.ready →
    s.env.run s.params (openFrameEvents ((selectBytes s.params b).take k) []) = some e →
    e.next.1.report = .failed left →
    exec i s =
      .next ((s.advance
        (openFrameEvents ((selectBytes s.params b).take k) [] ++ failureEvents left (.tx (selectBytes s.params b)[k]))
        (e.afterFailure s.params left (.tx (selectBytes s.params b)[k]))).send busErrorPacket)) ∧
  (∀ s e i b tx m (k : Nat) (hk : k < tx.length) left, IsAccess s.params i b tx m → s.ready →
    s.env.run s.params (selectEvents s.params b ++ openFrameEvents (tx.take k) []) = some e →
    e.next.1.report = .failed left →
    exec i s =
      .next ((s.advance (selectEvents s.params b ++ openFrameEvents (tx.take k) [] ++ failureEvents left (.tx tx[k]))
        (e.afterFailure s.params left (.tx tx[k]))).send busErrorPacket)) ∧
  (∀ s e i b tx m rx left, IsAccess s.params i b tx m → s.ready → rx.length < m →
    s.env.run s.params (selectEvents s.params b ++ openFrameEvents tx rx) = some e → e.next.1.report = .failed left →
    exec i s =
      .next ((s.advance
        (selectEvents s.params b ++ openFrameEvents tx rx ++ failureEvents left (.rx (e.nextByte s.params)))
        (e.afterFailure s.params left (.rx (e.nextByte s.params)))).send busErrorPacket)) ∧
  (∀ s e i es n left ev, IsRun s i es → s.ready → FailsAt s es n e left ev →
    exec i s =
      .next ((s.advance (es.take n ++ failureEvents left ev) (e.afterFailure s.params left ev)).send busErrorPacket)) ∧
  (∀ s e es vs rs gs as old tg ta n left ev, s.ready → InitMainAnswers s.params vs rs gs as old →
    es = initMainEvents s.params vs rs gs as old tg ta →
    (initMainEventsBeforeAccel s.params vs rs gs as old tg).length ≤ n → FailsAt s es n e left ev →
    exec .initMain s =
      .next ({ s.advance (es.take n ++ failureEvents left ev) (e.afterFailure s.params left ev) with
        sfGyro := some (s.params.gyroSf.get s.params.initGyroRange) }.send busErrorPacket))

/-! ### Bridge-relayed access -/

/-- `BRIDGE_READ` completes: the six steps of R141 with its two waits where R142 puts them. -/
def Obligations.BridgeReadRelays : Prop :=
  ∀ s e f r (len : Byte) rx, s.ready → legalBurst s.params s.params.relayReg.toNat len.toNat = true →
    rx.length = len.toNat → s.env.run s.params (bridgeReadEvents s.params f r rx) = some e →
    exec (.bridgeRead (addrByte f) r len) s =
      .next ((s.advance (bridgeReadEvents s.params f r rx) e).send (okStatus :: rx))

/-- `BRIDGE_WRITE` completes: four register writes and two waits, no read-back (R145, R146). -/
def Obligations.BridgeWriteRelays : Prop :=
  ∀ s e f r v, s.ready → s.env.run s.params (bridgeWriteEvents s.params f r v) = some e →
    exec (.bridgeWrite (addrByte f) r v) s =
      .next ((s.advance (bridgeWriteEvents s.params f r v) e).send [okStatus])

/-- R148: a relayed access that succeeds emits 8 frames and its two `DELAY` events (a delay of 0 leaves no event, R13). -/
def Obligations.RelayedAccessCost : Prop :=
  ∀ s t i, ((∃ f r len, i = .bridgeRead f r len) ∨ ∃ f r v, i = .bridgeWrite f r v) →
    exec i s = .next t → succeeded s t →
    ∃ es, t.tr = s.tr ++ es ∧ (framesOf es).length = 8 ∧
      delaysOf es = [s.params.tBr1, s.params.tBr2].filter (fun d => d ≠ 0)

/-! ### Initialization -/

/-- `INIT_MAIN` completes: at most `ID_RETRY_MAX` identity reads, the last of which matches, the seven step lists in order, gyroscope
then accelerometer calibration, gyroscope then accelerometer range; both factors stored (R158, R160, R161). -/
def Obligations.InitMainCompletes : Prop :=
  ∀ s e vs rs gs as old tg ta, s.ready →
    vs.length < s.params.idRetryMax → (∀ v ∈ vs, v ≠ s.params.mainId.value) →
    rs.length = readsOf s.params.initMainSteps.inOrder →
    gs.length = s.params.calSamples → (∀ d ∈ gs, d.length = 6) →
    as.length = s.params.calSamples → (∀ d ∈ as, d.length = 6) → (∀ d ∈ old.toList, d.length = 2) →
    s.env.run s.params (initMainEvents s.params vs rs gs as old tg ta) = some e →
    exec .initMain s = .next
      ({ s.advance (initMainEvents s.params vs rs gs as old tg ta) e with
          sfGyro := some (s.params.gyroSf.get s.params.initGyroRange)
          sfAccel := some (s.params.accelSf.get s.params.initAccelRange) }.send [okStatus])

/-- `INIT_BRIDGE_DEVICE` completes: three step lists, the magnetometer's identity through the bridge, three step lists; no factor
is touched (R159, R165, R166). -/
def Obligations.InitBridgeDeviceCompletes : Prop :=
  ∀ s e vs rs rs', s.ready →
    vs.length < s.params.idRetryMax → (∀ v ∈ vs, v ≠ s.params.magId.value) →
    rs.length = readsOf (stepsBeforeIdentity s.params.initMagSteps) →
    rs'.length = readsOf (stepsAfterIdentity s.params.initMagSteps) →
    s.env.run s.params (initBridgeEvents s.params vs rs rs') = some e →
    exec .initBridgeDevice s = .next ((s.advance (initBridgeEvents s.params vs rs rs') e).send [okStatus])

/-- The identity checks are bounded: `DeviceNotFound` when the `ID_RETRY_MAX`th read mismatches, after exactly so many reads, before any
further write (R158, R159, R168). -/
def Obligations.IdentityIsBounded : Prop :=
  (∀ s e vs v, s.ready → vs.length + 1 = s.params.idRetryMax →
    (∀ w ∈ vs, w ≠ s.params.mainId.value) → v ≠ s.params.mainId.value →
    s.env.run s.params (mainMismatchEvents s.params vs ++ readEvents s.params s.params.mainId.addr [v]) = some e →
    exec .initMain s =
      .next ((s.advance (mainMismatchEvents s.params vs ++ readEvents s.params s.params.mainId.addr [v]) e).send
        [0x03#8, 0x00#8])) ∧
  (∀ s e vs v rs, s.ready → vs.length + 1 = s.params.idRetryMax →
    (∀ w ∈ vs, w ≠ s.params.magId.value) → v ≠ s.params.magId.value →
    rs.length = readsOf (stepsBeforeIdentity s.params.initMagSteps) →
    s.env.run s.params (stepEvents s.params (stepsBeforeIdentity s.params.initMagSteps) rs ++
      magMismatchEvents s.params vs ++
      bridgeReadEvents s.params s.params.magAddr s.params.magId.reg [v]) = some e →
    exec .initBridgeDevice s =
      .next ((s.advance (stepEvents s.params (stepsBeforeIdentity s.params.initMagSteps) rs ++
        magMismatchEvents s.params vs ++
        bridgeReadEvents s.params s.params.magAddr s.params.magId.reg [v]) e).send [0x03#8, 0x01#8]))

/-! ### Calibration -/

/-- `CAL_GYRO` completes: `CAL_SAMPLES` reads of six bytes, then a blind write of each pair, x, y, z (R176, R177). -/
def Obligations.CalGyroCompletes : Prop :=
  ∀ s e ds, s.ready → ds.length = s.params.calSamples → (∀ d ∈ ds, d.length = 6) →
    s.env.run s.params (calGyroEvents s.params ds) = some e →
    exec .calGyro s = .next ((s.advance (calGyroEvents s.params ds) e).send [okStatus])

/-- `CAL_ACCEL` completes: `CAL_SAMPLES` reads of six bytes, the three pairs read, the three pairs written (R176, R181). -/
def Obligations.CalAccelCompletes : Prop :=
  ∀ s e ds old, s.ready → ds.length = s.params.calSamples → (∀ d ∈ ds, d.length = 6) →
    (∀ d ∈ old.toList, d.length = 2) → s.env.run s.params (calAccelEvents s.params ds old) = some e →
    exec .calAccel s = .next ((s.advance (calAccelEvents s.params ds old) e).send [okStatus])

/-- R178: the ranges of the sums, averages and offsets of `CAL_GYRO` with 100 samples and the divisor 4; the pair written holds the
offset with its sign, the high byte first (R177, R55); the sign of the truncations. -/
def Obligations.GyroOffsetRange : Prop :=
  (∀ (p : Params) (sum : Int),
    gyroOffset p sum = Int.tdiv (-(Int.tdiv sum p.calSamples)) p.gyroCalDiv ∧
    (gyroPair p sum).map (fun b => (b.toNat : Int)) =
      [gyroOffset p sum % 65536 / 256, gyroOffset p sum % 65536 % 256]) ∧
  ∀ p : Params, p.calSamples = 100 → p.gyroCalDiv = 4 →
    (∀ ds : List (List Byte), ds.length = 100 → ∀ sum ∈ (sampleSum ds).toList,
      (-3276800 ≤ sum ∧ sum ≤ 3276700) ∧
      (-32768 ≤ sampleAverage p sum ∧ sampleAverage p sum ≤ 32767) ∧
      (-32767 ≤ -sampleAverage p sum ∧ -sampleAverage p sum ≤ 32768) ∧
      (-8191 ≤ gyroOffset p sum ∧ gyroOffset p sum ≤ 8192) ∧
      (u16 (gyroOffset p sum)).toInt = gyroOffset p sum) ∧
    (∀ sum, gyroOffset p sum = -Int.tdiv (sampleAverage p sum) 4) ∧
    sampleAverage p 1050 = 10 ∧ sampleAverage p (-1050) = -10 ∧
    gyroOffset p 1000 = -2 ∧ gyroOffset p (-1000) = 2 ∧ gyroOffset p (-3276800) = 8192 ∧
    u16 8192 = 0x2000#16

/-- The arithmetic of `CAL_ACCEL` in plain integers (R181, R182 b, c, d): `old - tdiv(avg, ACCEL_CAL_DIV)` modulo `2^16`, the same whether
`old` is read signed or not; the written pair is its high byte and its low byte with the reserved bit of the old one. -/
def Obligations.AccelOffsetArithmetic : Prop :=
  ∀ (p : Params) (high low : Byte) (sum : Int),
    let old : Int := 256 * (high.toNat : Int) + (low.toNat : Int)
    let shift : Int := Int.tdiv (Int.tdiv sum p.calSamples) p.accelCalDiv
    let new : Nat := (accelOffset p [high, low] sum).toNat
    (new : Int) = (old - shift) % 65536 ∧
    (new : Int) = (signed16 old.toNat - shift) % 65536 ∧
    (accelPair p [high, low] sum).map BitVec.toNat = [new / 256, new % 256 / 2 * 2 + low.toNat % 2]

/-- R183: whatever the samples and the existing pairs were, a `CAL_ACCEL` that succeeds writes back the low bit of each pair's low
byte as it read it. -/
def Obligations.ReservedBitPreserved : Prop :=
  ∀ s t, exec .calAccel s = .next t → succeeded s t →
    ∃ es ex ey ez wx wy wz,
      t.tr = s.tr ++ es ++ readEvents s.params s.params.accelOffs.x ex ++
        readEvents s.params s.params.accelOffs.y ey ++ readEvents s.params s.params.accelOffs.z ez ++
        writeEvents s.params s.params.accelOffs.x wx ++ writeEvents s.params s.params.accelOffs.y wy ++
        writeEvents s.params s.params.accelOffs.z wz ∧
      ∀ q ∈ [(ex, wx), (ey, wy), (ez, wz)], q.1.length = 2 ∧ q.2.length = 2 ∧
        (byteAt q.2 1).toNat % 2 = (byteAt q.1 1).toNat % 2

/-- R53, R54, R55: main-device samples big-endian, magnetometer samples little-endian, offset pairs big-endian in both
directions. -/
def Obligations.ByteOrders : Prop :=
  (∀ d0 d1 d2 d3 d4 d5 : Byte,
    axisBig [d0, d1, d2, d3, d4, d5] =
      { x := signed16 (256 * d0.toNat + d1.toNat)
        y := signed16 (256 * d2.toNat + d3.toNat)
        z := signed16 (256 * d4.toNat + d5.toNat) } ∧
    axisLittle [d0, d1, d2, d3, d4, d5] =
      { x := signed16 (d0.toNat + 256 * d1.toNat)
        y := signed16 (d2.toNat + 256 * d3.toNat)
        z := signed16 (d4.toNat + 256 * d5.toNat) }) ∧
  (∀ v : BitVec 16, (bigEndianPair v).map BitVec.toNat = [v.toNat / 256, v.toNat % 256]) ∧
  (∀ (p : Params) (high low : Byte), (accelOffset p [high, low] 0).toNat = 256 * high.toNat + low.toNat)

/-! ### Range selection -/

/-- The range selections complete: the configuration register read, written back with the range's bits under the mask, then the
divisor stored (R192, R194). -/
def Obligations.RangeSelectionsComplete : Prop :=
  (∀ s e r v, s.ready →
    s.env.run s.params (selectRangeEvents s.params s.params.gyroCfg s.params.gyroFsMask (s.params.gyroFsBits.get r) v) =
      some e →
    exec (.selectGyroRange (indexByte r)) s =
      .next ({ s.advance
          (selectRangeEvents s.params s.params.gyroCfg s.params.gyroFsMask (s.params.gyroFsBits.get r) v) e with
        sfGyro := some (s.params.gyroSf.get r) }.send [okStatus])) ∧
  (∀ s e r v, s.ready →
    s.env.run s.params
      (selectRangeEvents s.params s.params.accelCfg s.params.accelFsMask (s.params.accelFsBits.get r) v) = some e →
    exec (.selectAccelRange (indexByte r)) s =
      .next ({ s.advance
          (selectRangeEvents s.params s.params.accelCfg s.params.accelFsMask (s.params.accelFsBits.get r) v) e with
        sfAccel := some (s.params.accelSf.get r) }.send [okStatus]))

/-- The divisor is stored exactly when the selection succeeds: on any error the factor is what it was (R192, R194, R234). -/
def Obligations.FactorStoredExactlyOnSuccess : Prop :=
  (∀ s t r, exec (.selectGyroRange r) s = .next t →
    (t.sfGyro = s.sfGyro ∧ ∃ packet ∈ errorPacketsOf (.selectGyroRange r), answeredWith s t packet) ∨
    (∃ k, r = indexByte k ∧ t.sfGyro = some (s.params.gyroSf.get k) ∧ answeredWith s t [okStatus])) ∧
  (∀ s t r, exec (.selectAccelRange r) s = .next t →
    (t.sfAccel = s.sfAccel ∧ ∃ packet ∈ errorPacketsOf (.selectAccelRange r), answeredWith s t packet) ∨
    (∃ k, r = indexByte k ∧ t.sfAccel = some (s.params.accelSf.get k) ∧ answeredWith s t [okStatus]))

/-- R193: a selection that succeeds ends with the write of the range's own bits under the mask and stores the range's own
divisor, both constants of `Params`, whatever was selected before; so two selections of a range agree in both. -/
def Obligations.RangeSelectionIsIdempotentInItsLookup : Prop :=
  (∀ s t k, exec (.selectGyroRange (indexByte k)) s = .next t → succeeded s t →
    t.sfGyro = some (s.params.gyroSf.get k) ∧
    ∃ es v, t.tr = s.tr ++ es ++ writeEvents s.params s.params.gyroCfg [v] ∧
      v &&& s.params.gyroFsMask = s.params.gyroFsBits.get k) ∧
  (∀ s t k, exec (.selectAccelRange (indexByte k)) s = .next t → succeeded s t →
    t.sfAccel = some (s.params.accelSf.get k) ∧
    ∃ es v, t.tr = s.tr ++ es ++ writeEvents s.params s.params.accelCfg [v] ∧
      v &&& s.params.accelFsMask = s.params.accelFsBits.get k)

/-! ### Reads -/

/-- The raw reads complete: six bytes, answered as the three samples, each high byte first (R196, R198, R98). -/
def Obligations.RawReadsComplete : Prop :=
  (∀ s e d, s.ready → d.length = 6 → s.env.run s.params (readEvents s.params s.params.gyroOut d) = some e →
    exec .readGyroRaw s = .next ((s.advance (readEvents s.params s.params.gyroOut d) e).send (okStatus :: d))) ∧
  (∀ s e d, s.ready → d.length = 6 → s.env.run s.params (readEvents s.params s.params.accelOut d) = some e →
    exec .readAccelRaw s = .next ((s.advance (readEvents s.params s.params.accelOut d) e).send (okStatus :: d)))

/-- The scaled reads of the main device complete when the factor is set (R201, R203, R204, R205). A scaled payload is the
lanes x, y, z, each binary32 pattern with its most significant byte first (R98). -/
def Obligations.ScaledReadsComplete : Prop :=
  (∀ s e d sf, s.ready → s.sfGyro = some sf → d.length = 6 →
    s.env.run s.params (readEvents s.params s.params.gyroOut d) = some e →
    exec .readGyroScaled s =
      .next ((s.advance (readEvents s.params s.params.gyroOut d) e).send
        (okStatus :: scaledPayload
          ⟨scaleBy sf (axisBig d).x, scaleBy sf (axisBig d).y, scaleBy sf (axisBig d).z⟩))) ∧
  (∀ s e d sf, s.ready → s.sfAccel = some sf → d.length = 6 →
    s.env.run s.params (readEvents s.params s.params.accelOut d) = some e →
    exec .readAccelScaled s =
      .next ((s.advance (readEvents s.params s.params.accelOut d) e).send
        (okStatus :: scaledPayload
          ⟨scaleBy sf (axisBig d).x, scaleBy sf (axisBig d).y,
            if s.params.accelZArtifact then scaleWithArtifact sf (axisBig d).z else scaleBy sf (axisBig d).z⟩))) ∧
  (∀ v : BitVec 32, (wordBytes v).map BitVec.toNat =
    [v.toNat / 2 ^ 24, v.toNat / 2 ^ 16 % 256, v.toNat / 2 ^ 8 % 256, v.toNat % 256]) ∧
  (∀ t : Axis3 (BitVec 32), scaledPayload t = wordBytes t.x ++ wordBytes t.y ++ wordBytes t.z)

/-- With its factor `UNSET` a scaled read is refused before any bus event; the snapshot tests the gyroscope first (R201, R203, R216,
R233). -/
def Obligations.ScaledReadsRefuseUnset : Prop :=
  ∀ s, s.ready → s.cs = .high →
    (s.sfGyro = none → exec .readGyroScaled s = .next (s.send [0x06#8, 0x00#8])) ∧
    (s.sfAccel = none → exec .readAccelScaled s = .next (s.send [0x06#8, 0x01#8])) ∧
    (s.sfGyro = none → exec .readSnapshot s = .next (s.send [0x06#8, 0x00#8])) ∧
    (s.sfGyro ≠ none → s.sfAccel = none → exec .readSnapshot s = .next (s.send [0x06#8, 0x01#8]))

/-- `READ_MAG_SCALED` completes when the ready bit is 1 and the overflow bit 0, in the order status 1, data, status 2 (R206, R207); no
range selection is needed (R208). -/
def Obligations.MagScaledCompletes : Prop :=
  ∀ s e s1 m s2, s.ready → m.length = 6 → s1 &&& s.params.magDrdyMask ≠ 0x00#8 →
    s2 &&& s.params.magOvfMask = 0x00#8 → s.env.run s.params (magEvents s.params s1 m s2) = some e →
    exec .readMagScaled s =
      .next ((s.advance (magEvents s.params s1 m s2) e).send
        (okStatus :: scaledPayload
          ⟨scaleMag s.params.magScale (axisLittle m).x, scaleMag s.params.magScale (axisLittle m).y,
            scaleMag s.params.magScale (axisLittle m).z⟩))

/-- The gate fails: not ready after the one status read, whatever else the registers hold; overflow after all three reads, the
data discarded (R206, R207). -/
def Obligations.MagGateFails : Prop :=
  (∀ s e s1, s.ready → s1 &&& s.params.magDrdyMask = 0x00#8 →
    s.env.run s.params (bridgeReadEvents s.params s.params.magAddr s.params.magSt1Reg [s1]) = some e →
    exec .readMagScaled s =
      .next ((s.advance (bridgeReadEvents s.params s.params.magAddr s.params.magSt1Reg [s1]) e).send
        [0x01#8, 0x00#8])) ∧
  (∀ s e s1 m s2, s.ready → m.length = 6 → s1 &&& s.params.magDrdyMask ≠ 0x00#8 →
    s2 &&& s.params.magOvfMask ≠ 0x00#8 → s.env.run s.params (magEvents s.params s1 m s2) = some e →
    exec .readMagScaled s = .next ((s.advance (magEvents s.params s1 m s2) e).send [0x01#8, 0x01#8]))

/-- What a `READ_MAG_SCALED` that has ended tells about the gate: a success had the ready bit 1 and the overflow bit 0 on
the bytes it received; each failure had the bit it names (R206, R207). -/
def Obligations.MagGateOutcomes : Prop :=
  ∀ s t, exec .readMagScaled s = .next t →
    (succeeded s t → ∃ s1 m s2, t.tr = s.tr ++ magEvents s.params s1 m s2 ∧ m.length = 6 ∧
      s1 &&& s.params.magDrdyMask ≠ 0x00#8 ∧ s2 &&& s.params.magOvfMask = 0x00#8) ∧
    (answeredWith s t [0x01#8, 0x00#8] → ∃ s1,
      t.tr = s.tr ++ bridgeReadEvents s.params s.params.magAddr s.params.magSt1Reg [s1] ∧
      s1 &&& s.params.magDrdyMask = 0x00#8) ∧
    (answeredWith s t [0x01#8, 0x01#8] → ∃ s1 m s2, t.tr = s.tr ++ magEvents s.params s1 m s2 ∧ m.length = 6 ∧
      s1 &&& s.params.magDrdyMask ≠ 0x00#8 ∧ s2 &&& s.params.magOvfMask ≠ 0x00#8)

/-! ### The snapshot -/

/-- `READ_SNAPSHOT` completes: gyroscope, accelerometer, magnetometer, with nothing between; 36 bytes in that order (R216, R217,
R220, R98). -/
def Obligations.SnapshotCompletes : Prop :=
  ∀ s e g a s1 m s2 sfg sfa, s.ready → s.sfGyro = some sfg → s.sfAccel = some sfa →
    g.length = 6 → a.length = 6 → m.length = 6 → s1 &&& s.params.magDrdyMask ≠ 0x00#8 →
    s2 &&& s.params.magOvfMask = 0x00#8 →
    s.env.run s.params (snapshotMainEvents s.params g a ++ magEvents s.params s1 m s2) = some e →
    exec .readSnapshot s =
      .next ((s.advance (snapshotMainEvents s.params g a ++ magEvents s.params s1 m s2) e).send
        (okStatus ::
          (scaledPayload ⟨scaleBy sfg (axisBig g).x, scaleBy sfg (axisBig g).y, scaleBy sfg (axisBig g).z⟩ ++
          scaledPayload
            ⟨scaleBy sfa (axisBig a).x, scaleBy sfa (axisBig a).y,
              if s.params.accelZArtifact then scaleWithArtifact sfa (axisBig a).z else scaleBy sfa (axisBig a).z⟩ ++
          scaledPayload
            ⟨scaleMag s.params.magScale (axisLittle m).x, scaleMag s.params.magScale (axisLittle m).y,
              scaleMag s.params.magScale (axisLittle m).z⟩)))

/-- A failed magnetometer gate ends the snapshot with `SensorError` and the gate's own cause; no part of the snapshot is returned
(R216, R219). -/
def Obligations.SnapshotGateFails : Prop :=
  (∀ s e g a s1, s.ready → s.sfGyro ≠ none → s.sfAccel ≠ none → g.length = 6 → a.length = 6 →
    s1 &&& s.params.magDrdyMask = 0x00#8 →
    s.env.run s.params (snapshotMainEvents s.params g a ++
      bridgeReadEvents s.params s.params.magAddr s.params.magSt1Reg [s1]) = some e →
    exec .readSnapshot s =
      .next ((s.advance (snapshotMainEvents s.params g a ++
        bridgeReadEvents s.params s.params.magAddr s.params.magSt1Reg [s1]) e).send [0x02#8, 0x00#8])) ∧
  (∀ s e g a s1 m s2, s.ready → s.sfGyro ≠ none → s.sfAccel ≠ none → g.length = 6 → a.length = 6 → m.length = 6 →
    s1 &&& s.params.magDrdyMask ≠ 0x00#8 → s2 &&& s.params.magOvfMask ≠ 0x00#8 →
    s.env.run s.params (snapshotMainEvents s.params g a ++ magEvents s.params s1 m s2) = some e →
    exec .readSnapshot s =
      .next ((s.advance (snapshotMainEvents s.params g a ++ magEvents s.params s1 m s2) e).send [0x02#8, 0x01#8]))

/-- R221: 28 frames and the six delays of three relayed reads on success and on overflow, 12 frames and two delays when not
ready (a delay of 0 leaves no event, R13). -/
def Obligations.SnapshotCost : Prop :=
  ∀ s t, exec .readSnapshot s = .next t →
    (succeeded s t ∨ answeredWith s t [0x02#8, 0x01#8] →
      ∃ es, t.tr = s.tr ++ es ∧ (framesOf es).length = 28 ∧
        delaysOf es = ([s.params.tBr1, s.params.tBr2, s.params.tBr1, s.params.tBr2, s.params.tBr1,
          s.params.tBr2]).filter (fun d => d ≠ 0)) ∧
    (answeredWith s t [0x02#8, 0x00#8] →
      ∃ es, t.tr = s.tr ++ es ∧ (framesOf es).length = 12 ∧
        delaysOf es = [s.params.tBr1, s.params.tBr2].filter (fun d => d ≠ 0))

/-! ### Binary32 results -/

/-- `f32` rounds the exact rational once, to the nearest finite number, ties to even, whatever its size; zero is `+0.0` and
`-0.0` never occurs (R11, R200 points 3, 4 and 6; that the two together make the largest finite number the nearest one past
the range, and that a non-zero number too small for binary32 gives `+0.0`, is log 10). -/
def Obligations.F32RoundsToNearest : Prop :=
  ∀ (n : Int) (d : Nat), 0 < d →
    nearestEven ((n : ℚ) / (d : ℚ)) (f32 n d) ∧ f32 n d ≠ 0x80000000#32 ∧ (n = 0 → f32 n d = 0x00000000#32)

/-- A scaled component is the binary32 number nearest `raw / SF`, `(raw + SF) / SF` or `raw * MAG_SCALE`, for every sample and every
positive divisor, finite always (R200 points 1 and 3, R204, R208; past the finite range by log 10). -/
def Obligations.ScaledValuesAreQuotients : Prop :=
  (∀ (sf : Ratio) (v : Int), isSample v → 0 < sf.num → 0 < sf.den →
    nearestEven ((v : ℚ) / ratioValue sf) (scaleBy sf v)) ∧
  (∀ (sf : Ratio) (v : Int), isSample v → 0 < sf.num → 0 < sf.den →
    nearestEven (((v : ℚ) + ratioValue sf) / ratioValue sf) (scaleWithArtifact sf v)) ∧
  (∀ (scale : Ratio) (v : Int), isSample v → 0 < scale.den →
    nearestEven ((v : ℚ) * ratioValue scale) (scaleMag scale v))

/-- With the source's constants every result is finite and within the bounds of R200 point 3, no non-zero result is
subnormal (point 5), and a divisor that is a power of two gives the exact quotient (point 8). -/
def Obligations.SourceConstantsGiveBoundedResults : Prop :=
  ∀ v : Int, isSample v →
    (f32Finite (scaleBy ⟨82, 5⟩ v) ∧ |f32Value (scaleBy ⟨82, 5⟩ v)| < 1999) ∧
    (f32Finite (scaleBy ⟨2048, 1⟩ v) ∧ |f32Value (scaleBy ⟨2048, 1⟩ v)| ≤ 16) ∧
    (f32Finite (scaleMag ⟨3, 20⟩ v) ∧ |f32Value (scaleMag ⟨3, 20⟩ v)| ≤ 49152 / 10 + 1 / 4096) ∧
    (v ≠ 0 → ∀ b ∈ [scaleBy ⟨82, 5⟩ v, scaleBy ⟨2048, 1⟩ v, scaleMag ⟨3, 20⟩ v], 2 ^ 23 ≤ b.toNat % 2 ^ 31) ∧
    (∀ k : Nat, k ≤ 126 → f32Value (scaleBy ⟨2 ^ k, 1⟩ v) = (v : ℚ) / 2 ^ k)

/-! ### What the framer puts on the bus -/

/-- A successful operation other than `XFER` emits only the two frame forms of R82: every frame of its trace decodes to one of them (R82,
R83, R101). -/
def Obligations.OnlyTheTwoFrameForms : Prop :=
  ∀ i s t, (∀ tx m, i ≠ .xfer tx m) → exec i s = .next t → succeeded s t →
    ∃ es, t.tr = s.tr ++ es ∧ ∀ f ∈ framesOf es, ∃ j, decode (.frame f.tx f.m) = some j

/-! ### Against the devices of R30 to R35, consuming the trace as R70 describes

`d.timing` and `d.sampling` are free: the bridge completes when it will (R34), the samples may stand still or change on their
own (R35); the reference device of R70 is one case. -/

/-- `WRITE_U8` against the devices stores the byte at `DEV[b][a]` and leaves every other register of either space
alone (R51, R70); nothing is pending in the bridge, and the register is neither the bank-select register nor a bridge trigger.
Whether a later read answers from there is `DeviceAnswersReads`. -/
def Obligations.DeviceStoresByte : Prop :=
  ∀ s count d b (a : Addr7) v, s.ready → s.env = { script := [], count := count, device := some d } → d.regs.wf →
    d.pending = none → bankOfPayload s.params (s.params.bankVal.get b) = some b →
    a ≠ s.params.bankSelReg →
    (b = 3 → a ≠ s.params.brCtrlReg) →
    ∃ t d', exec (.writeU8 (indexByte b) (addrByte a) v) s = .next t ∧ answeredWith s t [okStatus] ∧
      t.env.device = some d' ∧ d'.bank = b ∧
      d'.regs.read (mainKey b a.toNat) = v ∧ ∀ x, x ≠ mainKey b a.toNat → d'.regs.read x = d.regs.read x

/-- `WRITE_BYTES` against the devices, with nothing pending in the bridge, stores byte `k` at `DEV[b][a + k]` and nothing else
(R58, R70). -/
def Obligations.DeviceStoresBytes : Prop :=
  ∀ s count d b (a : Addr7) data, s.ready → s.env = { script := [], count := count, device := some d } → d.regs.wf →
    d.pending = none → bankOfPayload s.params (s.params.bankVal.get b) = some b →
    legalBurst s.params a.toNat data.length = true →
    (∀ k, k < data.length → a.toNat + k ≠ s.params.bankSelReg.toNat ∧
      (b = 3 → a.toNat + k ≠ s.params.brCtrlReg.toNat)) →
    ∃ t d', exec (.writeBytes (indexByte b) (addrByte a) data) s = .next t ∧ answeredWith s t [okStatus] ∧
      t.env.device = some d' ∧ d'.bank = b ∧
      (∀ (k : Nat) (hk : k < data.length), d'.regs.read (mainKey b (a.toNat + k)) = data[k]) ∧
      ∀ x, (∀ k, k < data.length → x ≠ mainKey b (a.toNat + k)) → d'.regs.read x = d.regs.read x

/-- `READ_BYTES` and `READ_U8` against the devices, with nothing pending in the bridge, change no register. Registers that no
sensor refreshes answer `DEV[b][a + k]` (R58, R70); sample registers, where the sensors refresh them, answer whatever bytes
`rx` the environment gives, whatever is stored there (R35, R66). -/
def Obligations.DeviceAnswersReads : Prop :=
  ∀ s script count d b (a : Addr7), s.ready →
    s.env = { script := script, count := count, device := some d } → d.pending = none →
    bankOfPayload s.params (s.params.bankVal.get b) = some b →
    (∀ len : Byte, script = [] → legalBurst s.params a.toNat len.toNat = true →
      (∀ k, k < len.toNat → a.toNat + k ≠ s.params.bankSelReg.toNat ∧ d.storeAnswers s.params b (a.toNat + k)) →
      ∃ t d', exec (.readBytes (indexByte b) (addrByte a) len) s = .next t ∧
        answeredWith s t (okStatus :: (List.range len.toNat).map fun k => d.regs.read (mainKey b (a.toNat + k))) ∧
        t.env.device = some d' ∧ d'.bank = b ∧ d'.regs = d.regs) ∧
    (script = [] → a ≠ s.params.bankSelReg → d.storeAnswers s.params b a.toNat →
      ∃ t d', exec (.readU8 (indexByte b) (addrByte a)) s = .next t ∧
        answeredWith s t [okStatus, d.regs.read (mainKey b a.toNat)] ∧
        t.env.device = some d' ∧ d'.bank = b ∧ d'.regs = d.regs) ∧
    (∀ rx : List Byte, script = (List.replicate 3 0x00#8 ++ rx).map doneAnswer →
      legalBurst s.params a.toNat rx.length = true → d.sampling ≠ .still →
      (∀ k, k < rx.length → a.toNat + k ≠ s.params.bankSelReg.toNat ∧
        mainSampleReg s.params b (a.toNat + k) = true) →
      ∃ t d', exec (.readBytes (indexByte b) (addrByte a) (BitVec.ofNat 8 rx.length)) s = .next t ∧
        answeredWith s t (okStatus :: rx) ∧ t.env.device = some d' ∧ d'.bank = b ∧ d'.regs = d.regs) ∧
    (∀ v : Byte, script = [0x00#8, 0x00#8, 0x00#8, v].map doneAnswer → a ≠ s.params.bankSelReg →
      d.sampling ≠ .still → mainSampleReg s.params b a.toNat = true →
      ∃ t d', exec (.readU8 (indexByte b) (addrByte a)) s = .next t ∧
        answeredWith s t [okStatus, v] ∧ t.env.device = some d' ∧ d'.bank = b ∧ d'.regs = d.regs)

/-- `BRIDGE_READ` of the magnetometer against the devices. Where the bridge completes within `T_BR2` (R150 b), it answers
`MAG[(r + k) mod 256]`, or for registers the sensor refreshes the samples that come (R35), and changes the three bridge
registers it programs and the relay window, nothing else. Where the bridge completes after the read-back, the transaction is
still pending, the window answers "whatever it held before" and is unchanged (R34, R62). -/
def Obligations.DeviceRelaysReads : Prop :=
  ∀ s count d r (len : Byte), s.ready → s.env = { script := [], count := count, device := some d } → d.regs.wf →
    d.pending = none → bridgeLayout s.params → legalBurst s.params s.params.relayReg.toNat len.toNat = true →
    (∀ k, k < len.toNat → s.params.relayReg.toNat + k ≠ s.params.bankSelReg.toNat ∧
      d.storeAnswers s.params 0 (s.params.relayReg.toNat + k)) →
    (settlesInTime s.params d →
      (∀ k, k < len.toNat → d.sampling = .still ∨ magSampleReg s.params (r + BitVec.ofNat 8 k) = false) →
      ∃ t d', exec (.bridgeRead (addrByte s.params.magAddr) r len) s = .next t ∧
        answeredWith s t
          (okStatus :: (List.range len.toNat).map fun k => d.regs.read (magKey ((r.toNat + k) % 256))) ∧
        t.env.device = some d' ∧ d'.pending = none ∧ d'.sampling = d.sampling ∧
        keptByRelayedRead s.params len.toNat d d') ∧
    (∀ bytes coming taken, settlesInTime s.params d → d.sampling = .moving (bytes ++ coming) taken →
      bytes.length = len.toNat → (∀ k, k < len.toNat → magSampleReg s.params (r + BitVec.ofNat 8 k) = true) →
      ∃ t d', exec (.bridgeRead (addrByte s.params.magAddr) r len) s = .next t ∧
        answeredWith s t (okStatus :: bytes) ∧
        t.env.device = some d' ∧ d'.pending = none ∧ d'.sampling = .moving coming (taken + len.toNat) ∧
        keptByRelayedRead s.params len.toNat d d') ∧
    (len.toNat + 9 ≤ d.timing.next.1.wait →
      ∃ t d', exec (.bridgeRead (addrByte s.params.magAddr) r len) s = .next t ∧
        answeredWith s t
          (okStatus :: (List.range len.toNat).map fun k =>
            d.regs.read (mainKey 0 (s.params.relayReg.toNat + k))) ∧
        t.env.device = some d' ∧ d'.pending ≠ none ∧ d'.sampling = d.sampling ∧
        keptByRelayedRead s.params 0 d d')

/-- `BRIDGE_WRITE` to the magnetometer against the devices. Where the bridge completes within `T_BR2` (R150 c), it stores the
byte at `MAG[r]`; it changes the four bridge registers it programs and nothing else. Where the bridge completes later, the
transaction is still pending at the response and "the follower register is not yet written" (R34). -/
def Obligations.DeviceRelaysWrites : Prop :=
  ∀ s count d r v, s.ready → s.env = { script := [], count := count, device := some d } → d.regs.wf →
    d.pending = none → bridgeLayout s.params →
    (settlesInTime s.params d →
      ∃ t d', exec (.bridgeWrite (addrByte s.params.magAddr) r v) s = .next t ∧ answeredWith s t [okStatus] ∧
        t.env.device = some d' ∧ d'.pending = none ∧ d'.regs.read (magKey r.toNat) = v ∧
        ∀ x, x ≠ mainKey 3 s.params.brAddrReg.toNat → x ≠ mainKey 3 s.params.brRegReg.toNat →
          x ≠ mainKey 3 s.params.brDoReg.toNat → x ≠ mainKey 3 s.params.brCtrlReg.toNat → x ≠ magKey r.toNat →
          d'.regs.read x = d.regs.read x) ∧
    (2 ≤ d.timing.next.1.wait →
      ∃ t d', exec (.bridgeWrite (addrByte s.params.magAddr) r v) s = .next t ∧ answeredWith s t [okStatus] ∧
        t.env.device = some d' ∧ d'.pending ≠ none ∧
        ∀ x, x ≠ mainKey 3 s.params.brAddrReg.toNat → x ≠ mainKey 3 s.params.brRegReg.toNat →
          x ≠ mainKey 3 s.params.brDoReg.toNat → x ≠ mainKey 3 s.params.brCtrlReg.toNat →
          d'.regs.read x = d.regs.read x)
end

