-- ==== Sys2Proof/Laws/Decode.lean ====
section
/-! SUPPORT. What the pieces of the decoder answer. -/

namespace Sys2Proof

/-- A split is a cut of the bytes at that length. -/
theorem splitBytes_eq_some {n : Nat} {bs tx rest : List Byte} :
    splitBytes n bs = some (tx, rest) ↔ bs = tx ++ rest ∧ tx.length = n := by
  induction n generalizing bs tx with
  | zero =>
    simp only [splitBytes, Option.some.injEq, Prod.mk.injEq, List.length_eq_zero_iff]
    constructor
    · rintro ⟨rfl, rfl⟩
      exact ⟨rfl, rfl⟩
    · rintro ⟨h, rfl⟩
      exact ⟨rfl, h⟩
  | succ n ih =>
    cases bs with
    | nil =>
      simp only [splitBytes, reduceCtorEq, false_iff]
      rintro ⟨h, hl⟩
      cases tx <;> simp_all
    | cons b bs =>
      simp only [splitBytes, Option.map_eq_some_iff, Prod.mk.injEq, Prod.exists]
      constructor
      · rintro ⟨tx', rest', h, rfl, rfl⟩
        obtain ⟨rfl, hl⟩ := ih.1 h
        exact ⟨rfl, by simp [hl]⟩
      · rintro ⟨h, hl⟩
        cases tx with
        | nil => simp at hl
        | cons c tx =>
          obtain ⟨rfl, rfl⟩ := List.cons_eq_cons.1 h
          exact ⟨tx, rest, ih.2 ⟨rfl, by simpa using hl⟩, rfl, rfl⟩

/-- A split fails exactly when there are too few bytes. -/
theorem splitBytes_eq_none {n : Nat} {bs : List Byte} : splitBytes n bs = none ↔ bs.length < n := by
  induction n generalizing bs with
  | zero => simp [splitBytes]
  | succ n ih =>
    cases bs with
    | nil => simp [splitBytes]
    | cons b bs => simp [splitBytes, ih]

theorem splitBytes_append (tx rest : List Byte) : splitBytes tx.length (tx ++ rest) = some (tx, rest) :=
  splitBytes_eq_some.2 ⟨rfl, rfl⟩

/-- A length below 256 is what its length byte says. -/
theorem lengthByte_toNat {bs : List Byte} (h : bs.length ≤ 255) : (lengthByte bs).toNat = bs.length := by
  simp only [lengthByte, BitVec.toNat_ofNat]
  omega

/-- The two halves of a command byte (R81). -/
theorem commandByte_msb (dir : Dir) (a : Addr7) : (commandByte dir a).msb = decide (dir = .read) := by
  cases dir <;> revert a <;> decide

theorem commandByte_addr (dir : Dir) (a : Addr7) : (commandByte dir a).setWidth 7 = a := by
  cases dir <;> revert a <;> decide

end Sys2Proof
end

