-- ==== Sys2Proof/Laws/Device.lean ====
section
/-! SUPPORT. The devices: what the bridge's pending transaction may do, and when (10_state.md R34); what a read of a sample
register answers (R35). -/

namespace Sys2Proof.Machine

section
variable (p : Params) (d : Device)

@[simp] theorem BridgeTiming.next_atTrigger :
    BridgeTiming.atTrigger.next = ({ wait := 0, repeats := false }, .atTrigger) := rfl
@[simp] theorem BridgeTiming.next_chosen (a : BridgeAnswer) (coming : List BridgeAnswer) (count : Nat) :
    (BridgeTiming.chosen (a :: coming) count).next = (a, .chosen coming (count + 1)) := rfl

@[simp] theorem Device.afterCompletion_bank (r : Bool) : (d.afterCompletion r).bank = d.bank := by
  unfold Device.afterCompletion; split <;> rfl
@[simp] theorem Device.afterCompletion_regs (r : Bool) : (d.afterCompletion r).regs = d.regs := by
  unfold Device.afterCompletion; split <;> rfl
@[simp] theorem Device.afterCompletion_frameTx (r : Bool) : (d.afterCompletion r).frameTx = d.frameTx := by
  unfold Device.afterCompletion; split <;> rfl
@[simp] theorem Device.afterCompletion_frameRx (r : Bool) : (d.afterCompletion r).frameRx = d.frameRx := by
  unfold Device.afterCompletion; split <;> rfl

/-! ### A transaction writes registers and takes samples, nothing else -/

theorem Device.depositReply_frame (r : Byte) (n j : Nat) :
    Device.depositReply p r n j d =
      { d with
        regs := (Device.depositReply p r n j d).regs
        sampling := (Device.depositReply p r n j d).sampling } := by
  induction n generalizing d j with
  | zero => rfl
  | succ n ih => exact ih (d.depositByte p r j) (j + 1)

theorem Device.transact_frame :
    d.transact p = { d with regs := (d.transact p).regs, sampling := (d.transact p).sampling } := by
  unfold Device.transact
  dsimp only
  split
  · split
    · exact d.depositReply_frame p _ _ _
    · rfl
  · rfl

@[simp] theorem Device.transact_bank : (d.transact p).bank = d.bank := by rw [d.transact_frame p]
@[simp] theorem Device.transact_pending : (d.transact p).pending = d.pending := by rw [d.transact_frame p]
@[simp] theorem Device.transact_timing : (d.transact p).timing = d.timing := by rw [d.transact_frame p]
@[simp] theorem Device.transact_frameTx : (d.transact p).frameTx = d.frameTx := by rw [d.transact_frame p]
@[simp] theorem Device.transact_frameRx : (d.transact p).frameRx = d.frameRx := by rw [d.transact_frame p]

theorem Device.depositReply_setPending (a : Option BridgeAnswer) (u : BridgeTiming) (r : Byte) (n j : Nat) :
    Device.depositReply p r n j { d with pending := a, timing := u } =
      { Device.depositReply p r n j d with pending := a, timing := u } := by
  induction n generalizing d j with
  | zero => rfl
  | succ n ih => exact ih (d.depositByte p r j) (j + 1)

/-- What a transaction does depends neither on what is pending nor on the timing. -/
theorem Device.transact_setPending (a : Option BridgeAnswer) (u : BridgeTiming) :
    ({ d with pending := a, timing := u } : Device).transact p =
      { d.transact p with pending := a, timing := u } := by
  unfold Device.transact
  dsimp only
  split
  · split
    · exact d.depositReply_setPending p a u _ _ _
    · rfl
  · rfl

/-! ### When it takes effect (R34) -/

/-- All that settling can do: nothing, while nothing is pending or its wait is not over; else the transaction. -/
theorem Device.settle_cases :
    (d.settle p = d ∧ ∀ a, d.pending = some a → a.wait ≠ 0) ∨
    ∃ a, d.pending = some a ∧ a.wait = 0 ∧
      d.settle p = (d.transact p).afterCompletion a.repeats := by
  unfold Device.settle
  split
  · rename_i h
    exact .inl ⟨rfl, by simp [h]⟩
  · rename_i a h
    split
    · rename_i h0
      exact .inr ⟨a, h, h0, rfl⟩
    · rename_i h0
      exact .inl ⟨rfl, fun b hb => by rw [h, Option.some.injEq] at hb; exact hb ▸ h0⟩

/-- The registers change by the whole transaction or not at all. -/
theorem Device.settle_regs : (d.settle p).regs = d.regs ∨ (d.settle p).regs = (d.transact p).regs := by
  rcases d.settle_cases p with ⟨h, -⟩ | ⟨a, -, -, h⟩ <;> rw [h]
  · exact .inl rfl
  · exact .inr (by simp)

@[simp] theorem Device.settle_bank : (d.settle p).bank = d.bank := by
  rcases d.settle_cases p with ⟨h, -⟩ | ⟨a, -, -, h⟩ <;> simp [h]
@[simp] theorem Device.settle_frameTx : (d.settle p).frameTx = d.frameTx := by
  rcases d.settle_cases p with ⟨h, -⟩ | ⟨a, -, -, h⟩ <;> simp [h]
@[simp] theorem Device.settle_frameRx : (d.settle p).frameRx = d.frameRx := by
  rcases d.settle_cases p with ⟨h, -⟩ | ⟨a, -, -, h⟩ <;> simp [h]

/-- With nothing pending the bridge does nothing. -/
theorem Device.tick_of_idle (h : d.pending = none) : d.tick p = d := by
  simp [Device.tick, h]

/-- A transaction that must wait longer than one event changes no register at that event (R34). -/
theorem Device.tick_of_waiting {n : Nat} {r : Bool} (h : d.pending = some { wait := n + 2, repeats := r }) :
    d.tick p = { d with pending := some { wait := n + 1, repeats := r } } := by
  simp [Device.tick, Device.settle, h]

/-- At the last event of its wait the transaction takes effect; one that does not repeat leaves nothing pending (R34). -/
theorem Device.tick_completes (h : d.pending = some { wait := 1, repeats := false }) :
    d.tick p = { d.transact p with pending := none } := by
  simp [Device.tick, Device.settle, Device.afterCompletion, Device.transact_setPending, h]

/-- A trigger whose transaction completes at once and does not repeat, as in the reference device of R70. -/
theorem Device.trigger_at_once (h : d.timing.next.1 = { wait := 0, repeats := false }) :
    d.trigger p = { d.transact p with pending := none, timing := d.timing.next.2 } := by
  simp [Device.trigger, Device.settle, Device.afterCompletion, Device.transact_setPending, h]

/-- A trigger whose transaction completes later changes no register (R34). -/
theorem Device.trigger_waits (h : d.timing.next.1.wait ≠ 0) :
    d.trigger p = { d with pending := some d.timing.next.1, timing := d.timing.next.2 } := by
  simp [Device.trigger, Device.settle, h]

/-! ### Samples (R35) -/

/-- A follower register that no sensor refreshes is answered from the store. -/
theorem Device.followerByte_stored {r : Byte} (h : d.sampling = .still ∨ magSampleReg p r = false) :
    d.followerByte p r = (d.regs.read (magKey r.toNat), d.sampling) := by
  unfold Device.followerByte
  rcases h with h | h <;> simp [h, Sampling.next]

/-- A follower register that its sensor refreshes is answered by the next sample, whatever is stored there. -/
theorem Device.followerByte_sampled {r b : Byte} {coming : List Byte} {count : Nat}
    (h : d.sampling = .moving (b :: coming) count) (hr : magSampleReg p r = true) :
    d.followerByte p r = (b, .moving coming (count + 1)) := by
  simp [Device.followerByte, h, hr, Sampling.next]

/-- A sample register read by a frame is answered by the environment, whatever is stored there. -/
theorem Device.reply_sampled {c : Byte} {sent : List Byte} {free : Byte} (htx : d.frameTx = c :: sent)
    (hsel : (c.setWidth 7).toNat + d.frameRx ≠ p.bankSelReg.toNat)
    (h : d.sampledHere p ((c.setWidth 7).toNat + d.frameRx) = true) : d.reply p free = free := by
  unfold Device.reply
  rw [htx]
  dsimp only
  rw [if_neg hsel, if_pos h, ite_self]

end

end Sys2Proof.Machine
end

