-- ==== Sys2Proof/Laws/Memory.lean ====
section
/-! SUPPORT. The memory of the devices: read after write, and every operation keeps the canonical form. -/

namespace Sys2Proof.Machine

theorem Memory.wf_nil : Memory.wf [] := ⟨List.Pairwise.nil, by simp⟩

/-- A well-formed memory: its head, and its tail. -/
theorem Memory.wf_cons {c : Host.Cell} {m : Memory} :
    Memory.wf (c :: m) ↔
      (∀ d ∈ m, c.1 < d.1) ∧ c.1 < Memory.size ∧ c.2 ≠ Memory.unlisted ∧ Memory.wf m := by
  simp only [Memory.wf, List.pairwise_cons, List.mem_cons, forall_eq_or_imp]
  tauto

/-- An address below every listed one reads as unlisted. -/
theorem Memory.read_of_lt {m : Memory} {a : Nat} (h : ∀ d ∈ m, a < d.1) :
    Memory.read m a = Memory.unlisted := by
  induction m with
  | nil => rfl
  | cons c m ih =>
    have hc := h c (by simp)
    simp only [Memory.read]
    rw [if_neg (by omega)]
    exact ih fun d hd => h d (by simp [hd])

/-- Writing an address leaves the others alone. -/
theorem Memory.read_write_ne {a b : Nat} (v : Byte) (h : b ≠ a) (m : Memory) :
    (m.write a v).read b = m.read b := by
  induction m with
  | nil =>
    simp only [Memory.write]
    split
    · rfl
    · simp [Memory.read, Ne.symm h]
  | cons c m ih =>
    obtain ⟨k, w⟩ := c
    simp only [Memory.write]
    split
    · split
      · rfl
      · simp [Memory.read, Ne.symm h]
    · split
      · rename_i _ hk
        subst hk
        split <;> simp [Memory.read, Ne.symm h]
      · simp only [Memory.read, ih]

/-- A read after a write to the same address gives the byte written. -/
theorem Memory.read_write_self {m : Memory} (a : Nat) (v : Byte) (h : m.wf) : (m.write a v).read a = v := by
  induction m with
  | nil =>
    simp only [Memory.write]
    split
    · rename_i hv; rw [hv]; rfl
    · simp [Memory.read]
  | cons c m ih =>
    obtain ⟨k, w⟩ := c
    obtain ⟨hlt, -, -, hm⟩ := Memory.wf_cons.1 h
    simp only [Memory.write]
    split
    · rename_i hak
      split
      · rename_i hv
        rw [hv]
        exact Memory.read_of_lt (by
          intro d hd
          rcases List.mem_cons.1 hd with rfl | hd
          · exact hak
          · exact lt_trans hak (hlt d hd))
      · simp [Memory.read]
    · split
      · rename_i _ hk
        subst hk
        split
        · rename_i hv; rw [hv]; exact Memory.read_of_lt hlt
        · simp [Memory.read]
      · rename_i _ hk
        simp only [Memory.read]
        rw [if_neg (Ne.symm hk)]
        exact ih hm

/-- Where the cells of a written memory come from. -/
theorem Memory.mem_write {m : Memory} {a : Nat} {v : Byte} {d : Host.Cell} (h : d ∈ m.write a v) :
    d ∈ m ∨ (d = (a, v) ∧ v ≠ Memory.unlisted) := by
  induction m with
  | nil =>
    simp only [Memory.write] at h
    split at h
    · simp at h
    · rename_i hv; exact Or.inr ⟨by simpa using h, hv⟩
  | cons c m ih =>
    obtain ⟨k, w⟩ := c
    simp only [Memory.write] at h
    split at h
    · split at h
      · exact Or.inl h
      · rename_i hv
        rcases List.mem_cons.1 h with rfl | h
        · exact Or.inr ⟨rfl, hv⟩
        · exact Or.inl h
    · split at h
      · split at h
        · exact Or.inl (List.mem_cons_of_mem _ h)
        · rename_i hv
          rcases List.mem_cons.1 h with rfl | h
          · exact Or.inr ⟨rfl, hv⟩
          · exact Or.inl (List.mem_cons_of_mem _ h)
      · rcases List.mem_cons.1 h with rfl | h
        · exact Or.inl (by simp)
        · rcases ih h with h | h
          · exact Or.inl (List.mem_cons_of_mem _ h)
          · exact Or.inr h

/-- A write keeps the canonical form. -/
theorem Memory.wf_write {m : Memory} {a : Nat} {v : Byte} (h : m.wf) (ha : a < Memory.size) :
    (m.write a v).wf := by
  induction m with
  | nil =>
    simp only [Memory.write]
    split
    · exact Memory.wf_nil
    · rename_i hv
      exact Memory.wf_cons.2 ⟨by simp, ha, hv, Memory.wf_nil⟩
  | cons c m ih =>
    obtain ⟨k, w⟩ := c
    obtain ⟨hlt, hk, hw, hm⟩ := Memory.wf_cons.1 h
    simp only [Memory.write]
    split
    · rename_i hak
      split
      · exact h
      · rename_i hv
        refine Memory.wf_cons.2 ⟨?_, ha, hv, h⟩
        intro d hd
        rcases List.mem_cons.1 hd with rfl | hd
        · exact hak
        · exact lt_trans hak (hlt d hd)
    · split
      · rename_i _ hka
        subst hka
        split
        · exact hm
        · rename_i hv
          exact Memory.wf_cons.2 ⟨hlt, ha, hv, hm⟩
      · rename_i hna hne
        refine Memory.wf_cons.2 ⟨?_, hk, hw, ih hm⟩
        intro d hd
        rcases Memory.mem_write hd with hd | ⟨rfl, -⟩
        · exact hlt d hd
        · show k < a
          omega

theorem mainKey_lt {bank : Bank} {a : Nat} (h : a < 128) : mainKey bank a < Memory.size := by
  have := bank.isLt
  simp only [mainKey, Memory.size]
  omega

theorem magKey_lt {r : Nat} (h : r < 256) : magKey r < Memory.size := by
  simp only [magKey, Memory.size]
  omega

/-- Two main-device registers share a key only if they are the same register. -/
theorem mainKey_inj {b c : Bank} {x y : Nat} (hx : x < 128) (hy : y < 128) :
    mainKey b x = mainKey c y ↔ b = c ∧ x = y := by
  have := b.isLt
  have := c.isLt
  simp only [mainKey]
  constructor
  · intro h
    have : b.val = c.val := by omega
    exact ⟨Fin.ext this, by omega⟩
  · rintro ⟨rfl, rfl⟩; rfl

theorem Device.depositReply_wf {p : Params} {d : Device} (r : Byte) (n j : Nat) (h : d.regs.wf) :
    (Device.depositReply p r n j d).regs.wf := by
  induction n generalizing j d with
  | zero => exact h
  | succ n ih =>
    apply ih
    simp only [Device.depositByte]
    split
    · rename_i hw; exact Memory.wf_write h (mainKey_lt hw)
    · exact h

theorem Device.transact_wf {p : Params} {d : Device} (h : d.regs.wf) : (d.transact p).regs.wf := by
  simp only [Device.transact]
  split
  · split
    · exact Device.depositReply_wf _ _ _ h
    · exact Memory.wf_write h (magKey_lt (BitVec.isLt _))
  · exact h

theorem Device.settle_wf {p : Params} {d : Device} (h : d.regs.wf) : (d.settle p).regs.wf := by
  rcases d.settle_regs p with h' | h' <;> rw [h']
  · exact h
  · exact Device.transact_wf h

theorem Device.trigger_wf {p : Params} {d : Device} (h : d.regs.wf) : (d.trigger p).regs.wf :=
  Device.settle_wf (d := { d with pending := some d.timing.next.1, timing := d.timing.next.2 }) h

theorem Device.tick_wf {p : Params} {d : Device} (h : d.regs.wf) : (d.tick p).regs.wf := by
  simp only [Device.tick]
  split
  · exact h
  · exact Device.settle_wf h

theorem Device.writeByte_wf {p : Params} {d : Device} (a : Nat) (v : Byte) (h : d.regs.wf) :
    (d.writeByte p a v).regs.wf := by
  simp only [Device.writeByte]
  split
  · split <;> exact h
  · split
    · rename_i ha
      have hw := Memory.wf_write (v := v) h (mainKey_lt (bank := d.bank) ha)
      split
      · exact Device.trigger_wf hw
      · exact hw
    · exact h

theorem Device.writeBytes_wf {p : Params} (vs : List Byte) {d : Device} (a : Nat) (h : d.regs.wf) :
    (d.writeBytes p a vs).regs.wf := by
  induction vs generalizing d a with
  | nil => exact h
  | cons v vs ih => exact ih _ (Device.writeByte_wf a v h)

theorem Device.frameEvent_wf {p : Params} {d : Device} (ev : Event) (h : d.regs.wf) :
    (d.frameEvent p ev).regs.wf := by
  cases ev with
  | csHigh =>
    simp only [Device.frameEvent, Device.closeFrame]
    split
    · exact h
    · split
      · exact h
      · exact Device.writeBytes_wf _ _ h
  | csLow => exact h
  | tx b => exact h
  | rx b => exact h
  | delay n => exact h

/-- Every event keeps the device's memory in canonical form. -/
theorem Device.onEvent_wf {p : Params} {d : Device} (ev : Event) (h : d.regs.wf) : (d.onEvent p ev).regs.wf :=
  Device.frameEvent_wf ev (Device.tick_wf h)

theorem Env.observe_wf {p : Params} {e : Env} (ev : Event) (h : e.wf) : (e.observe p ev).wf := by
  intro d hd
  simp only [Env.observe, Option.map_eq_some_iff] at hd
  obtain ⟨d0, h0, rfl⟩ := hd
  exact Device.onEvent_wf ev (h d0 h0)

/-- An answer leaves the device as it was. -/
theorem Env.next_device (e : Env) : e.next.2.device = e.device := by
  obtain ⟨script, count, device⟩ := e
  cases script <;> cases device <;> rfl

theorem Env.next_wf {e : Env} (h : e.wf) : e.next.2.wf := by
  intro d hd
  rw [Env.next_device] at hd
  exact h d hd

theorem Env.reset_wf : Env.reset.wf := by
  intro d hd
  cases hd

end Sys2Proof.Machine
end

