-- ==== Sys2Proof/Laws/State.lean ====
section
/-! SUPPORT. One lemma per field per update of the state: later proofs unfold no record update. -/

namespace Sys2Proof.Machine

section
variable (s : State)

@[simp] theorem State.record_params (ev : Event) : (s.record ev).params = s.params := rfl
@[simp] theorem State.record_sfGyro (ev : Event) : (s.record ev).sfGyro = s.sfGyro := rfl
@[simp] theorem State.record_sfAccel (ev : Event) : (s.record ev).sfAccel = s.sfAccel := rfl
@[simp] theorem State.record_seq (ev : Event) : (s.record ev).seq = s.seq := rfl
@[simp] theorem State.record_cs (ev : Event) : (s.record ev).cs = s.cs := rfl
@[simp] theorem State.record_tr (ev : Event) : (s.record ev).tr = s.tr ++ [ev] := rfl
@[simp] theorem State.record_portIn (ev : Event) : (s.record ev).portIn = s.portIn := rfl
@[simp] theorem State.record_busReq (ev : Event) : (s.record ev).busReq = s.busReq := rfl
@[simp] theorem State.record_responses (ev : Event) : (s.record ev).responses = s.responses := rfl
@[simp] theorem State.record_env (ev : Event) : (s.record ev).env = s.env.observe s.params ev := rfl

@[simp] theorem State.setCs_params (v : Level) : (s.setCs v).params = s.params := rfl
@[simp] theorem State.setCs_sfGyro (v : Level) : (s.setCs v).sfGyro = s.sfGyro := rfl
@[simp] theorem State.setCs_sfAccel (v : Level) : (s.setCs v).sfAccel = s.sfAccel := rfl
@[simp] theorem State.setCs_seq (v : Level) : (s.setCs v).seq = s.seq := rfl
@[simp] theorem State.setCs_cs (v : Level) : (s.setCs v).cs = v := rfl
@[simp] theorem State.setCs_tr (v : Level) : (s.setCs v).tr = s.tr := rfl
@[simp] theorem State.setCs_portIn (v : Level) : (s.setCs v).portIn = s.portIn := rfl
@[simp] theorem State.setCs_busReq (v : Level) : (s.setCs v).busReq = s.busReq := rfl
@[simp] theorem State.setCs_responses (v : Level) : (s.setCs v).responses = s.responses := rfl
@[simp] theorem State.setCs_env (v : Level) : (s.setCs v).env = s.env := rfl

@[simp] theorem State.setSeq_params (v : Seq) : (s.setSeq v).params = s.params := rfl
@[simp] theorem State.setSeq_sfGyro (v : Seq) : (s.setSeq v).sfGyro = s.sfGyro := rfl
@[simp] theorem State.setSeq_sfAccel (v : Seq) : (s.setSeq v).sfAccel = s.sfAccel := rfl
@[simp] theorem State.setSeq_seq (v : Seq) : (s.setSeq v).seq = v := rfl
@[simp] theorem State.setSeq_cs (v : Seq) : (s.setSeq v).cs = s.cs := rfl
@[simp] theorem State.setSeq_tr (v : Seq) : (s.setSeq v).tr = s.tr := rfl
@[simp] theorem State.setSeq_portIn (v : Seq) : (s.setSeq v).portIn = s.portIn := rfl
@[simp] theorem State.setSeq_busReq (v : Seq) : (s.setSeq v).busReq = s.busReq := rfl
@[simp] theorem State.setSeq_responses (v : Seq) : (s.setSeq v).responses = s.responses := rfl
@[simp] theorem State.setSeq_env (v : Seq) : (s.setSeq v).env = s.env := rfl

@[simp] theorem State.setSfGyro_params (q : Ratio) : (s.setSfGyro q).params = s.params := rfl
@[simp] theorem State.setSfGyro_sfGyro (q : Ratio) : (s.setSfGyro q).sfGyro = some q := rfl
@[simp] theorem State.setSfGyro_sfAccel (q : Ratio) : (s.setSfGyro q).sfAccel = s.sfAccel := rfl
@[simp] theorem State.setSfGyro_seq (q : Ratio) : (s.setSfGyro q).seq = s.seq := rfl
@[simp] theorem State.setSfGyro_cs (q : Ratio) : (s.setSfGyro q).cs = s.cs := rfl
@[simp] theorem State.setSfGyro_tr (q : Ratio) : (s.setSfGyro q).tr = s.tr := rfl
@[simp] theorem State.setSfGyro_portIn (q : Ratio) : (s.setSfGyro q).portIn = s.portIn := rfl
@[simp] theorem State.setSfGyro_busReq (q : Ratio) : (s.setSfGyro q).busReq = s.busReq := rfl
@[simp] theorem State.setSfGyro_responses (q : Ratio) : (s.setSfGyro q).responses = s.responses := rfl
@[simp] theorem State.setSfGyro_env (q : Ratio) : (s.setSfGyro q).env = s.env := rfl

@[simp] theorem State.setSfAccel_params (q : Ratio) : (s.setSfAccel q).params = s.params := rfl
@[simp] theorem State.setSfAccel_sfGyro (q : Ratio) : (s.setSfAccel q).sfGyro = s.sfGyro := rfl
@[simp] theorem State.setSfAccel_sfAccel (q : Ratio) : (s.setSfAccel q).sfAccel = some q := rfl
@[simp] theorem State.setSfAccel_seq (q : Ratio) : (s.setSfAccel q).seq = s.seq := rfl
@[simp] theorem State.setSfAccel_cs (q : Ratio) : (s.setSfAccel q).cs = s.cs := rfl
@[simp] theorem State.setSfAccel_tr (q : Ratio) : (s.setSfAccel q).tr = s.tr := rfl
@[simp] theorem State.setSfAccel_portIn (q : Ratio) : (s.setSfAccel q).portIn = s.portIn := rfl
@[simp] theorem State.setSfAccel_busReq (q : Ratio) : (s.setSfAccel q).busReq = s.busReq := rfl
@[simp] theorem State.setSfAccel_responses (q : Ratio) : (s.setSfAccel q).responses = s.responses := rfl
@[simp] theorem State.setSfAccel_env (q : Ratio) : (s.setSfAccel q).env = s.env := rfl

@[simp] theorem State.setEnv_params (e : Env) : (s.setEnv e).params = s.params := rfl
@[simp] theorem State.setEnv_sfGyro (e : Env) : (s.setEnv e).sfGyro = s.sfGyro := rfl
@[simp] theorem State.setEnv_sfAccel (e : Env) : (s.setEnv e).sfAccel = s.sfAccel := rfl
@[simp] theorem State.setEnv_seq (e : Env) : (s.setEnv e).seq = s.seq := rfl
@[simp] theorem State.setEnv_cs (e : Env) : (s.setEnv e).cs = s.cs := rfl
@[simp] theorem State.setEnv_tr (e : Env) : (s.setEnv e).tr = s.tr := rfl
@[simp] theorem State.setEnv_portIn (e : Env) : (s.setEnv e).portIn = s.portIn := rfl
@[simp] theorem State.setEnv_busReq (e : Env) : (s.setEnv e).busReq = s.busReq := rfl
@[simp] theorem State.setEnv_responses (e : Env) : (s.setEnv e).responses = s.responses := rfl
@[simp] theorem State.setEnv_env (e : Env) : (s.setEnv e).env = e := rfl

@[simp] theorem State.setPortIn_params (bs : List Byte) : (s.setPortIn bs).params = s.params := rfl
@[simp] theorem State.setPortIn_sfGyro (bs : List Byte) : (s.setPortIn bs).sfGyro = s.sfGyro := rfl
@[simp] theorem State.setPortIn_sfAccel (bs : List Byte) : (s.setPortIn bs).sfAccel = s.sfAccel := rfl
@[simp] theorem State.setPortIn_seq (bs : List Byte) : (s.setPortIn bs).seq = s.seq := rfl
@[simp] theorem State.setPortIn_cs (bs : List Byte) : (s.setPortIn bs).cs = s.cs := rfl
@[simp] theorem State.setPortIn_tr (bs : List Byte) : (s.setPortIn bs).tr = s.tr := rfl
@[simp] theorem State.setPortIn_portIn (bs : List Byte) : (s.setPortIn bs).portIn = bs := rfl
@[simp] theorem State.setPortIn_busReq (bs : List Byte) : (s.setPortIn bs).busReq = s.busReq := rfl
@[simp] theorem State.setPortIn_responses (bs : List Byte) : (s.setPortIn bs).responses = s.responses := rfl
@[simp] theorem State.setPortIn_env (bs : List Byte) : (s.setPortIn bs).env = s.env := rfl

@[simp] theorem State.setBusReq_params (q : Option FrameReq) : (s.setBusReq q).params = s.params := rfl
@[simp] theorem State.setBusReq_sfGyro (q : Option FrameReq) : (s.setBusReq q).sfGyro = s.sfGyro := rfl
@[simp] theorem State.setBusReq_sfAccel (q : Option FrameReq) : (s.setBusReq q).sfAccel = s.sfAccel := rfl
@[simp] theorem State.setBusReq_seq (q : Option FrameReq) : (s.setBusReq q).seq = s.seq := rfl
@[simp] theorem State.setBusReq_cs (q : Option FrameReq) : (s.setBusReq q).cs = s.cs := rfl
@[simp] theorem State.setBusReq_tr (q : Option FrameReq) : (s.setBusReq q).tr = s.tr := rfl
@[simp] theorem State.setBusReq_portIn (q : Option FrameReq) : (s.setBusReq q).portIn = s.portIn := rfl
@[simp] theorem State.setBusReq_busReq (q : Option FrameReq) : (s.setBusReq q).busReq = q := rfl
@[simp] theorem State.setBusReq_responses (q : Option FrameReq) : (s.setBusReq q).responses = s.responses := rfl
@[simp] theorem State.setBusReq_env (q : Option FrameReq) : (s.setBusReq q).env = s.env := rfl

@[simp] theorem State.send_params (pkt : List Byte) : (s.send pkt).params = s.params := rfl
@[simp] theorem State.send_sfGyro (pkt : List Byte) : (s.send pkt).sfGyro = s.sfGyro := rfl
@[simp] theorem State.send_sfAccel (pkt : List Byte) : (s.send pkt).sfAccel = s.sfAccel := rfl
@[simp] theorem State.send_seq (pkt : List Byte) : (s.send pkt).seq = s.seq := rfl
@[simp] theorem State.send_cs (pkt : List Byte) : (s.send pkt).cs = s.cs := rfl
@[simp] theorem State.send_tr (pkt : List Byte) : (s.send pkt).tr = s.tr := rfl
@[simp] theorem State.send_portIn (pkt : List Byte) : (s.send pkt).portIn = s.portIn := rfl
@[simp] theorem State.send_busReq (pkt : List Byte) : (s.send pkt).busReq = s.busReq := rfl
@[simp] theorem State.send_responses (pkt : List Byte) : (s.send pkt).responses = s.responses ++ [pkt] := rfl
@[simp] theorem State.send_env (pkt : List Byte) : (s.send pkt).env = s.env := rfl

@[simp] theorem State.advance_params (es : List Event) (e : Env) : (s.advance es e).params = s.params := rfl
@[simp] theorem State.advance_sfGyro (es : List Event) (e : Env) : (s.advance es e).sfGyro = s.sfGyro := rfl
@[simp] theorem State.advance_sfAccel (es : List Event) (e : Env) : (s.advance es e).sfAccel = s.sfAccel := rfl
@[simp] theorem State.advance_seq (es : List Event) (e : Env) : (s.advance es e).seq = s.seq := rfl
@[simp] theorem State.advance_cs (es : List Event) (e : Env) : (s.advance es e).cs = csAfter s.cs es := rfl
@[simp] theorem State.advance_tr (es : List Event) (e : Env) : (s.advance es e).tr = s.tr ++ es := rfl
@[simp] theorem State.advance_portIn (es : List Event) (e : Env) : (s.advance es e).portIn = s.portIn := rfl
@[simp] theorem State.advance_busReq (es : List Event) (e : Env) : (s.advance es e).busReq = s.busReq := rfl
@[simp] theorem State.advance_responses (es : List Event) (e : Env) : (s.advance es e).responses = s.responses := rfl
@[simp] theorem State.advance_env (es : List Event) (e : Env) : (s.advance es e).env = e := rfl

@[simp] theorem State.beginFrame_params : (s.beginFrame).params = s.params := rfl
@[simp] theorem State.beginFrame_sfGyro : (s.beginFrame).sfGyro = s.sfGyro := rfl
@[simp] theorem State.beginFrame_sfAccel : (s.beginFrame).sfAccel = s.sfAccel := rfl
@[simp] theorem State.beginFrame_seq : (s.beginFrame).seq = s.seq := rfl
@[simp] theorem State.beginFrame_cs : (s.beginFrame).cs = .low := rfl
@[simp] theorem State.beginFrame_tr : (s.beginFrame).tr = s.tr ++ [.csLow] := rfl
@[simp] theorem State.beginFrame_portIn : (s.beginFrame).portIn = s.portIn := rfl
@[simp] theorem State.beginFrame_busReq : (s.beginFrame).busReq = s.busReq := rfl
@[simp] theorem State.beginFrame_responses : (s.beginFrame).responses = s.responses := rfl
@[simp] theorem State.beginFrame_env : (s.beginFrame).env = s.env.observe s.params .csLow := rfl

@[simp] theorem State.endFrame_params : (s.endFrame).params = s.params := rfl
@[simp] theorem State.endFrame_sfGyro : (s.endFrame).sfGyro = s.sfGyro := rfl
@[simp] theorem State.endFrame_sfAccel : (s.endFrame).sfAccel = s.sfAccel := rfl
@[simp] theorem State.endFrame_seq : (s.endFrame).seq = s.seq := rfl
@[simp] theorem State.endFrame_cs : (s.endFrame).cs = .high := rfl
@[simp] theorem State.endFrame_tr : (s.endFrame).tr = s.tr ++ [.csHigh] := rfl
@[simp] theorem State.endFrame_portIn : (s.endFrame).portIn = s.portIn := rfl
@[simp] theorem State.endFrame_busReq : (s.endFrame).busReq = s.busReq := rfl
@[simp] theorem State.endFrame_responses : (s.endFrame).responses = s.responses := rfl
@[simp] theorem State.endFrame_env : (s.endFrame).env = s.env.observe s.params .csHigh := rfl

@[simp] theorem State.respondOk_params (pl : List Byte) : (State.respondOk pl s).params = s.params := rfl
@[simp] theorem State.respondOk_sfGyro (pl : List Byte) : (State.respondOk pl s).sfGyro = s.sfGyro := rfl
@[simp] theorem State.respondOk_sfAccel (pl : List Byte) : (State.respondOk pl s).sfAccel = s.sfAccel := rfl
@[simp] theorem State.respondOk_seq (pl : List Byte) : (State.respondOk pl s).seq = .idle := rfl
@[simp] theorem State.respondOk_cs (pl : List Byte) : (State.respondOk pl s).cs = s.cs := rfl
@[simp] theorem State.respondOk_tr (pl : List Byte) : (State.respondOk pl s).tr = s.tr := rfl
@[simp] theorem State.respondOk_portIn (pl : List Byte) : (State.respondOk pl s).portIn = s.portIn := rfl
@[simp] theorem State.respondOk_busReq (pl : List Byte) : (State.respondOk pl s).busReq = s.busReq := rfl
@[simp] theorem State.respondOk_responses (pl : List Byte) : (State.respondOk pl s).responses = s.responses ++ [0x00#8 :: pl] := rfl
@[simp] theorem State.respondOk_env (pl : List Byte) : (State.respondOk pl s).env = s.env := rfl

end

end Sys2Proof.Machine
end

