-- ==== Sys2Proof/Laws/Op.lean ====
section
/-! SUPPORT. How an operation runs: each primitive applied to a state, sequencing, and the two composable descriptions
that later proofs cite: `Performs` (an operation succeeds with these events) and `Raises` (it ends in this exception after
these events). -/

namespace Sys2Proof.Machine

/-! ### Primitives applied to a state -/

section apply
variable {α β : Type} (s : State)

theorem Op.bind_apply (x : Op α) (f : α → Op β) :
    (x >>= f) s = match x s with
      | (.ok a, t) => f a t
      | (.error e, t) => (.error e, t) := by
  rcases h : x s with ⟨_ | _, _⟩ <;>
    simp [bind, ExceptT.bind, ExceptT.mk, StateT.bind, h, ExceptT.bindCont, pure, StateT.pure]

theorem Op.tryCatch_apply (x : Op α) (f : Error → Op α) :
    (tryCatch x f : Op α) s = match x s with
      | (.ok a, t) => (.ok a, t)
      | (.error e, t) => f e t := by
  rcases h : x s with ⟨_ | _, _⟩ <;>
    simp [tryCatch, tryCatchThe, MonadExceptOf.tryCatch, ExceptT.tryCatch, bind, ExceptT.mk, StateT.bind, h, pure,
      StateT.pure]

theorem Op.pure_apply (a : α) : (pure a : Op α) s = (.ok a, s) := rfl

theorem Op.modify_apply (g : State → State) : (modify g : Op Unit) s = (.ok (), g s) := rfl

theorem Op.get_apply : (get : Op State) s = (.ok s, s) := rfl

theorem Op.set_apply (t : State) : (set t : Op Unit) s = (.ok (), t) := rfl

theorem raise_apply (e : Error) : (raise e : Op α) s = (.error e, s.closeFrame) := rfl

theorem parameters_apply : parameters s = (.ok s.params, s) := rfl

theorem emit_apply (ev : Event) : emit ev s = (.ok (), s.record ev) := rfl

theorem answer_apply : answer s = (.ok s.env.next.1, s.setEnv s.env.next.2) := rfl

theorem Op.bind_ok {x : Op α} {f : α → Op β} {a : α} {t : State} (h : x s = (.ok a, t)) : (x >>= f) s = f a t := by
  rw [Op.bind_apply, h]

theorem Op.bind_error {x : Op α} {f : α → Op β} {e : Error} {t : State} (h : x s = (.error e, t)) :
    (x >>= f) s = (.error e, t) := by
  rw [Op.bind_apply, h]

theorem State.closeFrame_of_high {t : State} (h : t.cs = .high) : t.closeFrame = t := by
  simp [State.closeFrame, h]

end apply

/-! ### Events -/

theorem csAfter_append (c : Level) (es fs : List Event) : csAfter c (es ++ fs) = csAfter (csAfter c es) fs := by
  induction es generalizing c with
  | nil => rfl
  | cons ev es ih => cases ev <;> simpa [csAfter] using ih _

theorem Env.run_append (p : Params) (es fs : List Event) (e : Env) :
    e.run p (es ++ fs) = (e.run p es).bind fun e' => e'.run p fs := by
  induction es generalizing e with
  | nil => rfl
  | cons ev es ih =>
    cases ev with
    | csLow => simpa [Env.run] using ih _
    | csHigh => simpa [Env.run] using ih _
    | delay d => simpa [Env.run] using ih _
    | tx b =>
      simp only [List.cons_append, Env.run]
      split
      · exact ih _
      · rfl
    | rx r =>
      simp only [List.cons_append, Env.run]
      split
      · exact ih _
      · rfl

/-- An environment that lets `es ++ fs` happen lets `es` happen, and then `fs`. -/
theorem Env.run_split {p : Params} {es fs : List Event} {e e' : Env} (h : e.run p (es ++ fs) = some e') :
    ∃ m, e.run p es = some m ∧ m.run p fs = some e' := by
  rw [Env.run_append] at h
  exact Option.bind_eq_some_iff.1 h

theorem State.advance_nil (s : State) : s.advance [] s.env = s := by
  simp [State.advance, csAfter]

theorem State.advance_advance (s : State) (es fs : List Event) (e e' : Env) :
    (s.advance es e).advance fs e' = s.advance (es ++ fs) e' := by
  simp [State.advance, csAfter_append]

theorem State.beginFrame_eq (s : State) : s.beginFrame = s.advance [.csLow] (s.env.observe s.params .csLow) := rfl

theorem State.endFrame_eq (s : State) : s.endFrame = s.advance [.csHigh] (s.env.observe s.params .csHigh) := rfl

/-- `CS` is high after a frame, whatever it was before. -/
theorem csAfter_frameEvents (c : Level) (tx rx : List Byte) : csAfter c (frameEvents tx rx) = .high := by
  simp [frameEvents, csAfter_append, csAfter]

theorem csAfter_readEvents (c : Level) (p : Params) (r : RegAddr) (rx : List Byte) :
    csAfter c (readEvents p r rx) = .high := by
  simp [readEvents, csAfter_append, csAfter_frameEvents]

theorem csAfter_writeEvents (c : Level) (p : Params) (r : RegAddr) (d : List Byte) :
    csAfter c (writeEvents p r d) = .high := by
  simp [writeEvents, csAfter_append, csAfter_frameEvents]

theorem csAfter_delayEvents (c : Level) (d : Nat) : csAfter c (delayEvents d) = c := by
  unfold delayEvents
  split <;> rfl

theorem csAfter_bridgeReadEvents (c : Level) (p : Params) (f : Addr7) (r : Byte) (rx : List Byte) :
    csAfter c (bridgeReadEvents p f r rx) = .high := by
  simp [bridgeReadEvents, csAfter_append, csAfter_readEvents]

theorem csAfter_bridgeWriteEvents (c : Level) (p : Params) (f : Addr7) (r v : Byte) :
    csAfter c (bridgeWriteEvents p f r v) = .high := by
  simp [bridgeWriteEvents, csAfter_append, csAfter_writeEvents, csAfter_delayEvents]

/-! ### Operations that succeed, and operations that raise -/

/-- With parameters `p`, and an environment that lets `es` happen, the operation succeeds with `a`, and its events are
`es`. -/
def Performs {α : Type} (op : Op α) (p : Params) (es : List Event) (a : α) : Prop :=
  ∀ s e, s.params = p → s.env.run p es = some e → op s = (.ok a, s.advance es e)

/-- With parameters `p`, and an environment that lets `es` happen, the operation raises `err` after the events `es`. -/
def Raises {α : Type} (op : Op α) (p : Params) (es : List Event) (err : Error) : Prop :=
  ∀ s e, s.params = p → s.env.run p es = some e → op s = (.error err, (s.advance es e).closeFrame)

section
variable {α β : Type} {p : Params} {es fs : List Event}

theorem Performs.pure (a : α) : Performs (pure a : Op α) p [] a := by
  intro s e _ h
  cases h
  rw [State.advance_nil]
  rfl

theorem Performs.bind {op : Op α} {f : α → Op β} {a : α} {b : β} (h : Performs op p es a)
    (h' : Performs (f a) p fs b) : Performs (op >>= f) p (es ++ fs) b := by
  intro s e hp hrun
  obtain ⟨m, h1, h2⟩ := Env.run_split hrun
  rw [Op.bind_ok s (h s m hp h1), h' (s.advance es m) e hp h2, State.advance_advance]

theorem Performs.bind_raises {op : Op α} {f : α → Op β} {a : α} {err : Error} (h : Performs op p es a)
    (h' : Raises (f a) p fs err) : Raises (op >>= f) p (es ++ fs) err := by
  intro s e hp hrun
  obtain ⟨m, h1, h2⟩ := Env.run_split hrun
  rw [Op.bind_ok s (h s m hp h1), h' (s.advance es m) e hp h2, State.advance_advance]

theorem Raises.bind {op : Op α} {f : α → Op β} {err : Error} (h : Raises op p es err) :
    Raises (op >>= f) p es err := by
  intro s e hp hrun
  rw [Op.bind_error s (h s e hp hrun)]

/-- A step without events before an operation. -/
theorem Performs.bind_nil {op : Op α} {f : α → Op β} {a : α} {b : β} (h : Performs op p [] a)
    (h' : Performs (f a) p fs b) : Performs (op >>= f) p fs b := h.bind h'

theorem Performs.bind_nil_raises {op : Op α} {f : α → Op β} {a : α} {err : Error} (h : Performs op p [] a)
    (h' : Raises (f a) p fs err) : Raises (op >>= f) p fs err := h.bind_raises h'

/-- A step without events after an operation. -/
theorem Performs.bind_pure {op : Op α} {a : α} {b : β} {f : α → Op β} (h : Performs op p es a)
    (h' : Performs (f a) p [] b) : Performs (op >>= f) p es b := by
  simpa using h.bind h'

theorem Performs.parameters : Performs parameters p [] p := by
  intro s e hp h
  cases h
  rw [State.advance_nil, parameters_apply, hp]

theorem Raises.raise (err : Error) : Raises (raise err : Op α) p [] err := by
  intro s e _ h
  cases h
  rw [State.advance_nil, raise_apply]

theorem Performs.emit {ev : Event} (hev : ∀ b, ev ≠ .tx b ∧ ev ≠ .rx b) (hcs : ev ≠ .csLow ∧ ev ≠ .csHigh) :
    Performs (emit ev) p [ev] () := by
  intro s e hp h
  subst hp
  cases ev with
  | csLow => exact absurd rfl hcs.1
  | csHigh => exact absurd rfl hcs.2
  | tx b => exact absurd rfl (hev b).1
  | rx b => exact absurd rfl (hev b).2
  | delay d =>
    cases h
    rfl

/-- `Delay(d)` appends `DELAY(d)`, or nothing for 0. -/
theorem delay_performs (d : Nat) : Performs (delay d) p (delayEvents d) () := by
  unfold delay delayEvents
  split
  · exact Performs.pure ()
  · exact Performs.emit (by simp) (by simp)

/-- One transmitted byte. -/
theorem txByte_performs (b : Byte) : Performs (txByte b) p [.tx b] () := by
  intro s e hp h
  subst hp
  simp only [Env.run] at h
  split at h
  · rename_i hd
    cases h
    rw [txByte, Op.bind_ok s (answer_apply s), hd]
    rfl
  · cases h

/-- One received byte. -/
theorem rxByte_performs (r : Byte) : Performs rxByte p [.rx r] r := by
  intro s e hp h
  subst hp
  simp only [Env.run] at h
  split at h
  · rename_i hd
    obtain ⟨hd, hr⟩ := hd
    cases h
    rw [rxByte, Op.bind_ok s (answer_apply s), Op.bind_ok _ (Op.get_apply _), hd]
    simp only [State.setEnv_env, State.setEnv_params, hr]
    rfl
  · cases h

theorem txAll_performs (tx : List Byte) : Performs (txAll tx) p (tx.map .tx) () := by
  induction tx with
  | nil => exact Performs.pure ()
  | cons b tx ih => exact (txByte_performs b).bind ih

theorem rxAll_performs (rx : List Byte) : Performs (rxAll rx.length) p (rx.map .rx) rx := by
  induction rx with
  | nil => exact Performs.pure []
  | cons r rx ih => exact (rxByte_performs r).bind (ih.bind_pure (Performs.pure _))

theorem beginFrame_performs : Performs (modify State.beginFrame) p [.csLow] () := by
  intro s e hp h
  subst hp
  cases h
  rfl

theorem endFrame_performs : Performs (modify State.endFrame) p [.csHigh] () := by
  intro s e hp h
  subst hp
  cases h
  rfl

/-- A frame in which nothing fails (R111). -/
theorem frame_performs (tx rx : List Byte) : Performs (frame tx rx.length) p (frameEvents tx rx) rx := by
  have h := beginFrame_performs (p := p) |>.bind
    (f := fun _ => do
      txAll tx
      let rx ← rxAll rx.length
      modify State.endFrame
      return rx)
    ((txAll_performs tx).bind ((rxAll_performs rx).bind (endFrame_performs.bind (Performs.pure rx))))
  simpa [frameEvents, frame] using h

theorem readFrame_performs (a : Addr7) (rx : List Byte) :
    Performs (readFrame a rx.length) p (frameEvents [0x80#8 ||| a.setWidth 8] rx) rx := frame_performs _ rx

theorem writeFrame_performs (a : Addr7) (data : List Byte) :
    Performs (writeFrame a data) p (frameEvents (a.setWidth 8 :: data) []) () :=
  (frame_performs _ []).bind_pure (Performs.pure ())

/-- `SelectBank` (R121). -/
theorem selectBank_performs (b : Bank) : Performs (selectBank b) p (selectEvents p b) () :=
  Performs.parameters.bind_nil (writeFrame_performs _ _)

/-- `ReadBytes` answered by `rx` (R127). -/
theorem readBytes_performs (r : RegAddr) (rx : List Byte) :
    Performs (readBytes r rx.length) p (readEvents p r rx) rx :=
  (selectBank_performs r.bank).bind (readFrame_performs r.reg rx)

/-- `ReadU8` answered by `v` (R123). -/
theorem readU8_performs (r : RegAddr) (v : Byte) : Performs (readU8 r) p (readEvents p r [v]) v :=
  (selectBank_performs r.bank).bind ((readFrame_performs r.reg [v]).bind_pure (Performs.pure v))

/-- `WriteBytes` (R129). -/
theorem writeBytes_performs (r : RegAddr) (data : List Byte) :
    Performs (writeBytes r data) p (writeEvents p r data) () :=
  (selectBank_performs r.bank).bind (writeFrame_performs r.reg data)

/-- `WriteU8` (R125). -/
theorem writeU8_performs (r : RegAddr) (v : Byte) : Performs (writeU8 r v) p (writeEvents p r [v]) () :=
  (selectBank_performs r.bank).bind (writeFrame_performs r.reg [v])

/-- `BridgeRead` answered by `rx` (R141). -/
theorem bridgeRead_performs (f : Addr7) (r : Byte) (rx : List Byte) :
    Performs (bridgeReadBytes f r rx.length) p (bridgeReadEvents p f r rx) rx := by
  unfold bridgeReadBytes bridgeReadEvents
  simp only [List.append_assoc]
  refine Performs.bind_nil Performs.parameters ?_
  refine Performs.bind (writeU8_performs _ (followerReadByte p f)) ?_
  refine Performs.bind (writeU8_performs _ _) ?_
  refine Performs.bind (delay_performs _) ?_
  refine Performs.bind (writeU8_performs _ (controlByte p rx.length)) ?_
  refine Performs.bind (delay_performs _) ?_
  exact readBytes_performs _ rx

/-- `BridgeWrite` (R145). -/
theorem bridgeWrite_performs (f : Addr7) (r v : Byte) :
    Performs (bridgeWriteByte f r v) p (bridgeWriteEvents p f r v) () := by
  unfold bridgeWriteByte bridgeWriteEvents
  simp only [List.append_assoc]
  refine Performs.bind_nil Performs.parameters ?_
  refine Performs.bind (writeU8_performs _ (followerWriteByte f)) ?_
  refine Performs.bind (writeU8_performs _ _) ?_
  refine Performs.bind (writeU8_performs _ _) ?_
  refine Performs.bind (delay_performs _) ?_
  refine Performs.bind (writeU8_performs _ (controlByte p 1)) ?_
  exact delay_performs _

/-- The delay between two samples (R176). -/
theorem sampleGap_performs (n : Nat) :
    Performs (sampleGap n) p (if n = 0 then [] else delayEvents p.calSampleDelay) () := by
  unfold sampleGap
  split
  · exact Performs.pure ()
  · exact Performs.bind_nil Performs.parameters (delay_performs _)

/-- The samples of a calibration (R176). -/
theorem sumSamples_performs (source : RegAddr) (ds : List (List Byte)) (hlen : ∀ d ∈ ds, d.length = 6)
    (acc : Axis3 Int) :
    Performs (sumSamples source ds.length acc) p (sampleEvents p source ds) (acc.add (sampleSum ds)) := by
  induction ds generalizing acc with
  | nil =>
    have : acc.add (sampleSum []) = acc := by simp [Axis3.add, sampleSum]
    rw [this]
    exact Performs.pure acc
  | cons d ds ih =>
    have hsum : acc.add (sampleSum (d :: ds)) = (acc.add (axisBig d)).add (sampleSum ds) := by
      simp [Axis3.add, sampleSum, add_assoc]
    have hd : d.length = 6 := hlen d (by simp)
    have hr := readBytes_performs (p := p) source d
    rw [hd] at hr
    have ih' := ih (fun d' h => hlen d' (by simp [h])) (acc.add (axisBig d))
    rw [hsum]
    have hg := sampleGap_performs (p := p) ds.length
    cases ds with
    | nil => exact hr.bind_pure (hg.bind_nil ih')
    | cons d' ds =>
      simp only [sampleEvents, List.append_assoc]
      exact hr.bind (hg.bind ih')

/-- A step list (R156). -/
theorem runSteps_performs (ops : List MicroOp) (rs : List Byte) (h : rs.length = readsOf ops) :
    Performs (runSteps ops) p (stepEvents p ops rs) () := by
  induction ops generalizing rs with
  | nil => exact Performs.pure ()
  | cons op ops ih =>
    cases op with
    | w addr v => exact (writeU8_performs addr v).bind (ih rs h)
    | bw r v => exact (Performs.parameters.bind_nil (bridgeWrite_performs _ r v)).bind (ih rs h)
    | d ms => exact (delay_performs ms).bind (ih rs h)
    | rmw addr keep set =>
      cases rs with
      | nil => simp [readsOf] at h
      | cons t rs =>
        refine Performs.bind (a := ()) ?_ (ih rs (by simpa [readsOf] using h))
        exact Performs.bind (readU8_performs addr t) (writeU8_performs addr (mergeBits t keep set))

end

/-! ### Issuing -/

/-- An operation that succeeds, issued. -/
theorem issue_performs {op : Op (List Byte)} {p : Params} {es : List Event} {payload : List Byte} {s : State} {e : Env}
    (h : Performs op p es payload) (hp : s.params = p) (hr : s.ready) (hrun : s.env.run p es = some e) :
    issue op s = .next ((s.advance es e).send (0x00#8 :: payload)) := by
  obtain ⟨hidle, hwf⟩ := hr
  have := h (s.setSeq .busy) e hp hrun
  simp only [issue, hidle, hwf, this, respond, State.respondOk]
  cases s
  subst hidle
  rfl

/-- An operation that raises with no frame open, issued. -/
theorem issue_raises {op : Op (List Byte)} {p : Params} {es : List Event} {err : Error} {s : State} {e : Env}
    (h : Raises op p es err) (hp : s.params = p) (hr : s.ready) (hrun : s.env.run p es = some e)
    (hcs : csAfter s.cs es = .high) :
    issue op s = .next ((s.advance es e).send (errorPacket err)) := by
  obtain ⟨hidle, hwf⟩ := hr
  have := h (s.setSeq .busy) e hp hrun
  rw [State.closeFrame_of_high (by simpa using hcs)] at this
  simp only [issue, hidle, hwf, this, respond, State.takeException]
  rw [State.closeFrame_of_high (by simpa using hcs)]
  cases s
  subst hidle
  rfl

end Sys2Proof.Machine
end

