-- ==== Sys2Proof/Laws/Effect.lean ====
section
/-! SUPPORT. All an operation can do, whatever the environment answers: `Contained` says what every operation leaves alone
and what discipline it keeps; `SameFactors` that it leaves the scale factors alone. One lemma per shared operation. -/

namespace Sys2Proof.Machine

/-- Whatever the operation answers, the states before and after it are related by `R`. -/
def Effect {α : Type} (R : State → State → Prop) (op : Op α) : Prop := ∀ s, R s (op s).2

/-- A relation that sequencing keeps. -/
structure Composable (R : State → State → Prop) : Prop where
  refl : ∀ s, R s s
  trans : ∀ {s t u}, R s t → R t u → R s u

section
variable {α β : Type} {R : State → State → Prop}

theorem Effect.pure (hR : Composable R) (a : α) : Effect R (pure a : Op α) := fun s => hR.refl s

theorem Effect.parameters (hR : Composable R) : Effect R parameters := fun s => hR.refl s

theorem Effect.bind (hR : Composable R) {op : Op α} {f : α → Op β} (h : Effect R op) (h' : ∀ a, Effect R (f a)) :
    Effect R (op >>= f) := by
  intro s
  have hs := h s
  rw [Op.bind_apply]
  rcases hop : op s with ⟨e | a, t⟩ <;> rw [hop] at hs
  · exact hs
  · exact hR.trans hs (h' a t)

theorem Effect.tryCatch (hR : Composable R) {op : Op α} {f : Error → Op α} (h : Effect R op)
    (h' : ∀ e, Effect R (f e)) : Effect R (tryCatch op f : Op α) := by
  intro s
  have hs := h s
  rw [Op.tryCatch_apply]
  rcases hop : op s with ⟨e | a, t⟩ <;> rw [hop] at hs
  · exact hR.trans hs (h' e t)
  · exact hs

end

/-! ### What every operation keeps -/

/-- No frame is open and the trace keeps its discipline. -/
def State.closed (s : State) : Prop := s.cs = .high ∧ phaseFrom .closed s.tr = some .closed

/-- What every operation leaves alone, and the disciplines it keeps. -/
structure Contained (s t : State) : Prop where
  params : t.params = s.params
  seq : t.seq = s.seq
  portIn : t.portIn = s.portIn
  busReq : t.busReq = s.busReq
  responses : t.responses = s.responses
  grows : s.tr <+: t.tr
  closed : s.closed → t.closed
  env : s.env.wf → t.env.wf

/-- The scale-factor registers are left alone. -/
structure SameFactors (s t : State) : Prop where
  gyro : t.sfGyro = s.sfGyro
  accel : t.sfAccel = s.sfAccel

theorem contained_composable : Composable Contained where
  refl _ := ⟨rfl, rfl, rfl, rfl, rfl, List.prefix_refl _, id, id⟩
  trans h g :=
    ⟨g.params.trans h.params, g.seq.trans h.seq, g.portIn.trans h.portIn, g.busReq.trans h.busReq,
      g.responses.trans h.responses, h.grows.trans g.grows, g.closed ∘ h.closed, g.env ∘ h.env⟩

theorem sameFactors_composable : Composable SameFactors where
  refl _ := ⟨rfl, rfl⟩
  trans h g := ⟨g.gyro.trans h.gyro, g.accel.trans h.accel⟩

/-! ### The discipline inside a frame -/

theorem phaseFrom_append (q : Phase) (es fs : List Event) :
    phaseFrom q (es ++ fs) = (phaseFrom q es).bind fun q' => phaseFrom q' fs := by
  induction es generalizing q with
  | nil => rfl
  | cons ev es ih =>
    simp only [List.cons_append, phaseFrom]
    cases q.next ev with
    | none => rfl
    | some q' => exact ih q'

/-- A frame is open, and the trace is in phase `q`. -/
def State.inFrame (q : Phase) (s : State) : Prop :=
  s.cs = .low ∧ phaseFrom .closed s.tr = some q ∧ (q = .sending ∨ q = .receiving)

theorem State.record_phase {s : State} {q q' : Phase} {ev : Event} (h : phaseFrom .closed s.tr = some q)
    (hq : q.next ev = some q') : phaseFrom .closed (s.record ev).tr = some q' := by
  simp [phaseFrom_append, h, phaseFrom, hq]

/-- Closing a frame closes it. -/
theorem State.inFrame_endFrame {s : State} {q : Phase} (h : s.inFrame q) : s.endFrame.closed := by
  obtain ⟨-, hp, hq⟩ := h
  refine ⟨rfl, ?_⟩
  simp only [State.endFrame_tr, phaseFrom_append, hp]
  rcases hq with rfl | rfl <;> rfl

/-- What one event does to what an operation keeps, but for the discipline of the trace. -/
structure Kept (s t : State) : Prop where
  params : t.params = s.params
  seq : t.seq = s.seq
  portIn : t.portIn = s.portIn
  busReq : t.busReq = s.busReq
  responses : t.responses = s.responses
  grows : s.tr <+: t.tr
  env : s.env.wf → t.env.wf
  gyro : t.sfGyro = s.sfGyro
  accel : t.sfAccel = s.sfAccel

theorem kept_composable : Composable Kept where
  refl _ := ⟨rfl, rfl, rfl, rfl, rfl, List.prefix_refl _, id, rfl, rfl⟩
  trans h g :=
    ⟨g.params.trans h.params, g.seq.trans h.seq, g.portIn.trans h.portIn, g.busReq.trans h.busReq,
      g.responses.trans h.responses, h.grows.trans g.grows, g.env ∘ h.env, g.gyro.trans h.gyro,
      g.accel.trans h.accel⟩

theorem kept_record (s : State) (ev : Event) : Kept s (s.record ev) :=
  ⟨rfl, rfl, rfl, rfl, rfl, List.prefix_append _ _, Env.observe_wf ev, rfl, rfl⟩

theorem kept_setCs (s : State) (v : Level) : Kept s (s.setCs v) :=
  ⟨rfl, rfl, rfl, rfl, rfl, List.prefix_refl _, id, rfl, rfl⟩

theorem kept_beginFrame (s : State) : Kept s s.beginFrame :=
  kept_composable.trans (kept_record s _) (kept_setCs _ _)

theorem kept_endFrame (s : State) : Kept s s.endFrame :=
  kept_composable.trans (kept_record s _) (kept_setCs _ _)

theorem kept_closeFrame (s : State) : Kept s s.closeFrame := by
  unfold State.closeFrame
  split
  · exact kept_endFrame s
  · exact kept_composable.refl s

theorem kept_answer : Effect Kept answer := fun _ =>
  ⟨rfl, rfl, rfl, rfl, rfl, List.prefix_refl _, Env.next_wf, rfl, rfl⟩

theorem kept_emit (ev : Event) : Effect Kept (emit ev) := fun s => kept_record s ev

theorem kept_raise {α : Type} (e : Error) : Effect Kept (raise e : Op α) := fun s => kept_closeFrame s

theorem kept_transportFailed {α : Type} (b : Bool) (ev : Event) : Effect Kept (transportFailed b ev : Op α) := by
  refine Effect.bind kept_composable ?_ fun _ => kept_raise _
  unfold emitIf
  split
  · exact kept_emit ev
  · exact Effect.pure kept_composable ()

theorem kept_txByte (b : Byte) : Effect Kept (txByte b) := by
  refine Effect.bind kept_composable kept_answer fun a => ?_
  split
  · exact kept_emit _
  · exact kept_transportFailed _ _

theorem kept_rxByte : Effect Kept rxByte := by
  refine Effect.bind kept_composable kept_answer fun a => ?_
  refine Effect.bind kept_composable (fun s => kept_composable.refl s) fun t => ?_
  dsimp only
  split
  · exact Effect.bind kept_composable (kept_emit _) fun _ => Effect.pure kept_composable _
  · exact kept_transportFailed _ _

theorem kept_txAll (tx : List Byte) : Effect Kept (txAll tx) := by
  induction tx with
  | nil => exact Effect.pure kept_composable ()
  | cons b tx ih => exact Effect.bind kept_composable (kept_txByte b) fun _ => ih

theorem kept_rxAll (m : Nat) : Effect Kept (rxAll m) := by
  induction m with
  | zero => exact Effect.pure kept_composable []
  | succ m ih =>
    exact Effect.bind kept_composable kept_rxByte fun _ =>
      Effect.bind kept_composable ih fun _ => Effect.pure kept_composable _

theorem kept_frame (tx : List Byte) (m : Nat) : Effect Kept (frame tx m) :=
  Effect.bind kept_composable (fun s => kept_beginFrame s) fun _ =>
    Effect.bind kept_composable (kept_txAll tx) fun _ =>
      Effect.bind kept_composable (kept_rxAll m) fun _ =>
        Effect.bind kept_composable (fun s => kept_endFrame s) fun _ => Effect.pure kept_composable _

theorem kept_delay (d : Nat) : Effect Kept (delay d) := by
  unfold delay
  split
  · exact Effect.pure kept_composable ()
  · exact kept_emit _

/-- A failed bus step, with its event or without, closes the frame (R112, R113). -/
theorem transportFailed_closes {α : Type} {s : State} {q : Phase} {ev : Event} (b : Bool) (h : s.inFrame q)
    (hev : ∃ q', q.next ev = some q' ∧ (q' = .sending ∨ q' = .receiving)) :
    ∃ t, (transportFailed b ev : Op α) s = (.error .busError, t) ∧ t.closed := by
  obtain ⟨q', hq', hk⟩ := hev
  cases b with
  | false =>
    refine ⟨s.closeFrame, rfl, ?_⟩
    rw [State.closeFrame, if_pos h.1]
    exact State.inFrame_endFrame h
  | true =>
    refine ⟨(s.record ev).closeFrame, rfl, ?_⟩
    rw [State.closeFrame, if_pos (show (s.record ev).cs = .low from h.1)]
    exact State.inFrame_endFrame (q := q') ⟨h.1, State.record_phase h.2.1 hq', hk⟩

/-- A byte transmitted in an open frame: the frame stays open, or the step fails and the frame is closed. -/
theorem txByte_inFrame {s : State} (b : Byte) (h : s.inFrame .sending) :
    (∃ t, txByte b s = (.ok (), t) ∧ t.inFrame .sending) ∨
      ∃ t, txByte b s = (.error .busError, t) ∧ t.closed := by
  have h' : (s.setEnv s.env.next.2).inFrame .sending := h
  rw [txByte, Op.bind_ok s (answer_apply s)]
  cases s.env.next.1.report with
  | done => exact Or.inl ⟨_, rfl, h.1, State.record_phase h'.2.1 rfl, Or.inl rfl⟩
  | failed b => exact Or.inr (transportFailed_closes b h' ⟨.sending, rfl, Or.inl rfl⟩)

theorem txAll_inFrame {s : State} (tx : List Byte) (h : s.inFrame .sending) :
    (∃ t, txAll tx s = (.ok (), t) ∧ t.inFrame .sending) ∨
      ∃ t, txAll tx s = (.error .busError, t) ∧ t.closed := by
  induction tx generalizing s with
  | nil => exact Or.inl ⟨s, rfl, h⟩
  | cons b tx ih =>
    rcases txByte_inFrame b h with ⟨t, ht, hin⟩ | ⟨t, ht, hc⟩
    · rw [txAll, Op.bind_ok s ht]
      exact ih hin
    · exact Or.inr ⟨t, by rw [txAll, Op.bind_error s ht], hc⟩

theorem rxByte_inFrame {s : State} {q : Phase} (h : s.inFrame q) :
    (∃ r t, rxByte s = (.ok r, t) ∧ t.inFrame .receiving) ∨
      ∃ t, rxByte s = (.error .busError, t) ∧ t.closed := by
  have h' : (s.setEnv s.env.next.2).inFrame q := h
  have hn : ∀ b, q.next (.rx b) = some .receiving := by
    intro b
    rcases h.2.2 with rfl | rfl <;> rfl
  rw [rxByte, Op.bind_ok s (answer_apply s), Op.bind_ok _ (Op.get_apply _)]
  cases s.env.next.1.report with
  | done => exact Or.inl ⟨_, _, rfl, h.1, State.record_phase h'.2.1 (hn _), Or.inr rfl⟩
  | failed b => exact Or.inr (transportFailed_closes b h' ⟨.receiving, hn _, Or.inr rfl⟩)

theorem rxAll_inFrame {s : State} {q : Phase} (m : Nat) (h : s.inFrame q) :
    (∃ rx t q', rxAll m s = (.ok rx, t) ∧ rx.length = m ∧ t.inFrame q') ∨
      ∃ t, rxAll m s = (.error .busError, t) ∧ t.closed := by
  induction m generalizing s q with
  | zero => exact Or.inl ⟨[], s, q, rfl, rfl, h⟩
  | succ m ih =>
    rcases rxByte_inFrame h with ⟨r, t, ht, hin⟩ | ⟨t, ht, hc⟩
    · rcases ih hin with ⟨rx, u, q', hu, hl, hin'⟩ | ⟨u, hu, hc⟩
      · refine Or.inl ⟨r :: rx, u, q', ?_, by simp [hl], hin'⟩
        rw [rxAll, Op.bind_ok s ht, Op.bind_ok t hu]
        rfl
      · exact Or.inr ⟨u, by rw [rxAll, Op.bind_ok s ht, Op.bind_error t hu], hc⟩
    · exact Or.inr ⟨t, by rw [rxAll, Op.bind_error s ht], hc⟩

/-- A frame from a closed bus: it answers exactly the bytes asked for, or `BusError`; the bus is closed either way
(R111 to R113, R115: "A model gives `Frame` exactly two outcomes"). -/
theorem frame_outcomes {s : State} (tx : List Byte) (m : Nat) (h : s.closed) :
    (∃ rx t, frame tx m s = (.ok rx, t) ∧ rx.length = m ∧ t.closed) ∨
      ∃ t, frame tx m s = (.error .busError, t) ∧ t.closed := by
  have h0 : s.beginFrame.inFrame .sending :=
    ⟨rfl, State.record_phase h.2 rfl, Or.inl rfl⟩
  rw [frame, Op.bind_ok s (Op.modify_apply s State.beginFrame)]
  rcases txAll_inFrame tx h0 with ⟨t, ht, hin⟩ | ⟨t, ht, hc⟩
  · rw [Op.bind_ok _ ht]
    rcases rxAll_inFrame m hin with ⟨rx, u, q', hu, hl, hin'⟩ | ⟨u, hu, hc⟩
    · rw [Op.bind_ok _ hu]
      exact Or.inl ⟨rx, u.endFrame, rfl, hl, State.inFrame_endFrame hin'⟩
    · exact Or.inr ⟨u, by rw [Op.bind_error _ hu], hc⟩
  · exact Or.inr ⟨t, by rw [Op.bind_error _ ht], hc⟩

/-- Kept, with the discipline, is contained. -/
theorem Kept.contained {s t : State} (h : Kept s t) (hc : s.closed → t.closed) : Contained s t :=
  ⟨h.params, h.seq, h.portIn, h.busReq, h.responses, h.grows, hc, h.env⟩

theorem Kept.sameFactors {s t : State} (h : Kept s t) : SameFactors s t := ⟨h.gyro, h.accel⟩

theorem closed_frame {s : State} (tx : List Byte) (m : Nat) (h : s.closed) : (frame tx m s).2.closed := by
  rcases frame_outcomes tx m h with ⟨rx, t, ht, -, hc⟩ | ⟨t, ht, hc⟩ <;> rw [ht] <;> exact hc

/-! ### One lemma per shared operation -/

theorem frame_contained (tx : List Byte) (m : Nat) : Effect Contained (frame tx m) := fun s =>
  (kept_frame tx m s).contained (closed_frame tx m)

theorem raise_contained {α : Type} (e : Error) : Effect Contained (raise e : Op α) := fun s =>
  (kept_raise e s).contained fun h => by
    rw [raise_apply, State.closeFrame_of_high h.1]
    exact h

theorem delay_contained (d : Nat) : Effect Contained (delay d) := fun s =>
  (kept_delay d s).contained fun h => by
    unfold delay
    split
    · exact h
    · rename_i hd
      exact ⟨h.1, State.record_phase h.2 (by simp [Phase.next, hd])⟩

/-- An operation built only of frames, delays, raised exceptions and readings of the state. -/
structure Calm {α : Type} (op : Op α) : Prop where
  contained : Effect Contained op
  factors : Effect SameFactors op

section
variable {α β : Type}

theorem Calm.pure (a : α) : Calm (pure a : Op α) :=
  ⟨Effect.pure contained_composable a, Effect.pure sameFactors_composable a⟩

theorem Calm.parameters : Calm parameters :=
  ⟨Effect.parameters contained_composable, Effect.parameters sameFactors_composable⟩

theorem Calm.bind {op : Op α} {f : α → Op β} (h : Calm op) (h' : ∀ a, Calm (f a)) : Calm (op >>= f) :=
  ⟨Effect.bind contained_composable h.contained fun a => (h' a).contained,
    Effect.bind sameFactors_composable h.factors fun a => (h' a).factors⟩

theorem Calm.tryCatch {op : Op α} {f : Error → Op α} (h : Calm op) (h' : ∀ e, Calm (f e)) :
    Calm (tryCatch op f : Op α) :=
  ⟨Effect.tryCatch contained_composable h.contained fun e => (h' e).contained,
    Effect.tryCatch sameFactors_composable h.factors fun e => (h' e).factors⟩

theorem Calm.ite {c : Prop} [Decidable c] {x y : Op α} (h : Calm x) (h' : Calm y) : Calm (if c then x else y) := by
  split <;> assumption

end

theorem raise_calm {α : Type} (e : Error) : Calm (raise e : Op α) :=
  ⟨raise_contained e, fun s => (kept_raise e s).sameFactors⟩

theorem frame_calm (tx : List Byte) (m : Nat) : Calm (frame tx m) :=
  ⟨frame_contained tx m, fun s => (kept_frame tx m s).sameFactors⟩

theorem delay_calm (d : Nat) : Calm (delay d) :=
  ⟨delay_contained d, fun s => (kept_delay d s).sameFactors⟩

theorem readFrame_calm (a : Addr7) (m : Nat) : Calm (readFrame a m) := frame_calm _ m

theorem writeFrame_calm (a : Addr7) (data : List Byte) : Calm (writeFrame a data) :=
  (frame_calm _ 0).bind fun _ => Calm.pure ()

theorem selectBank_calm (b : Bank) : Calm (selectBank b) := Calm.parameters.bind fun _ => writeFrame_calm _ _

theorem readBytes_calm (r : RegAddr) (n : Nat) : Calm (readBytes r n) :=
  (selectBank_calm _).bind fun _ => readFrame_calm _ n

theorem writeBytes_calm (r : RegAddr) (data : List Byte) : Calm (writeBytes r data) :=
  (selectBank_calm _).bind fun _ => writeFrame_calm _ data

theorem readU8_calm (r : RegAddr) : Calm (readU8 r) :=
  (selectBank_calm _).bind fun _ => (readFrame_calm _ 1).bind fun _ => Calm.pure _

theorem writeU8_calm (r : RegAddr) (v : Byte) : Calm (writeU8 r v) :=
  (selectBank_calm _).bind fun _ => writeFrame_calm _ _

theorem bridgeRead_calm (f : Addr7) (r : Byte) (n : Nat) : Calm (bridgeReadBytes f r n) :=
  Calm.parameters.bind fun _ => (writeU8_calm _ _).bind fun _ => (writeU8_calm _ _).bind fun _ =>
    (delay_calm _).bind fun _ => (writeU8_calm _ _).bind fun _ => (delay_calm _).bind fun _ => readBytes_calm _ n

theorem bridgeWrite_calm (f : Addr7) (r v : Byte) : Calm (bridgeWriteByte f r v) :=
  Calm.parameters.bind fun _ => (writeU8_calm _ _).bind fun _ => (writeU8_calm _ _).bind fun _ =>
    (writeU8_calm _ _).bind fun _ => (delay_calm _).bind fun _ => (writeU8_calm _ _).bind fun _ => delay_calm _

theorem sampleGap_calm (n : Nat) : Calm (sampleGap n) :=
  Calm.ite (Calm.pure ()) (Calm.parameters.bind fun _ => delay_calm _)

theorem sumSamples_calm (source : RegAddr) (n : Nat) (acc : Axis3 Int) : Calm (sumSamples source n acc) := by
  induction n generalizing acc with
  | zero => exact Calm.pure acc
  | succ n ih => exact (readBytes_calm _ 6).bind fun _ => (sampleGap_calm n).bind fun _ => ih _

theorem calGyro_calm : Calm calGyro :=
  Calm.parameters.bind fun _ => (sumSamples_calm _ _ _).bind fun _ => (writeBytes_calm _ _).bind fun _ =>
    (writeBytes_calm _ _).bind fun _ => writeBytes_calm _ _

theorem calAccel_calm : Calm calAccel :=
  Calm.parameters.bind fun _ => (sumSamples_calm _ _ _).bind fun _ => (readBytes_calm _ _).bind fun _ =>
    (readBytes_calm _ _).bind fun _ => (readBytes_calm _ _).bind fun _ => (writeBytes_calm _ _).bind fun _ =>
      (writeBytes_calm _ _).bind fun _ => writeBytes_calm _ _

theorem runMicroOp_calm (op : MicroOp) : Calm (runMicroOp op) := by
  cases op with
  | w addr v => exact writeU8_calm addr v
  | rmw addr keep set => exact (readU8_calm addr).bind fun _ => writeU8_calm addr _
  | bw r v => exact Calm.parameters.bind fun _ => bridgeWrite_calm _ r v
  | d ms => exact delay_calm ms

theorem runSteps_calm (ops : List MicroOp) : Calm (runSteps ops) := by
  induction ops with
  | nil => exact Calm.pure ()
  | cons op ops ih => exact (runMicroOp_calm op).bind fun _ => ih

theorem identityMain_calm (n : Nat) : Calm (identityMain n) := by
  induction n with
  | zero => exact raise_calm _
  | succ n ih =>
    exact Calm.parameters.bind fun _ => (readU8_calm _).bind fun _ =>
      Calm.ite (Calm.pure ()) (Calm.ite (raise_calm _) ((delay_calm _).bind fun _ => ih))

theorem identityMag_calm (n : Nat) : Calm (identityMag n) := by
  induction n with
  | zero => exact raise_calm _
  | succ n ih =>
    exact Calm.parameters.bind fun _ => (bridgeRead_calm _ _ 1).bind fun _ =>
      Calm.ite (Calm.pure ()) (Calm.ite (raise_calm _) ((delay_calm _).bind fun _ => ih))

theorem initBridgeDevice_calm : Calm initBridgeDevice :=
  Calm.parameters.bind fun _ => (runSteps_calm _).bind fun _ => (runSteps_calm _).bind fun _ =>
    (runSteps_calm _).bind fun _ => (identityMag_calm _).bind fun _ => (runSteps_calm _).bind fun _ =>
      (runSteps_calm _).bind fun _ => runSteps_calm _

theorem gyroFactor_calm : Calm gyroFactor := by
  constructor <;>
  · intro s
    cases h : s.sfGyro <;> simp only [gyroFactor, Op.bind_apply, Op.get_apply, h]
    · first
      | exact raise_contained _ s
      | exact (raise_calm _).factors s
    · first
      | exact contained_composable.refl s
      | exact sameFactors_composable.refl s

theorem accelFactor_calm : Calm accelFactor := by
  constructor <;>
  · intro s
    cases h : s.sfAccel <;> simp only [accelFactor, Op.bind_apply, Op.get_apply, h]
    · first
      | exact raise_contained _ s
      | exact (raise_calm _).factors s
    · first
      | exact contained_composable.refl s
      | exact sameFactors_composable.refl s

theorem readGyroRaw_calm : Calm readGyroRaw :=
  Calm.parameters.bind fun _ => (readBytes_calm _ 6).bind fun _ => Calm.pure _

theorem readAccelRaw_calm : Calm readAccelRaw :=
  Calm.parameters.bind fun _ => (readBytes_calm _ 6).bind fun _ => Calm.pure _

theorem readGyroScaled_calm : Calm readGyroScaled :=
  gyroFactor_calm.bind fun _ => readGyroRaw_calm.bind fun _ => Calm.pure _

theorem readAccelScaled_calm : Calm readAccelScaled :=
  accelFactor_calm.bind fun _ => Calm.parameters.bind fun _ => readAccelRaw_calm.bind fun _ => Calm.pure _

theorem readMagScaled_calm : Calm readMagScaled :=
  Calm.parameters.bind fun _ => (bridgeRead_calm _ _ 1).bind fun _ =>
    Calm.ite
      ((bridgeRead_calm _ _ 6).bind fun _ => (bridgeRead_calm _ _ 1).bind fun _ =>
        Calm.ite (raise_calm _) (Calm.pure _))
      (raise_calm _)

theorem readSnapshot_calm : Calm readSnapshot :=
  gyroFactor_calm.bind fun _ => accelFactor_calm.bind fun _ => readGyroScaled_calm.bind fun _ =>
    readAccelScaled_calm.bind fun _ => (readMagScaled_calm.tryCatch fun _ => raise_calm _).bind fun _ => Calm.pure _

/-- Storing a divisor changes nothing that `Contained` speaks of. -/
theorem setSfGyro_contained (s : State) (q : Ratio) : Contained s (s.setSfGyro q) :=
  ⟨rfl, rfl, rfl, rfl, rfl, List.prefix_refl _, id, id⟩

theorem setSfAccel_contained (s : State) (q : Ratio) : Contained s (s.setSfAccel q) :=
  ⟨rfl, rfl, rfl, rfl, rfl, List.prefix_refl _, id, id⟩

theorem selectGyroRange_contained (r : RangeIx) : Effect Contained (selectGyroRange r) :=
  Effect.bind contained_composable Calm.parameters.contained fun _ =>
    Effect.bind contained_composable (readU8_calm _).contained fun _ =>
      Effect.bind contained_composable (writeU8_calm _ _).contained fun _ => fun s => setSfGyro_contained s _

theorem selectAccelRange_contained (r : RangeIx) : Effect Contained (selectAccelRange r) :=
  Effect.bind contained_composable Calm.parameters.contained fun _ =>
    Effect.bind contained_composable (readU8_calm _).contained fun _ =>
      Effect.bind contained_composable (writeU8_calm _ _).contained fun _ => fun s => setSfAccel_contained s _

end Sys2Proof.Machine
end

