-- ==== Sys2Proof/Laws/Sequences.lean ====
section
/-! SUPPORT. What the composed operations do when nothing fails: calibrations, identity checks, step lists, range selections,
scaled reads and the magnetometer gate. -/

namespace Sys2Proof.Machine

section
variable {p : Params}

/-! ### Calibration -/

theorem Axis3.zero_add (t : Axis3 Int) : (⟨0, 0, 0⟩ : Axis3 Int).add t = t := by simp [Axis3.add]

/-- The samples of a calibration, summed from zero (R176). -/
theorem samples_performs (source : RegAddr) {ds : List (List Byte)} (h1 : ds.length = p.calSamples)
    (h2 : ∀ d ∈ ds, d.length = 6) :
    Performs (sumSamples source p.calSamples ⟨0, 0, 0⟩) p (sampleEvents p source ds) (sampleSum ds) := by
  have h := sumSamples_performs (p := p) source ds h2 ⟨0, 0, 0⟩
  rwa [Axis3.zero_add, h1] at h

/-- `CalGyro` (R177). -/
theorem calGyro_performs {ds : List (List Byte)} (h1 : ds.length = p.calSamples) (h2 : ∀ d ∈ ds, d.length = 6) :
    Performs calGyro p (calGyroEvents p ds) () := by
  unfold calGyro calGyroEvents
  simp only [List.append_assoc]
  exact Performs.bind_nil Performs.parameters ((samples_performs _ h1 h2).bind
    ((writeBytes_performs _ _).bind ((writeBytes_performs _ _).bind (writeBytes_performs _ _))))

/-- A read of a pair. -/
theorem readPair_performs (r : RegAddr) {d : List Byte} (h : d.length = 2) :
    Performs (readBytes r 2) p (readEvents p r d) d := by
  have := readBytes_performs (p := p) r d
  rwa [h] at this

/-- A read of six bytes. -/
theorem readSix_performs (r : RegAddr) {d : List Byte} (h : d.length = 6) :
    Performs (readBytes r 6) p (readEvents p r d) d := by
  have := readBytes_performs (p := p) r d
  rwa [h] at this

/-- `CalAccel` (R181). -/
theorem calAccel_performs {ds : List (List Byte)} {old : Axis3 (List Byte)} (h1 : ds.length = p.calSamples)
    (h2 : ∀ d ∈ ds, d.length = 6) (h3 : ∀ d ∈ old.toList, d.length = 2) :
    Performs calAccel p (calAccelEvents p ds old) () := by
  simp only [Axis3.toList, List.mem_cons, List.not_mem_nil, or_false, forall_eq_or_imp, forall_eq] at h3
  unfold calAccel calAccelEvents
  simp only [List.append_assoc]
  exact Performs.bind_nil Performs.parameters ((samples_performs _ h1 h2).bind
    ((readPair_performs _ h3.1).bind ((readPair_performs _ h3.2.1).bind ((readPair_performs _ h3.2.2).bind
      ((writeBytes_performs _ _).bind ((writeBytes_performs _ _).bind (writeBytes_performs _ _)))))))

/-! ### Identity checks -/

/-- An identity read that mismatches before the last attempt (R158). -/
theorem identityMain_retry {v : Byte} {n : Nat} (hv : v ≠ p.mainId.value) (hn : n ≠ 0) {es : List Event} {err : Error} :
    (Performs (identityMain n) p es () →
      Performs (identityMain (n + 1)) p (readEvents p p.mainId.addr [v] ++ delayEvents p.tIdRetry ++ es) ()) ∧
    (Raises (identityMain n) p es err →
      Raises (identityMain (n + 1)) p (readEvents p p.mainId.addr [v] ++ delayEvents p.tIdRetry ++ es) err) := by
  simp only [List.append_assoc]
  constructor <;> intro h
  · refine Performs.bind_nil Performs.parameters ((readU8_performs _ v).bind ?_)
    rw [if_neg hv, if_neg hn]
    exact (delay_performs _).bind h
  · refine Performs.bind_nil_raises Performs.parameters ((readU8_performs _ v).bind_raises ?_)
    rw [if_neg hv, if_neg hn]
    exact (delay_performs _).bind_raises h

/-- The identity check of the main device with a match within its attempts (R158). -/
theorem identityMain_performs {vs : List Byte} (hv : ∀ v ∈ vs, v ≠ p.mainId.value) {n : Nat} (h : vs.length < n) :
    Performs (identityMain n) p (mainMismatchEvents p vs ++ readEvents p p.mainId.addr [p.mainId.value]) () := by
  obtain ⟨n, rfl⟩ := Nat.exists_eq_add_one_of_ne_zero (by omega : n ≠ 0)
  induction vs generalizing n with
  | nil =>
    refine Performs.bind_nil Performs.parameters ((readU8_performs _ _).bind_pure ?_)
    rw [if_pos rfl]
    exact Performs.pure ()
  | cons v vs ih =>
    have hn : vs.length < n := by simpa using h
    obtain ⟨m, rfl⟩ := Nat.exists_eq_add_one_of_ne_zero (by omega : n ≠ 0)
    simpa [mainMismatchEvents] using
      (identityMain_retry (err := .busError) (hv v (by simp)) (by simp)).1 (ih (fun w hw => hv w (by simp [hw])) m hn)

/-- The identity check of the main device when every attempt mismatches (R158). -/
theorem identityMain_raises {vs : List Byte} {v : Byte} (hv : ∀ w ∈ vs, w ≠ p.mainId.value) (h : v ≠ p.mainId.value) :
    Raises (identityMain (vs.length + 1)) p (mainMismatchEvents p vs ++ readEvents p p.mainId.addr [v])
      (.deviceNotFound .main) := by
  induction vs with
  | nil =>
    have : Raises (identityMain 1) p (readEvents p p.mainId.addr [v] ++ []) (.deviceNotFound .main) := by
      refine Performs.bind_nil_raises Performs.parameters ((readU8_performs _ v).bind_raises ?_)
      rw [if_neg h, if_pos rfl]
      exact Raises.raise _
    simpa [mainMismatchEvents] using this
  | cons w vs ih =>
    simpa [mainMismatchEvents] using
      (identityMain_retry (hv w (by simp)) (by simp)).2 (ih fun w' hw => hv w' (by simp [hw]))

/-- A relayed identity read that mismatches before the last attempt (R159). -/
theorem identityMag_retry {v : Byte} {n : Nat} (hv : v ≠ p.magId.value) (hn : n ≠ 0) {es : List Event} {err : Error} :
    (Performs (identityMag n) p es () →
      Performs (identityMag (n + 1)) p
        (bridgeReadEvents p p.magAddr p.magId.reg [v] ++ delayEvents p.tIdRetry ++ es) ()) ∧
    (Raises (identityMag n) p es err →
      Raises (identityMag (n + 1)) p
        (bridgeReadEvents p p.magAddr p.magId.reg [v] ++ delayEvents p.tIdRetry ++ es) err) := by
  simp only [List.append_assoc]
  constructor <;> intro h
  · refine Performs.bind_nil Performs.parameters ((bridgeRead_performs _ _ [v]).bind ?_)
    rw [if_neg (show byteAt [v] 0 ≠ _ from hv), if_neg hn]
    exact (delay_performs _).bind h
  · refine Performs.bind_nil_raises Performs.parameters ((bridgeRead_performs _ _ [v]).bind_raises ?_)
    rw [if_neg (show byteAt [v] 0 ≠ _ from hv), if_neg hn]
    exact (delay_performs _).bind_raises h

/-- The identity check of the magnetometer with a match within its attempts (R159). -/
theorem identityMag_performs {vs : List Byte} (hv : ∀ v ∈ vs, v ≠ p.magId.value) {n : Nat} (h : vs.length < n) :
    Performs (identityMag n) p
      (magMismatchEvents p vs ++ bridgeReadEvents p p.magAddr p.magId.reg [p.magId.value]) () := by
  obtain ⟨n, rfl⟩ := Nat.exists_eq_add_one_of_ne_zero (by omega : n ≠ 0)
  induction vs generalizing n with
  | nil =>
    refine Performs.bind_nil Performs.parameters ((bridgeRead_performs _ _ [p.magId.value]).bind_pure ?_)
    rw [if_pos (show byteAt [p.magId.value] 0 = p.magId.value from rfl)]
    exact Performs.pure ()
  | cons v vs ih =>
    have hn : vs.length < n := by simpa using h
    obtain ⟨m, rfl⟩ := Nat.exists_eq_add_one_of_ne_zero (by omega : n ≠ 0)
    simpa [magMismatchEvents] using
      (identityMag_retry (err := .busError) (hv v (by simp)) (by simp)).1 (ih (fun w hw => hv w (by simp [hw])) m hn)

/-- The identity check of the magnetometer when every attempt mismatches (R159). -/
theorem identityMag_raises {vs : List Byte} {v : Byte} (hv : ∀ w ∈ vs, w ≠ p.magId.value) (h : v ≠ p.magId.value) :
    Raises (identityMag (vs.length + 1)) p
      (magMismatchEvents p vs ++ bridgeReadEvents p p.magAddr p.magId.reg [v]) (.deviceNotFound .magnetometer) := by
  induction vs with
  | nil =>
    have : Raises (identityMag 1) p (bridgeReadEvents p p.magAddr p.magId.reg [v] ++ [])
        (.deviceNotFound .magnetometer) := by
      refine Performs.bind_nil_raises Performs.parameters ((bridgeRead_performs _ _ [v]).bind_raises ?_)
      rw [if_neg (show byteAt [v] 0 ≠ _ from h), if_pos rfl]
      exact Raises.raise _
    simpa [magMismatchEvents] using this
  | cons w vs ih =>
    simpa [magMismatchEvents] using
      (identityMag_retry (hv w (by simp)) (by simp)).2 (ih fun w' hw => hv w' (by simp [hw]))

/-! ### Step lists -/

/-- Two step lists run one after the other, before anything else. -/
theorem runSteps_append (xs ys : List MicroOp) (k : Op Unit) :
    (do
      runSteps xs
      runSteps ys
      k : Op Unit) =
    (do
      runSteps (xs ++ ys)
      k) := by
  funext s
  induction xs generalizing s with
  | nil => rfl
  | cons x xs ih =>
    simp only [List.cons_append, runSteps, Op.bind_apply]
    rcases runMicroOp x s with ⟨_ | _, t⟩
    · rfl
    · simpa [Op.bind_apply] using ih t

/-- `InitMain` with its seven step lists joined (R160). -/
theorem initMain_eq :
    initMain = (do
      let p ← parameters
      identityMain p.idRetryMax
      runSteps p.initMainSteps.inOrder
      calGyro
      calAccel
      selectGyroRange p.initGyroRange
      selectAccelRange p.initAccelRange) := by
  simp only [initMain, runSteps_append, MainSteps.inOrder, List.append_assoc]

/-- The reads of two step lists. -/
theorem readsOf_append (xs ys : List MicroOp) : readsOf (xs ++ ys) = readsOf xs + readsOf ys := by
  induction xs with
  | nil => simp [readsOf]
  | cons x xs ih =>
    cases x <;> simp only [List.cons_append, readsOf, ih]
    omega

/-! ### Reads -/

/-- `ReadGyroRaw` (R196). -/
theorem readGyroRaw_performs {d : List Byte} (h : d.length = 6) :
    Performs readGyroRaw p (readEvents p p.gyroOut d) (axisBig d) :=
  Performs.bind_nil Performs.parameters ((readSix_performs _ h).bind_pure (Performs.pure _))

/-- `ReadAccelRaw` (R198). -/
theorem readAccelRaw_performs {d : List Byte} (h : d.length = 6) :
    Performs readAccelRaw p (readEvents p p.accelOut d) (axisBig d) :=
  Performs.bind_nil Performs.parameters ((readSix_performs _ h).bind_pure (Performs.pure _))

/-- A relayed read of six bytes. -/
theorem bridgeReadSix_performs (f : Addr7) (r : Byte) {d : List Byte} (h : d.length = 6) :
    Performs (bridgeReadBytes f r 6) p (bridgeReadEvents p f r d) d := by
  have := bridgeRead_performs (p := p) f r d
  rwa [h] at this

/-- `ReadMagScaled` through an open gate (R206). -/
theorem readMagScaled_performs {s1 s2 : Byte} {m : List Byte} (hm : m.length = 6) (h1 : dataReady p s1 = true)
    (h2 : overflowed p s2 = false) :
    Performs readMagScaled p (magEvents p s1 m s2) ((axisLittle m).map (scaleMag p.magScale)) := by
  unfold readMagScaled magEvents
  simp only [List.append_assoc]
  refine Performs.bind_nil Performs.parameters ((bridgeRead_performs _ _ [s1]).bind ?_)
  rw [if_pos (show dataReady p (byteAt [s1] 0) = true from h1)]
  refine (bridgeReadSix_performs _ _ hm).bind ((bridgeRead_performs _ _ [s2]).bind_pure ?_)
  rw [if_neg (show ¬overflowed p (byteAt [s2] 0) = true by simpa [byteAt] using h2)]
  exact Performs.pure _

/-- `ReadMagScaled` when the magnetometer is not ready (R206, R207 a). -/
theorem readMagScaled_notReady {s1 : Byte} (h1 : dataReady p s1 = false) :
    Raises readMagScaled p (bridgeReadEvents p p.magAddr p.magSt1Reg [s1]) (.notReadyOrOverflow .notReady) := by
  have : Raises readMagScaled p (bridgeReadEvents p p.magAddr p.magSt1Reg [s1] ++ [])
      (.notReadyOrOverflow .notReady) := by
    refine Performs.bind_nil_raises Performs.parameters ((bridgeRead_performs _ _ [s1]).bind_raises ?_)
    rw [if_neg (show ¬dataReady p (byteAt [s1] 0) = true by simpa [byteAt] using h1)]
    exact Raises.raise _
  simpa using this

/-- `ReadMagScaled` when the magnetometer has overflowed (R206, R207 b). -/
theorem readMagScaled_overflow {s1 s2 : Byte} {m : List Byte} (hm : m.length = 6) (h1 : dataReady p s1 = true)
    (h2 : overflowed p s2 = true) :
    Raises readMagScaled p (magEvents p s1 m s2) (.notReadyOrOverflow .overflow) := by
  have : Raises readMagScaled p (magEvents p s1 m s2 ++ []) (.notReadyOrOverflow .overflow) := by
    unfold readMagScaled magEvents
    simp only [List.append_assoc]
    refine Performs.bind_nil_raises Performs.parameters ((bridgeRead_performs _ _ [s1]).bind_raises ?_)
    rw [if_pos (show dataReady p (byteAt [s1] 0) = true from h1)]
    refine (bridgeReadSix_performs _ _ hm).bind_raises ((bridgeRead_performs _ _ [s2]).bind_raises ?_)
    rw [if_pos (show overflowed p (byteAt [s2] 0) = true from h2)]
    exact Raises.raise _
  simpa using this

end

/-! ### Range selections and the factors -/

/-- `SelectGyroRange` (R192): the accesses, then the divisor stored. -/
theorem selectGyroRange_apply {s : State} {e : Env} (r : RangeIx) (v : Byte)
    (h : s.env.run s.params
      (selectRangeEvents s.params s.params.gyroCfg s.params.gyroFsMask (s.params.gyroFsBits.get r) v) = some e) :
    selectGyroRange r s =
      (.ok (), (s.advance
        (selectRangeEvents s.params s.params.gyroCfg s.params.gyroFsMask (s.params.gyroFsBits.get r) v) e).setSfGyro
          (s.params.gyroSf.get r)) := by
  obtain ⟨m, h1, h2⟩ := Env.run_split h
  rw [selectGyroRange, Op.bind_ok s (parameters_apply s), Op.bind_ok s (readU8_performs _ v s m rfl h1),
    Op.bind_ok _ (writeU8_performs _ (mergeBits v (~~~s.params.gyroFsMask) (s.params.gyroFsBits.get r)) _ e rfl h2),
    State.advance_advance]
  rfl

/-- `SelectAccelRange` (R194): the accesses, then the divisor stored. -/
theorem selectAccelRange_apply {s : State} {e : Env} (r : RangeIx) (v : Byte)
    (h : s.env.run s.params
      (selectRangeEvents s.params s.params.accelCfg s.params.accelFsMask (s.params.accelFsBits.get r) v) = some e) :
    selectAccelRange r s =
      (.ok (), (s.advance
        (selectRangeEvents s.params s.params.accelCfg s.params.accelFsMask (s.params.accelFsBits.get r) v) e).setSfAccel
          (s.params.accelSf.get r)) := by
  obtain ⟨m, h1, h2⟩ := Env.run_split h
  rw [selectAccelRange, Op.bind_ok s (parameters_apply s), Op.bind_ok s (readU8_performs _ v s m rfl h1),
    Op.bind_ok _ (writeU8_performs _ (mergeBits v (~~~s.params.accelFsMask) (s.params.accelFsBits.get r)) _ e rfl h2),
    State.advance_advance]
  rfl

theorem gyroFactor_apply (s : State) :
    gyroFactor s = match s.sfGyro with
      | some sf => (.ok sf, s)
      | none => (.error (.scaleFactorUnset .gyroscope), s.closeFrame) := by
  rw [gyroFactor, Op.bind_ok s (Op.get_apply s)]
  cases s.sfGyro <;> rfl

theorem accelFactor_apply (s : State) :
    accelFactor s = match s.sfAccel with
      | some sf => (.ok sf, s)
      | none => (.error (.scaleFactorUnset .accelerometer), s.closeFrame) := by
  rw [accelFactor, Op.bind_ok s (Op.get_apply s)]
  cases s.sfAccel <;> rfl

/-- `InitMain` (R160) when nothing fails. -/
theorem initMain_apply {s : State} {e : Env} {vs rs : List Byte} {gs as : List (List Byte)} {old : Axis3 (List Byte)}
    {tg ta : Byte} (hn : vs.length < s.params.idRetryMax) (hv : ∀ v ∈ vs, v ≠ s.params.mainId.value)
    (hrs : rs.length = readsOf s.params.initMainSteps.inOrder)
    (hg : gs.length = s.params.calSamples) (hg' : ∀ d ∈ gs, d.length = 6)
    (ha : as.length = s.params.calSamples) (ha' : ∀ d ∈ as, d.length = 6) (ho : ∀ d ∈ old.toList, d.length = 2)
    (h : s.env.run s.params (initMainEvents s.params vs rs gs as old tg ta) = some e) :
    initMain s =
      (.ok (), ((s.advance (initMainEvents s.params vs rs gs as old tg ta) e).setSfGyro
        (s.params.gyroSf.get s.params.initGyroRange)).setSfAccel (s.params.accelSf.get s.params.initAccelRange)) := by
  obtain ⟨e5, h, h6⟩ := Env.run_split h
  obtain ⟨e4, h, h5⟩ := Env.run_split h
  obtain ⟨e3, h, h4⟩ := Env.run_split h
  obtain ⟨e2, h, h3⟩ := Env.run_split h
  obtain ⟨e1, h1, h2⟩ := Env.run_split h
  rw [initMain_eq, Op.bind_ok _ (parameters_apply _), Op.bind_ok _ (identityMain_performs hv hn s e1 rfl h1),
    Op.bind_ok _ (runSteps_performs s.params.initMainSteps.inOrder rs hrs (s.advance _ e1) e2 rfl h2),
    Op.bind_ok _ (calGyro_performs hg hg' ((s.advance _ e1).advance _ e2) e3 rfl h3), Op.bind_ok _ (calAccel_performs ha ha' ho (((s.advance _ e1).advance _ e2).advance _ e3) e4 rfl h4),
    Op.bind_ok _ (selectGyroRange_apply (s := (((s.advance _ e1).advance _ e2).advance _ e3).advance _ e4) _ tg h5)]
  refine (selectAccelRange_apply _ ta h6).trans ?_
  simp only [initMainEvents, initMainEventsBeforeAccel, State.advance_advance]
  simp [State.advance, State.setSfGyro, State.setSfAccel, csAfter_append]

/-- `ReadGyroScaled` with the factor set (R201). -/
theorem readGyroScaled_apply {s : State} {e : Env} {d : List Byte} {sf : Ratio} (hsf : s.sfGyro = some sf)
    (hd : d.length = 6) (h : s.env.run s.params (readEvents s.params s.params.gyroOut d) = some e) :
    readGyroScaled s = (.ok (scaleGyro sf (axisBig d)), s.advance (readEvents s.params s.params.gyroOut d) e) := by
  rw [readGyroScaled, Op.bind_ok s (by rw [gyroFactor_apply, hsf] : gyroFactor s = (.ok sf, s)),
    Op.bind_ok s (readGyroRaw_performs hd s e rfl h)]
  rfl

/-- `ReadAccelScaled` with the factor set (R203). -/
theorem readAccelScaled_apply {s : State} {e : Env} {d : List Byte} {sf : Ratio} (hsf : s.sfAccel = some sf)
    (hd : d.length = 6) (h : s.env.run s.params (readEvents s.params s.params.accelOut d) = some e) :
    readAccelScaled s =
      (.ok (scaleAccel s.params.accelZArtifact sf (axisBig d)),
        s.advance (readEvents s.params s.params.accelOut d) e) := by
  rw [readAccelScaled, Op.bind_ok s (by rw [accelFactor_apply, hsf] : accelFactor s = (.ok sf, s)),
    Op.bind_ok s (parameters_apply s), Op.bind_ok s (readAccelRaw_performs hd s e rfl h)]
  rfl

/-- The snapshot up to its magnetometer read (R216, R217). -/
theorem readSnapshot_apply {s : State} {e : Env} {g a : List Byte} {sfg sfa : Ratio} (hg : s.sfGyro = some sfg)
    (ha : s.sfAccel = some sfa) (hgl : g.length = 6) (hal : a.length = 6)
    (h : s.env.run s.params (snapshotMainEvents s.params g a) = some e) :
    readSnapshot s =
      (do
        let m ← readMagInSnapshot
        return scaledPayload (scaleGyro sfg (axisBig g)) ++
          scaledPayload (scaleAccel s.params.accelZArtifact sfa (axisBig a)) ++ scaledPayload m : Op (List Byte))
        (s.advance (snapshotMainEvents s.params g a) e) := by
  obtain ⟨e1, h1, h2⟩ := Env.run_split h
  rw [readSnapshot, Op.bind_ok s (by rw [gyroFactor_apply, hg] : gyroFactor s = (.ok sfg, s)),
    Op.bind_ok s (by rw [accelFactor_apply, ha] : accelFactor s = (.ok sfa, s)),
    Op.bind_ok s (readGyroScaled_apply hg hgl h1),
    Op.bind_ok _ (readAccelScaled_apply (s := s.advance _ e1) ha hal h2), State.advance_advance]
  rfl

/-- The magnetometer read of a snapshot, from the plain one (R216, R219). -/
theorem readMagInSnapshot_apply (s : State) :
    readMagInSnapshot s = match readMagScaled s with
      | (.ok m, t) => (.ok m, t)
      | (.error e, t) => (.error (rewrapGateError e), t.closeFrame) := by
  rw [readMagInSnapshot, Op.tryCatch_apply]
  rcases readMagScaled s with ⟨_ | _, t⟩ <;> rfl

/-- An operation that ends in a result, issued. -/
theorem issue_ok {op : Op (List Byte)} {s t : State} {payload : List Byte} (h : s.ready)
    (hop : op (s.setSeq .busy) = (.ok payload, t)) : issue op s = .next (t.respondOk payload) := by
  simp [issue, h.1, h.2, hop, respond]

/-- An operation that ends in an exception, issued. -/
theorem issue_error {op : Op (List Byte)} {s t : State} {err : Error} (h : s.ready)
    (hop : op (s.setSeq .busy) = (.error err, t)) : issue op s = .next (t.takeException err) := by
  simp [issue, h.1, h.2, hop, respond]

/-- An operation that answers a next state was issued on a ready machine. -/
theorem issue_next {op : Op (List Byte)} {s t : State} (h : issue op s = .next t) :
    s.ready ∧ t = respond (op (s.setSeq .busy)) := by
  unfold issue at h
  split at h
  · cases h
  · split at h
    · cases h
    · rename_i h1 h2
      cases h
      refine ⟨⟨?_, by simpa using h2⟩, rfl⟩
      cases hs : s.seq
      · rfl
      · exact absurd hs h1

end Sys2Proof.Machine
end

