-- ==== Sys2Proof/Laws/Failure.lean ====
section
/-! SUPPORT. What a frame does when the transport reports a failure (R112): the counterpart of `frame_performs`. -/

namespace Sys2Proof.Machine

section
variable {s : State} {e : Env} {left : Bool}

/-- A failed step in an open frame: its event or none, then the frame is closed (R112, R113). -/
theorem transportFailed_apply {α : Type} (ev : Event) (h : (s.setEnv e.next.2).cs = .low) :
    (transportFailed left ev : Op α) (s.setEnv e.next.2) =
      (.error .busError,
        { s with tr := s.tr ++ failureEvents left ev, cs := .high, env := e.afterFailure s.params left ev }) := by
  cases left
  · show (_, (s.setEnv e.next.2).closeFrame) = _
    rw [State.closeFrame, if_pos h]
    rfl
  · show (_, ((s.setEnv e.next.2).record ev).closeFrame) = _
    rw [State.closeFrame, if_pos (show ((s.setEnv e.next.2).record ev).cs = .low from h)]
    simp [State.endFrame, State.record, State.setCs, State.setEnv, failureEvents, Env.afterFailure]

theorem txByte_fails (b : Byte) (hcs : s.cs = .low) (hf : s.env.next.1.report = .failed left) :
    txByte b s =
      (.error .busError,
        { s with tr := s.tr ++ failureEvents left (.tx b), cs := .high
                 env := s.env.afterFailure s.params left (.tx b) }) := by
  rw [txByte, Op.bind_ok s (answer_apply s), hf]
  exact transportFailed_apply (e := s.env) _ hcs

theorem rxByte_fails (hcs : s.cs = .low) (hf : s.env.next.1.report = .failed left) :
    rxByte s =
      (.error .busError,
        { s with tr := s.tr ++ failureEvents left (.rx (s.env.nextByte s.params)), cs := .high
                 env := s.env.afterFailure s.params left (.rx (s.env.nextByte s.params)) }) := by
  rw [rxByte, Op.bind_ok s (answer_apply s), Op.bind_ok _ (Op.get_apply _), hf]
  exact transportFailed_apply (e := s.env) _ hcs

/-- A transmission that fails at byte `k`. -/
theorem txAll_fails (tx : List Byte) (k : Nat) (hk : k < tx.length) (hcs : s.cs = .low)
    (hrun : s.env.run s.params ((tx.take k).map .tx) = some e) (hf : e.next.1.report = .failed left) :
    txAll tx s =
      (.error .busError,
        { s with tr := s.tr ++ ((tx.take k).map .tx ++ failureEvents left (.tx tx[k])), cs := .high
                 env := e.afterFailure s.params left (.tx tx[k]) }) := by
  induction tx generalizing s k with
  | nil => simp at hk
  | cons b tx ih =>
    cases k with
    | zero =>
      cases hrun
      rw [txAll, Op.bind_error s (txByte_fails b hcs hf)]
      rfl
    | succ k =>
      obtain ⟨m, h1, h2⟩ := Env.run_split (es := [Event.tx b]) hrun
      rw [txAll, Op.bind_ok s (txByte_performs b s m rfl h1)]
      rw [ih (s := s.advance [.tx b] m) k (by simpa using hk) (by simpa [State.advance, csAfter] using hcs) h2]
      simp [State.advance]

/-- A reception that fails after the bytes `rx`. -/
theorem rxAll_fails (rx : List Byte) (m : Nat) (hm : rx.length < m) (hcs : s.cs = .low)
    (hrun : s.env.run s.params (rx.map .rx) = some e) (hf : e.next.1.report = .failed left) :
    rxAll m s =
      (.error .busError,
        { s with tr := s.tr ++ (rx.map .rx ++ failureEvents left (.rx (e.nextByte s.params))), cs := .high
                 env := e.afterFailure s.params left (.rx (e.nextByte s.params)) }) := by
  obtain ⟨n, rfl⟩ := Nat.exists_eq_add_one_of_ne_zero (by omega : m ≠ 0)
  induction rx generalizing s n with
  | nil =>
    cases hrun
    rw [rxAll, Op.bind_error s (rxByte_fails hcs hf)]
    rfl
  | cons r rx ih =>
    have hn : rx.length < n := by simpa using hm
    obtain ⟨k, rfl⟩ := Nat.exists_eq_add_one_of_ne_zero (by omega : n ≠ 0)
    obtain ⟨m, h1, h2⟩ := Env.run_split (es := [Event.rx r]) hrun
    rw [rxAll, Op.bind_ok s (rxByte_performs r s m rfl h1),
      Op.bind_error _ (ih (s := s.advance [.rx r] m) (by simpa [State.advance, csAfter] using hcs) h2 k hn)]
    simp [State.advance]

/-- `CS` stays low while bytes are transmitted. -/
theorem csAfter_transmitted (tx : List Byte) : csAfter .low (tx.map .tx) = .low := by
  induction tx with
  | nil => rfl
  | cons b tx ih => exact ih

/-- A frame that fails at its `k`th transmitted byte (R111, R112). -/
theorem frame_fails_tx (tx : List Byte) (m k : Nat) (hk : k < tx.length)
    (hrun : s.env.run s.params (openFrameEvents (tx.take k) []) = some e) (hf : e.next.1.report = .failed left) :
    frame tx m s =
      (.error .busError,
        s.advance (openFrameEvents (tx.take k) [] ++ failureEvents left (.tx tx[k]))
          (e.afterFailure s.params left (.tx tx[k]))) := by
  obtain ⟨e1, h1, h2⟩ := Env.run_split (es := [Event.csLow]) (fs := (tx.take k).map .tx)
    (by simpa [openFrameEvents] using hrun)
  rw [frame, Op.bind_ok s (beginFrame_performs s e1 rfl h1),
    Op.bind_error _ (txAll_fails (s := s.advance [.csLow] e1) tx k hk rfl h2 hf)]
  have hcs : csAfter s.cs (openFrameEvents (tx.take k) [] ++ failureEvents left (.tx tx[k])) = .high := by
    rw [failureEvents, ← List.append_assoc, csAfter_append]
    rfl
  simp only [State.advance, hcs]
  simp [openFrameEvents]

/-- A frame that fails after the received bytes `rx` (R111, R112). -/
theorem frame_fails_rx (tx : List Byte) (m : Nat) (rx : List Byte) (hm : rx.length < m)
    (hrun : s.env.run s.params (openFrameEvents tx rx) = some e) (hf : e.next.1.report = .failed left) :
    frame tx m s =
      (.error .busError,
        s.advance (openFrameEvents tx rx ++ failureEvents left (.rx (e.nextByte s.params)))
          (e.afterFailure s.params left (.rx (e.nextByte s.params)))) := by
  obtain ⟨e2, h12, h3⟩ := Env.run_split (es := [Event.csLow] ++ tx.map .tx) (fs := rx.map .rx)
    (by simpa [openFrameEvents] using hrun)
  obtain ⟨e1, h1, h2⟩ := Env.run_split h12
  rw [frame, Op.bind_ok s (beginFrame_performs s e1 rfl h1),
    Op.bind_ok _ (txAll_performs tx (s.advance [.csLow] e1) e2 rfl h2),
    Op.bind_error _ (rxAll_fails (s := (s.advance [.csLow] e1).advance (tx.map .tx) e2) rx m hm
      (csAfter_transmitted tx) h3 hf)]
  have hcs : csAfter s.cs (openFrameEvents tx rx ++ failureEvents left (.rx (e.nextByte s.params))) = .high := by
    rw [failureEvents, ← List.append_assoc, csAfter_append]
    rfl
  simp only [State.advance, hcs]
  simp [openFrameEvents]

end

/-! ### A failure at any bus step of an operation (R112, R235)

`Fails` is the counterpart of `Performs`: what is done before the failing step stays, and nothing follows it. -/

/-- With parameters `p`, wherever the environment lets a part of the events `es` happen and then fails, the operation raises
`BusError` there. -/
def Fails {α : Type} (op : Op α) (p : Params) (es : List Event) : Prop :=
  ∀ s n e left ev, s.params = p → FailsAt s es n e left ev →
    op s = (.error .busError, s.advance (es.take n ++ failureEvents left ev) (e.afterFailure p left ev))

/-- The operation performs `es` with the result `a` where nothing fails, and raises `BusError` where a step fails. -/
structure Runs {α : Type} (op : Op α) (p : Params) (es : List Event) (a : α) : Prop where
  performs : Performs op p es a
  fails : Fails op p es

section
variable {α β : Type} {p : Params} {es fs : List Event}

/-- A failure past the events `es` is a failure of what follows them. -/
theorem FailsAt.later {s : State} {n : Nat} {e : Env} {left : Bool} {ev : Event}
    (h : FailsAt s (es ++ fs) n e left ev) (hn : es.length ≤ n) :
    ∃ m, s.env.run s.params es = some m ∧ FailsAt (s.advance es m) fs (n - es.length) e left ev := by
  obtain ⟨hrun, hstep, hrep⟩ := h
  rw [List.take_append, List.take_of_length_le hn] at hrun
  obtain ⟨m, h1, h2⟩ := Env.run_split hrun
  rw [List.getElem?_append_right hn] at hstep
  exact ⟨m, h1, h2, hstep, hrep⟩

/-- A failure within the events `es` is one of them. -/
theorem FailsAt.within {s : State} {n : Nat} {e : Env} {left : Bool} {ev : Event}
    (h : FailsAt s (es ++ fs) n e left ev) (hn : n < es.length) : FailsAt s es n e left ev := by
  obtain ⟨hrun, hstep, hrep⟩ := h
  rw [List.take_append_of_le_length hn.le] at hrun
  rw [List.getElem?_append_left hn] at hstep
  exact ⟨hrun, hstep, hrep⟩

theorem Fails.nil (op : Op α) : Fails op p [] := by
  rintro s n e left ev - ⟨-, h, -⟩
  simp at h

/-- A failure in the first of two operations, the second of which adds no event. -/
theorem Fails.left {op : Op α} (h : Fails op p es) (f : α → Op β) : Fails (op >>= f) p es := by
  intro s n e left ev hp hf
  rw [Op.bind_error s (h s n e left ev hp hf)]

theorem Fails.bind {op : Op α} {f : α → Op β} {a : α} (h : Runs op p es a) (h' : Fails (f a) p fs) :
    Fails (op >>= f) p (es ++ fs) := by
  intro s n e left ev hp hf
  rcases Nat.lt_or_ge n es.length with hn | hn
  · rw [Op.bind_error s (h.fails s n e left ev hp (hf.within hn)), List.take_append_of_le_length hn.le]
  · obtain ⟨m, hrun, hf'⟩ := hf.later hn
    subst hp
    rw [Op.bind_ok s (h.performs s m rfl hrun), h' (s.advance es m) _ e left ev rfl hf', State.advance_advance,
      List.take_append, List.take_of_length_le hn, List.append_assoc]

theorem Runs.pure (a : α) : Runs (pure a : Op α) p [] a := ⟨Performs.pure a, Fails.nil _⟩

theorem Runs.bind {op : Op α} {f : α → Op β} {a : α} {b : β} (h : Runs op p es a) (h' : Runs (f a) p fs b) :
    Runs (op >>= f) p (es ++ fs) b := ⟨h.performs.bind h'.performs, Fails.bind h h'.fails⟩

theorem Runs.bind_pure {op : Op α} {a : α} {b : β} {f : α → Op β} (h : Runs op p es a) (h' : Runs (f a) p [] b) :
    Runs (op >>= f) p es b := by
  simpa using h.bind h'

theorem Runs.parameters : Runs parameters p [] p := ⟨Performs.parameters, Fails.nil _⟩

theorem Fails.parameters {f : Params → Op β} (h : Fails (f p) p es) : Fails (parameters >>= f) p es :=
  Fails.bind Runs.parameters h

theorem delay_runs (d : Nat) : Runs (delay d) p (delayEvents d) () := by
  refine ⟨delay_performs d, ?_⟩
  rintro s n e left ev - ⟨-, h, -⟩
  unfold delayEvents at h
  split at h
  · simp at h
  · rcases n with _ | n <;> simp [Env.failedStep] at h

/-- A frame (R111, R112). -/
theorem frame_runs (tx rx : List Byte) : Runs (frame tx rx.length) p (frameEvents tx rx) rx := by
  refine ⟨frame_performs tx rx, ?_⟩
  rintro s n e left ev rfl ⟨hrun, hstep, hrep⟩
  have hes : frameEvents tx rx = [Event.csLow] ++ (tx.map .tx ++ (rx.map .rx ++ [.csHigh])) := by
    simp [frameEvents]
  rw [hes] at hrun hstep ⊢
  rcases n with _ | n
  · simp [Env.failedStep] at hstep
  · rw [List.singleton_append, List.getElem?_cons_succ] at hstep
    rw [List.singleton_append, List.take_succ_cons] at hrun ⊢
    rcases Nat.lt_or_ge n tx.length with hn | hn
    · rw [List.getElem?_append_left (by simpa using hn), List.getElem?_map, List.getElem?_eq_getElem hn] at hstep
      rw [List.take_append_of_le_length (by simpa using hn.le), ← List.map_take] at hrun ⊢
      simp only [Option.map_some, Option.bind_some, Env.failedStep, Option.some.injEq] at hstep
      subst hstep
      simpa [openFrameEvents] using
        frame_fails_tx tx rx.length n hn (by simpa [openFrameEvents] using hrun) hrep
    · obtain ⟨k, rfl⟩ := Nat.exists_eq_add_of_le hn
      have hlen : (tx.map Event.tx).length ≤ tx.length + k := by simp
      rw [List.getElem?_append_right hlen, List.length_map, Nat.add_sub_cancel_left] at hstep
      rw [List.take_append, List.take_of_length_le hlen, List.length_map, Nat.add_sub_cancel_left] at hrun ⊢
      rcases Nat.lt_or_ge k rx.length with hk | hk
      · rw [List.getElem?_append_left (by simpa using hk), List.getElem?_map, List.getElem?_eq_getElem hk] at hstep
        rw [List.take_append_of_le_length (by simpa using hk.le), ← List.map_take] at hrun ⊢
        simp only [Option.map_some, Option.bind_some, Env.failedStep, Option.some.injEq] at hstep
        subst hstep
        simpa [openFrameEvents] using
          frame_fails_rx tx rx.length (rx.take k) (by simpa using hk) (by simpa [openFrameEvents] using hrun) hrep
      · rw [List.getElem?_append_right (by simpa using hk)] at hstep
        rcases h : k - rx.length with _ | j <;> simp [h, Env.failedStep] at hstep

theorem readFrame_runs (a : Addr7) (rx : List Byte) :
    Runs (readFrame a rx.length) p (frameEvents [0x80#8 ||| a.setWidth 8] rx) rx := frame_runs _ rx

theorem writeFrame_runs (a : Addr7) (data : List Byte) :
    Runs (writeFrame a data) p (frameEvents (a.setWidth 8 :: data) []) () :=
  (frame_runs _ []).bind_pure (Runs.pure ())

/-- `SelectBank` (R121). -/
theorem selectBank_runs (b : Bank) : Runs (selectBank b) p (selectEvents p b) () :=
  Runs.parameters.bind (writeFrame_runs _ _)

/-- `ReadBytes` (R127, R130). -/
theorem readBytes_runs (r : RegAddr) (rx : List Byte) : Runs (readBytes r rx.length) p (readEvents p r rx) rx :=
  (selectBank_runs r.bank).bind (readFrame_runs r.reg rx)

/-- `ReadBytes` of a known count. -/
theorem readCount_runs (r : RegAddr) {n : Nat} {rx : List Byte} (h : rx.length = n) :
    Runs (readBytes r n) p (readEvents p r rx) rx := h ▸ readBytes_runs r rx

/-- `ReadU8` (R123, R130). -/
theorem readU8_runs (r : RegAddr) (v : Byte) : Runs (readU8 r) p (readEvents p r [v]) v :=
  (selectBank_runs r.bank).bind ((readFrame_runs r.reg [v]).bind_pure (Runs.pure v))

/-- `WriteBytes` (R129, R130). -/
theorem writeBytes_runs (r : RegAddr) (data : List Byte) : Runs (writeBytes r data) p (writeEvents p r data) () :=
  (selectBank_runs r.bank).bind (writeFrame_runs r.reg data)

/-- `WriteU8` (R125, R130). -/
theorem writeU8_runs (r : RegAddr) (v : Byte) : Runs (writeU8 r v) p (writeEvents p r [v]) () :=
  (selectBank_runs r.bank).bind (writeFrame_runs r.reg [v])

/-- `BridgeRead` (R141, R149). -/
theorem bridgeRead_runs (f : Addr7) (r : Byte) {n : Nat} {rx : List Byte} (h : rx.length = n) :
    Runs (bridgeReadBytes f r n) p (bridgeReadEvents p f r rx) rx := by
  subst h
  unfold bridgeReadBytes bridgeReadEvents
  simp only [List.append_assoc]
  exact Runs.parameters.bind ((writeU8_runs _ (followerReadByte p f)).bind ((writeU8_runs _ _).bind
    ((delay_runs _).bind ((writeU8_runs _ (controlByte p rx.length)).bind ((delay_runs _).bind
      (readBytes_runs _ rx))))))

/-- `BridgeWrite` (R145, R149). -/
theorem bridgeWrite_runs (f : Addr7) (r v : Byte) :
    Runs (bridgeWriteByte f r v) p (bridgeWriteEvents p f r v) () := by
  unfold bridgeWriteByte bridgeWriteEvents
  simp only [List.append_assoc]
  exact Runs.parameters.bind ((writeU8_runs _ (followerWriteByte f)).bind ((writeU8_runs _ _).bind
    ((writeU8_runs _ _).bind ((delay_runs _).bind ((writeU8_runs _ (controlByte p 1)).bind (delay_runs _))))))

/-- The samples of a calibration (R176). -/
theorem sumSamples_fails (source : RegAddr) (ds : List (List Byte)) (hlen : ∀ d ∈ ds, d.length = 6) (acc : Axis3 Int) :
    Fails (sumSamples source ds.length acc) p (sampleEvents p source ds) := by
  induction ds generalizing acc with
  | nil => exact Fails.nil _
  | cons d ds ih =>
    have hr := readCount_runs (p := p) source (hlen d (by simp))
    have ih' := ih (fun d' h => hlen d' (by simp [h])) (acc.add (axisBig d))
    cases ds with
    | nil => exact hr.fails.left _
    | cons d' ds =>
      simp only [sampleEvents, List.append_assoc]
      refine Fails.bind hr (Fails.bind ⟨sampleGap_performs _, ?_⟩ ih')
      exact Fails.parameters (delay_runs _).fails

theorem samples_runs (source : RegAddr) {ds : List (List Byte)} (h1 : ds.length = p.calSamples)
    (h2 : ∀ d ∈ ds, d.length = 6) :
    Runs (sumSamples source p.calSamples ⟨0, 0, 0⟩) p (sampleEvents p source ds) (sampleSum ds) :=
  ⟨samples_performs source h1 h2, h1 ▸ sumSamples_fails source ds h2 _⟩

/-- `CalGyro`: pairs already written stay (R177). -/
theorem calGyro_runs {ds : List (List Byte)} (h1 : ds.length = p.calSamples) (h2 : ∀ d ∈ ds, d.length = 6) :
    Runs calGyro p (calGyroEvents p ds) () := by
  unfold calGyro calGyroEvents
  simp only [List.append_assoc]
  exact Runs.parameters.bind ((samples_runs _ h1 h2).bind
    ((writeBytes_runs _ _).bind ((writeBytes_runs _ _).bind (writeBytes_runs _ _))))

/-- `CalAccel` (R181). -/
theorem calAccel_runs {ds : List (List Byte)} {old : Axis3 (List Byte)} (h1 : ds.length = p.calSamples)
    (h2 : ∀ d ∈ ds, d.length = 6) (h3 : ∀ d ∈ old.toList, d.length = 2) :
    Runs calAccel p (calAccelEvents p ds old) () := by
  simp only [Axis3.toList, List.mem_cons, List.not_mem_nil, or_false, forall_eq_or_imp, forall_eq] at h3
  unfold calAccel calAccelEvents
  simp only [List.append_assoc]
  exact Runs.parameters.bind ((samples_runs _ h1 h2).bind
    ((readCount_runs _ h3.1).bind ((readCount_runs _ h3.2.1).bind ((readCount_runs _ h3.2.2).bind
      ((writeBytes_runs _ _).bind ((writeBytes_runs _ _).bind (writeBytes_runs _ _)))))))

/-- A step list (R156, R168). -/
theorem runSteps_runs (ops : List MicroOp) (rs : List Byte) (h : rs.length = readsOf ops) :
    Runs (runSteps ops) p (stepEvents p ops rs) () := by
  induction ops generalizing rs with
  | nil => exact Runs.pure ()
  | cons op ops ih =>
    cases op with
    | w addr v => exact (writeU8_runs addr v).bind (ih rs h)
    | bw r v => exact (Runs.parameters.bind (bridgeWrite_runs _ r v)).bind (ih rs h)
    | d ms => exact (delay_runs ms).bind (ih rs h)
    | rmw addr keep set =>
      cases rs with
      | nil => simp [readsOf] at h
      | cons t rs =>
        exact Runs.bind (a := ()) ((readU8_runs addr t).bind (writeU8_runs addr (mergeBits t keep set)))
          (ih rs (by simpa [readsOf] using h))

/-- The identity check of the main device: a failed read is no mismatch and is not retried (R158). -/
theorem identityMain_runs {vs : List Byte} (hv : ∀ v ∈ vs, v ≠ p.mainId.value) {n : Nat} (h : vs.length < n) :
    Runs (identityMain n) p (mainMismatchEvents p vs ++ readEvents p p.mainId.addr [p.mainId.value]) () := by
  refine ⟨identityMain_performs hv h, ?_⟩
  obtain ⟨n, rfl⟩ := Nat.exists_eq_add_one_of_ne_zero (by omega : n ≠ 0)
  induction vs generalizing n with
  | nil => exact Fails.parameters ((readU8_runs _ _).fails.left _)
  | cons v vs ih =>
    have hn : vs.length < n := by simpa using h
    obtain ⟨m, rfl⟩ := Nat.exists_eq_add_one_of_ne_zero (by omega : n ≠ 0)
    simp only [mainMismatchEvents, List.append_assoc]
    refine Fails.parameters (Fails.bind (readU8_runs _ v) ?_)
    rw [if_neg (hv v (by simp)), if_neg (by simp)]
    exact Fails.bind (delay_runs _) (ih (fun w hw => hv w (by simp [hw])) m hn)

/-- The identity check of the magnetometer (R159). -/
theorem identityMag_runs {vs : List Byte} (hv : ∀ v ∈ vs, v ≠ p.magId.value) {n : Nat} (h : vs.length < n) :
    Runs (identityMag n) p
      (magMismatchEvents p vs ++ bridgeReadEvents p p.magAddr p.magId.reg [p.magId.value]) () := by
  refine ⟨identityMag_performs hv h, ?_⟩
  obtain ⟨n, rfl⟩ := Nat.exists_eq_add_one_of_ne_zero (by omega : n ≠ 0)
  induction vs generalizing n with
  | nil =>
    refine Fails.parameters (Fails.left ?_ _)
    exact (bridgeRead_runs (rx := [p.magId.value]) _ _ rfl).fails
  | cons v vs ih =>
    have hn : vs.length < n := by simpa using h
    obtain ⟨m, rfl⟩ := Nat.exists_eq_add_one_of_ne_zero (by omega : n ≠ 0)
    simp only [magMismatchEvents, List.append_assoc]
    refine Fails.parameters (Fails.bind (bridgeRead_runs _ _ (rx := [v]) rfl) ?_)
    rw [if_neg (show byteAt [v] 0 ≠ _ from hv v (by simp)), if_neg (by simp)]
    exact Fails.bind (delay_runs _) (ih (fun w hw => hv w (by simp [hw])) m hn)

/-- The accesses of a range selection: the factor is stored after them (R192). -/
theorem selectGyroRange_fails (r : RangeIx) (v : Byte) :
    Fails (selectGyroRange r) p (selectRangeEvents p p.gyroCfg p.gyroFsMask (p.gyroFsBits.get r) v) :=
  Fails.parameters (Fails.bind (readU8_runs _ v) ((writeU8_runs _ (mergeBits v _ _)).fails.left _))

theorem selectAccelRange_fails (r : RangeIx) (v : Byte) :
    Fails (selectAccelRange r) p (selectRangeEvents p p.accelCfg p.accelFsMask (p.accelFsBits.get r) v) :=
  Fails.parameters (Fails.bind (readU8_runs _ v) ((writeU8_runs _ (mergeBits v _ _)).fails.left _))

/-- `ReadMagScaled` past its ready gate, whatever the overflow bit will be (R206). -/
theorem readMagScaled_fails {s1 s2 : Byte} {m : List Byte} (hm : m.length = 6) (h1 : dataReady p s1 = true) :
    Fails readMagScaled p (magEvents p s1 m s2) := by
  unfold readMagScaled magEvents
  simp only [List.append_assoc]
  refine Fails.parameters (Fails.bind (bridgeRead_runs _ _ (rx := [s1]) rfl) ?_)
  rw [if_pos (show dataReady p (byteAt [s1] 0) = true from h1)]
  refine Fails.bind (bridgeRead_runs _ _ hm) ?_
  exact (bridgeRead_runs _ _ (rx := [s2]) rfl).fails.left _

/-- The rewrapping of the snapshot leaves `BusError` as it is (R235). -/
theorem readMagInSnapshot_fails (h : Fails readMagScaled p es) : Fails readMagInSnapshot p es := by
  intro s n e left ev hp hf
  rw [readMagInSnapshot_apply, h s n e left ev hp hf]
  refine Prod.ext rfl (State.closeFrame_of_high ?_)
  rw [State.advance_cs, failureEvents, ← List.append_assoc, csAfter_append]
  rfl

end

/-- An operation that fails, issued (R234). -/
theorem issue_fails {op : Op (List Byte)} {s : State} {es : List Event} {n : Nat} {e : Env} {left : Bool} {ev : Event}
    (h : Fails op s.params es) (hr : s.ready) (hf : FailsAt s es n e left ev) :
    issue op s =
      .next ((s.advance (es.take n ++ failureEvents left ev) (e.afterFailure s.params left ev)).send
        busErrorPacket) := by
  rw [issue_error hr (h (s.setSeq .busy) n e left ev rfl ⟨hf.run, hf.step, hf.report⟩)]
  have hcs : csAfter s.cs (es.take n ++ failureEvents left ev) = .high := by
    rw [failureEvents, ← List.append_assoc, csAfter_append]
    rfl
  obtain ⟨hidle, -⟩ := hr
  rw [State.takeException, State.closeFrame_of_high (show csAfter s.cs _ = .high from hcs)]
  cases s
  subst hidle
  rfl

end Sys2Proof.Machine
end

