-- ==== Sys2Proof/Laws/Float.lean ====
section
/-! SUPPORT. What rounding to the nearest, ties to even, answers. -/

namespace Sys2Proof.Machine

/-- Within half a unit of the quotient. -/
theorem roundHalfEven_close {n d : Nat} (hd : 0 < d) :
    2 * n ≤ (2 * roundHalfEven n d + 1) * d ∧ 2 * roundHalfEven n d * d ≤ 2 * n + d := by
  have h := Nat.div_add_mod n d
  have hc : d * (n / d) = n / d * d := Nat.mul_comm _ _
  have h1 : ∀ q : Nat, (2 * q + 1) * d = 2 * (q * d) + d := fun q => by ring
  have h2 : ∀ q : Nat, 2 * q * d = 2 * (q * d) := fun q => by ring
  have h3 : (n / d + 1) * d = n / d * d + d := by ring
  have hm := Nat.mod_lt n hd
  rw [h1, h2]
  unfold roundHalfEven
  split
  · omega
  · split
    · rw [h3]
      omega
    · split
      · omega
      · rw [h3]
        omega

/-- A tie rounds to even. -/
theorem roundHalfEven_tie {n d : Nat} (h : 2 * (n % d) = d) : roundHalfEven n d % 2 = 0 := by
  unfold roundHalfEven
  split
  · omega
  · split
    · omega
    · split <;> omega

/-- A multiple is not rounded. -/
theorem roundHalfEven_exact {k d : Nat} (hd : 0 < d) : roundHalfEven (k * d) d = k := by
  simp [roundHalfEven, Nat.mul_div_cancel _ hd, hd]

end Sys2Proof.Machine
end

