-- ==== Sys2Proof/Laws/Operands.lean ====
section
/-! SUPPORT. The operand checks of R100 and the bytes of R81 to R89: a legal operand passes without an event, any other
raises `IllegalCommand` without an event. -/

namespace Sys2Proof.Machine

section
variable {p : Params}

/-- Bits 7:2 are zero exactly in the bytes below 4. -/
theorem legalIndex_iff (b : Byte) : legalIndex b = true ↔ b >>> 2 = 0x00#8 := by
  revert b
  decide

/-- Bit 7 is zero exactly in the bytes below 128. -/
theorem legalAddr_iff (b : Byte) : legalAddr b = true ↔ b.msb = false := by
  revert b
  decide

theorem legalIndex_indexByte (k : Fin 4) : legalIndex (indexByte k) = true := by
  revert k
  decide

theorem legalAddr_addrByte (a : Addr7) : legalAddr (addrByte a) = true := by
  revert a
  decide

/-- A legal index operand is the operand byte of its index. -/
theorem eq_indexByte {b : Byte} (h : legalIndex b = true) : ∃ k, b = indexByte k := by
  revert b
  decide

/-- A legal address operand is the operand byte of its address. -/
theorem eq_addrByte {b : Byte} (h : legalAddr b = true) : ∃ a, b = addrByte a := by
  refine ⟨b.setWidth 7, ?_⟩
  revert b
  decide

theorem addrByte_toNat (a : Addr7) : (addrByte a).toNat = a.toNat := by
  revert a
  decide

theorem indexOperand_performs (k : Fin 4) : Performs (indexOperand (indexByte k)) p [] k := by
  have h : indexOperand (indexByte k) = pure k := by
    rw [indexOperand, if_pos ((legalIndex_iff _).1 (legalIndex_indexByte k))]
    congr 1
    revert k
    decide
  rw [h]
  exact Performs.pure k

theorem indexOperand_raises {b : Byte} (h : legalIndex b = false) :
    Raises (indexOperand b) p [] .illegalCommand := by
  rw [indexOperand, if_neg fun h' => by simp [(legalIndex_iff b).2 h'] at h]
  exact Raises.raise _

theorem bankOperand_performs (k : Bank) : Performs (bankOperand (indexByte k)) p [] k := indexOperand_performs k

theorem bankOperand_raises {b : Byte} (h : legalIndex b = false) : Raises (bankOperand b) p [] .illegalCommand :=
  indexOperand_raises h

theorem rangeOperand_performs (k : RangeIx) : Performs (rangeOperand (indexByte k)) p [] k := indexOperand_performs k

theorem rangeOperand_raises {b : Byte} (h : legalIndex b = false) : Raises (rangeOperand b) p [] .illegalCommand :=
  indexOperand_raises h

theorem addrOperand_performs (a : Addr7) : Performs (addrOperand (addrByte a)) p [] a := by
  have h : addrOperand (addrByte a) = pure a := by
    rw [addrOperand, (legalAddr_iff _).1 (legalAddr_addrByte a)]
    simp only [Bool.false_eq_true, if_false]
    congr 1
    revert a
    decide
  rw [h]
  exact Performs.pure a

theorem addrOperand_raises {b : Byte} (h : legalAddr b = false) : Raises (addrOperand b) p [] .illegalCommand := by
  have : b.msb = true := by
    by_contra hb
    simp [(legalAddr_iff b).2 (by simpa using hb)] at h
  rw [addrOperand, this, if_pos rfl]
  exact Raises.raise _

theorem legalBurst_iff (start len : Nat) :
    legalBurst p start len = true ↔ (1 ≤ len ∧ len ≤ p.maxBurst) ∧ start + len ≤ 128 := by
  simp [legalBurst]

theorem burstOperand_performs {start : Addr7} {len : Nat} (h : legalBurst p start.toNat len = true) :
    Performs (burstOperand start len) p [] () := by
  rw [legalBurst_iff] at h
  refine Performs.bind_nil Performs.parameters ?_
  rw [if_pos h.1, if_pos h.2]
  exact Performs.pure ()

theorem burstOperand_raises {start : Addr7} {len : Nat} (h : legalBurst p start.toNat len = false) :
    Raises (burstOperand start len) p [] .illegalCommand := by
  have h' : ¬((1 ≤ len ∧ len ≤ p.maxBurst) ∧ start.toNat + len ≤ 128) := by
    rw [← legalBurst_iff, h]
    simp
  refine Performs.bind_nil_raises Performs.parameters ?_
  by_cases h1 : 1 ≤ len ∧ len ≤ p.maxBurst
  · rw [if_pos h1, if_neg fun h2 => h' ⟨h1, h2⟩]
    exact Raises.raise _
  · rw [if_neg h1]
    exact Raises.raise _

theorem transmitOperand_performs {tx : List Byte} (h : 1 ≤ tx.length ∧ tx.length ≤ 255) :
    Performs (transmitOperand tx) p [] () := by
  rw [transmitOperand, if_pos h]
  exact Performs.pure ()

theorem transmitOperand_raises {tx : List Byte} (h : ¬(1 ≤ tx.length ∧ tx.length ≤ 255)) :
    Raises (transmitOperand tx) p [] .illegalCommand := by
  rw [transmitOperand, if_neg h]
  exact Raises.raise _

end

/-! ### Operand checks leave the state alone -/

/-- An operand check either passes and changes nothing, or raises `IllegalCommand` and closes no open frame. -/
theorem indexOperand_apply (b : Byte) (s : State) :
    (∃ k, indexOperand b s = (.ok k, s)) ∨ indexOperand b s = (.error .illegalCommand, s.closeFrame) := by
  unfold indexOperand
  split
  · exact Or.inl ⟨_, rfl⟩
  · exact Or.inr rfl

theorem addrOperand_apply (b : Byte) (s : State) :
    (∃ a, addrOperand b s = (.ok a, s)) ∨ addrOperand b s = (.error .illegalCommand, s.closeFrame) := by
  unfold addrOperand
  split
  · exact Or.inr rfl
  · exact Or.inl ⟨_, rfl⟩

theorem transmitOperand_apply (tx : List Byte) (s : State) :
    transmitOperand tx s = (.ok (), s) ∨ transmitOperand tx s = (.error .illegalCommand, s.closeFrame) := by
  unfold transmitOperand
  split
  · exact Or.inl rfl
  · exact Or.inr rfl

theorem burstOperand_apply (start : Addr7) (len : Nat) (s : State) :
    burstOperand start len s = (.ok (), s) ∨ burstOperand start len s = (.error .illegalCommand, s.closeFrame) := by
  rw [burstOperand, Op.bind_ok s (parameters_apply s)]
  split
  · split
    · exact Or.inl rfl
    · exact Or.inr rfl
  · exact Or.inr rfl

end Sys2Proof.Machine
end

