-- ==== Sys2Proof/Laws/PerInstr.lean ====
section
/-! SUPPORT. Statements made instruction by instruction. `PacketLength`: the length the decoder computes for a packet
(30_encoding.md R94, R95) is the length the encoder gives it. -/

namespace Sys2Proof.Laws

/-- The packet of a well-formed host operation is as long as R94 and R95 say. -/
def PacketLength.Statement (i : Instr) : Prop :=
  ∀ p bytes, i.wellFormed p = true → encode i = .packet bytes → packetLength bytes = bytes.length

theorem PacketLength.xfer (tx : List Byte) (m : Byte) : PacketLength.Statement (.xfer tx m) := by
  intro p bytes h he
  cases he
  simp only [Instr.wellFormed, Bool.and_eq_true, decide_eq_true_eq] at h
  simp only [packetLength, List.getD_cons_zero, List.getD_cons_succ, BitVec.reduceToNat, List.length_cons,
    lengthByte_toNat h.2]
  omega

theorem PacketLength.selectBank (bank : Byte) : PacketLength.Statement (.selectBank bank) := by
  intro p bytes _ he
  cases he
  rfl

theorem PacketLength.readU8 (bank reg : Byte) : PacketLength.Statement (.readU8 bank reg) := by
  intro p bytes _ he
  cases he
  rfl

theorem PacketLength.writeU8 (bank reg value : Byte) : PacketLength.Statement (.writeU8 bank reg value) := by
  intro p bytes _ he
  cases he
  rfl

theorem PacketLength.readBytes (bank reg len : Byte) : PacketLength.Statement (.readBytes bank reg len) := by
  intro p bytes _ he
  cases he
  rfl

theorem PacketLength.writeBytes (bank reg : Byte) (data : List Byte) : PacketLength.Statement (.writeBytes bank reg data) := by
  intro p bytes h he
  cases he
  simp only [Instr.wellFormed, legalBurst, Bool.and_eq_true, decide_eq_true_eq] at h
  have hl : data.length ≤ 255 := by omega
  simp only [packetLength, List.getD_cons_zero, List.getD_cons_succ, BitVec.reduceToNat, List.length_cons,
    lengthByte_toNat hl]
  omega

theorem PacketLength.bridgeRead (f r len : Byte) : PacketLength.Statement (.bridgeRead f r len) := by
  intro p bytes _ he
  cases he
  rfl

theorem PacketLength.bridgeWrite (f r value : Byte) : PacketLength.Statement (.bridgeWrite f r value) := by
  intro p bytes _ he
  cases he
  rfl

theorem PacketLength.initMain : PacketLength.Statement .initMain := by
  intro p bytes _ he
  cases he
  rfl

theorem PacketLength.initBridgeDevice : PacketLength.Statement .initBridgeDevice := by
  intro p bytes _ he
  cases he
  rfl

theorem PacketLength.calGyro : PacketLength.Statement .calGyro := by
  intro p bytes _ he
  cases he
  rfl

theorem PacketLength.calAccel : PacketLength.Statement .calAccel := by
  intro p bytes _ he
  cases he
  rfl

theorem PacketLength.selectGyroRange (range : Byte) : PacketLength.Statement (.selectGyroRange range) := by
  intro p bytes _ he
  cases he
  rfl

theorem PacketLength.selectAccelRange (range : Byte) : PacketLength.Statement (.selectAccelRange range) := by
  intro p bytes _ he
  cases he
  rfl

theorem PacketLength.readGyroRaw : PacketLength.Statement .readGyroRaw := by
  intro p bytes _ he
  cases he
  rfl

theorem PacketLength.readAccelRaw : PacketLength.Statement .readAccelRaw := by
  intro p bytes _ he
  cases he
  rfl

theorem PacketLength.readGyroScaled : PacketLength.Statement .readGyroScaled := by
  intro p bytes _ he
  cases he
  rfl

theorem PacketLength.readAccelScaled : PacketLength.Statement .readAccelScaled := by
  intro p bytes _ he
  cases he
  rfl

theorem PacketLength.readMagScaled : PacketLength.Statement .readMagScaled := by
  intro p bytes _ he
  cases he
  rfl

theorem PacketLength.readSnapshot : PacketLength.Statement .readSnapshot := by
  intro p bytes _ he
  cases he
  rfl

theorem PacketLength.frameRead (addr : Addr7) (m : Nat) : PacketLength.Statement (.frameRead addr m) := by
  intro p bytes _ he
  simp [encode] at he

theorem PacketLength.frameWrite (addr : Addr7) (payload : List Byte) : PacketLength.Statement (.frameWrite addr payload) := by
  intro p bytes _ he
  simp [encode] at he

end Sys2Proof.Laws
end

