-- ==== Sys2Proof/Tests/Slice0.lean ====
section
/-! SUPPORT. The model's own tests: ill-formed terms, decoded words, one or two steps per instruction, and for every statement
with hypotheses a state and operands that meet them. Expected values come from the vectors of 95_test_vectors.md (named
S1, V45-7 and so on) or are computed by hand from the rule named. -/

namespace Sys2Proof.Tests

open Sys2Proof Sys2Proof.Machine

set_option Elab.async false

/-! ### Helpers -/

/-- The answers that let the events happen. -/
def answers : List Event → List BusAnswer
  | [] => []
  | .tx _ :: es => { byte := 0xFF#8, report := .done } :: answers es
  | .rx b :: es => { byte := b, report := .done } :: answers es
  | .csLow :: es => answers es
  | .csHigh :: es => answers es
  | .delay _ :: es => answers es

/-- A framer with parameters `p` after reset whose environment answers with `script`. -/
def scripted (p : Params) (script : List BusAnswer) : State :=
  { State.resetWith p with env := { script := script, count := 0, device := none } }

/-- A framer after reset whose environment lets the events happen. -/
def answering (p : Params) (es : List Event) : State := scripted p (answers es)

/-- The set EX with few calibration samples. -/
def few (n : Nat) : Params := { Params.vectorsEX with calSamples := n }

/-- The set EX. -/
abbrev ex : Params := Params.vectorsEX

/-- The devices with the registers `regs` and nothing in flight, the bridge completing as `timing` says (R34). -/
def devices (timing : BridgeTiming) (regs : Memory) : Device :=
  { bank := 0, regs := regs, pending := none, timing := timing, sampling := .still, frameTx := [], frameRx := 0 }

/-- Those devices, the bridge completing at the trigger, with sensors whose samples `coming` the bridge will find (R35). -/
def sampling (coming : List Byte) (regs : Memory) : Device :=
  { devices .atTrigger regs with sampling := .moving coming 0 }

/-- A framer after reset before the devices `d`, the bytes `bytes` coming from the environment. -/
def before (d : Device) (bytes : List Byte) : State :=
  { State.resetWith ex with env := { script := bytes.map doneAnswer, count := 0, device := some d } }

/-- A framer after reset before devices whose samples stand still. -/
def withBridge (timing : BridgeTiming) (regs : Memory) : State := before (devices timing regs) []

/-- A framer after reset before the reference device with the registers `regs` (R70). -/
abbrev withDevice (regs : Memory) : State := withBridge .atTrigger regs

/-- One transaction that completes at the `n`th bus event after its trigger. -/
def after (n : Nat) : BridgeTiming := .chosen [{ wait := n, repeats := false }] 0

/-- Whether the outcome is a next state that passes the check. -/
def reaches (o : Host.Outcome State Fault Refusal) (check : State → Bool) : Bool :=
  match o with
  | .next t => check t
  | .fault _ => false
  | .refused _ => false

theorem exists_of_reaches {o : Host.Outcome State Fault Refusal} {check : State → Bool} (h : reaches o check = true) :
    ∃ t, o = .next t ∧ check t = true := by
  cases o with
  | next t => exact ⟨t, rfl, h⟩
  | fault r => simp [reaches] at h
  | refused r => simp [reaches] at h

/-- The trace and the last response. -/
def shows (es : List Event) (response : List Byte) (t : State) : Bool :=
  decide (t.tr = es) && decide (t.responses = [response])

/-- A frame, as 95_test_vectors.md writes it. -/
def fr (tx rx : List Byte) : List Event := [.csLow] ++ tx.map .tx ++ rx.map .rx ++ [.csHigh]

/-! ### Well-formedness: each check refuses its ill-formed term -/

theorem test_wf_bank : (Instr.selectBank 0x04#8).wellFormed ex = false := by decide
theorem test_wf_range : (Instr.selectGyroRange 0x80#8).wellFormed ex = false := by decide
theorem test_wf_accel_range : (Instr.selectAccelRange 0x04#8).wellFormed ex = false := by decide
theorem test_wf_reg : (Instr.readU8 0x00#8 0x80#8).wellFormed ex = false := by decide
theorem test_wf_write_reg : (Instr.writeU8 0x00#8 0xFF#8 0x00#8).wellFormed ex = false := by decide
theorem test_wf_follower : (Instr.bridgeWrite 0x80#8 0x00#8 0x00#8).wellFormed ex = false := by decide
theorem test_wf_len_zero : (Instr.readBytes 0x00#8 0x00#8 0x00#8).wellFormed ex = false := by decide
theorem test_wf_len_max : (Instr.readBytes 0x00#8 0x00#8 0x07#8).wellFormed ex = false := by decide
theorem test_wf_len_end : (Instr.readBytes 0x00#8 0x7D#8 0x04#8).wellFormed ex = false := by decide
theorem test_wf_data_empty : (Instr.writeBytes 0x00#8 0x00#8 []).wellFormed ex = false := by decide
theorem test_wf_window :
    (Instr.bridgeRead 0x0C#8 0x11#8 0x06#8).wellFormed { ex with relayReg := 0x7B#7 } = false := by decide
theorem test_wf_xfer_empty : (Instr.xfer [] 0x01#8).wellFormed ex = false := by decide
theorem test_wf_frame_read : (Instr.frameRead 0x00#7 0).wellFormed ex = false := by decide
theorem test_wf_frame_write : (Instr.frameWrite 0x00#7 []).wellFormed ex = false := by decide
theorem test_wf_params : Params.wf { ex with calSamples := 0 } = false := by decide
theorem test_wf_params_ex : ex.wf = true := by decide
/-- R157: the `RESET` step must end with a settle delay. -/
theorem test_wf_params_settle :
    Params.wf { ex with initMainSteps := { ex.initMainSteps with reset := [] } } = false := by decide
/-- R191: configuration bits outside the mask. -/
theorem test_wf_params_mask : Params.wf { ex with gyroFsMask := 0x02#8 } = false := by decide

/-! ### Decoding: words written out from R94 and R82 -/

theorem test_decode_xfer :
    decodePacket [0x01#8, 0x02#8, 0x03#8, 0x80#8, 0x55#8, 0x60#8] = .instr (.xfer [0x80#8, 0x55#8] 0x03#8) [0x60#8] := by
  decide
theorem test_decode_select_bank : decode (.packet [0x10#8, 0x03#8]) = some (.selectBank 0x03#8) := by decide
theorem test_decode_read_u8 : decode (.packet [0x11#8, 0x00#8, 0x7F#8]) = some (.readU8 0x00#8 0x7F#8) := by decide
theorem test_decode_write_u8 :
    decode (.packet [0x12#8, 0x03#8, 0x05#8, 0x86#8]) = some (.writeU8 0x03#8 0x05#8 0x86#8) := by decide
theorem test_decode_read_bytes :
    decode (.packet [0x13#8, 0x00#8, 0x3B#8, 0x06#8]) = some (.readBytes 0x00#8 0x3B#8 0x06#8) := by decide
theorem test_decode_write_bytes :
    decode (.packet [0x14#8, 0x02#8, 0x03#8, 0x02#8, 0xFF#8, 0xE7#8]) =
      some (.writeBytes 0x02#8 0x03#8 [0xFF#8, 0xE7#8]) := by decide
theorem test_decode_bridge_read :
    decode (.packet [0x20#8, 0x0C#8, 0x11#8, 0x06#8]) = some (.bridgeRead 0x0C#8 0x11#8 0x06#8) := by decide
theorem test_decode_bridge_write :
    decode (.packet [0x21#8, 0x0C#8, 0x32#8, 0x01#8]) = some (.bridgeWrite 0x0C#8 0x32#8 0x01#8) := by decide
theorem test_decode_init_main : decode (.packet [0x30#8]) = some .initMain := by decide
theorem test_decode_init_bridge : decode (.packet [0x31#8]) = some .initBridgeDevice := by decide
theorem test_decode_cal_gyro : decode (.packet [0x40#8]) = some .calGyro := by decide
theorem test_decode_cal_accel : decode (.packet [0x41#8]) = some .calAccel := by decide
theorem test_decode_gyro_range : decode (.packet [0x50#8, 0x01#8]) = some (.selectGyroRange 0x01#8) := by decide
theorem test_decode_accel_range : decode (.packet [0x51#8, 0x02#8]) = some (.selectAccelRange 0x02#8) := by decide
theorem test_decode_gyro_raw : decode (.packet [0x52#8]) = some .readGyroRaw := by decide
theorem test_decode_accel_raw : decode (.packet [0x53#8]) = some .readAccelRaw := by decide
theorem test_decode_gyro_scaled : decode (.packet [0x54#8]) = some .readGyroScaled := by decide
theorem test_decode_accel_scaled : decode (.packet [0x55#8]) = some .readAccelScaled := by decide
theorem test_decode_mag_scaled : decode (.packet [0x56#8]) = some .readMagScaled := by decide
theorem test_decode_snapshot : decode (.packet [0x60#8]) = some .readSnapshot := by decide
theorem test_decode_frame_read : decode (.frame [0xBB#8] 6) = some (.frameRead 0x3B#7 6) := by decide
theorem test_decode_frame_write : decode (.frame [0x05#8, 0x86#8] 0) = some (.frameWrite 0x05#7 [0x86#8]) := by decide
/-- R99: 0x02 is no opcode. -/
theorem test_decode_illegal : decodePacket [0x02#8, 0x60#8] = .illegalOpcode 0x02#8 [0x60#8] := by decide
/-- R95: `WRITE_BYTES` with two of its three data bytes there. -/
theorem test_decode_incomplete : decodePacket [0x14#8, 0x00#8, 0x00#8, 0x03#8, 0x01#8, 0x02#8] = .incomplete := by decide

/-! ### One or two steps per instruction -/

/-- R111, worked example. -/
theorem test_xfer :
    reaches (exec (.xfer [0x80#8] 0x01#8) (answering ex (fr [0x80#8] [0xEA#8])))
      (shows [.csLow, .tx 0x80#8, .rx 0xEA#8, .csHigh] [0x00#8, 0xEA#8]) = true := by decide +kernel

/-- R112: the second transmitted byte fails and leaves no event; the frame is closed. -/
theorem test_xfer_fails :
    reaches (exec (.xfer [0x05#8, 0x86#8] 0x00#8)
      (scripted ex [{ byte := 0x00#8, report := .done }, { byte := 0x00#8, report := .failed false }]))
      (shows [.csLow, .tx 0x05#8, .csHigh] [0x04#8]) = true := by decide +kernel

/-- R121, worked example. -/
theorem test_select_bank :
    reaches (exec (.selectBank 0x03#8) (answering ex (fr [0x7F#8, 0x03#8] [])))
      (shows [.csLow, .tx 0x7F#8, .tx 0x03#8, .csHigh] [0x00#8]) = true := by decide +kernel

/-- R123, worked example. -/
theorem test_read_u8 :
    reaches (exec (.readU8 0x00#8 0x00#8) (answering ex (fr [0x7F#8, 0x00#8] [] ++ fr [0x80#8] [0xEA#8])))
      (shows (fr [0x7F#8, 0x00#8] [] ++ fr [0x80#8] [0xEA#8]) [0x00#8, 0xEA#8]) = true := by decide +kernel

/-- R125, worked example. -/
theorem test_write_u8 :
    reaches (exec (.writeU8 0x03#8 0x05#8 0x86#8) (answering ex (fr [0x7F#8, 0x03#8] [] ++ fr [0x05#8, 0x86#8] [])))
      (shows (fr [0x7F#8, 0x03#8] [] ++ fr [0x05#8, 0x86#8] []) [0x00#8]) = true := by decide +kernel

/-- R127, worked example. -/
theorem test_read_bytes :
    reaches (exec (.readBytes 0x00#8 0x3B#8 0x06#8)
      (answering ex (fr [0x7F#8, 0x00#8] [] ++ fr [0xBB#8] [0x01#8, 0x02#8, 0x03#8, 0x04#8, 0x05#8, 0x06#8])))
      (shows (fr [0x7F#8, 0x00#8] [] ++ fr [0xBB#8] [0x01#8, 0x02#8, 0x03#8, 0x04#8, 0x05#8, 0x06#8])
        [0x00#8, 0x01#8, 0x02#8, 0x03#8, 0x04#8, 0x05#8, 0x06#8]) = true := by decide +kernel

/-- R57: a burst that ends past address 127 is refused without an event. -/
theorem test_read_bytes_end :
    reaches (exec (.readBytes 0x00#8 0x7D#8 0x04#8) (scripted ex [])) (shows [] [0x05#8]) = true := by decide +kernel

/-- R129, worked example. -/
theorem test_write_bytes :
    reaches (exec (.writeBytes 0x02#8 0x03#8 [0xFF#8, 0xE7#8])
      (answering ex (fr [0x7F#8, 0x02#8] [] ++ fr [0x03#8, 0xFF#8, 0xE7#8] [])))
      (shows (fr [0x7F#8, 0x02#8] [] ++ fr [0x03#8, 0xFF#8, 0xE7#8] []) [0x00#8]) = true := by decide +kernel

/-- The trace of vector S2. -/
def traceS2 : List Event :=
  fr [0x7F#8, 0x03#8] [] ++ fr [0x03#8, 0x8C#8] [] ++ fr [0x7F#8, 0x03#8] [] ++ fr [0x04#8, 0x11#8] [] ++ [.delay 2] ++
  fr [0x7F#8, 0x03#8] [] ++ fr [0x05#8, 0x86#8] [] ++ [.delay 3] ++
  fr [0x7F#8, 0x00#8] [] ++ fr [0xBB#8] [0x14#8, 0x00#8, 0x9C#8, 0xFF#8, 0x00#8, 0x00#8]

/-- Vector S2: the bridge relay of a 6-byte magnetometer read. -/
theorem test_bridge_read :
    reaches (exec (.bridgeRead 0x0C#8 0x11#8 0x06#8) (answering ex traceS2))
      (shows traceS2 [0x00#8, 0x14#8, 0x00#8, 0x9C#8, 0xFF#8, 0x00#8, 0x00#8]) = true := by decide +kernel

/-- The trace of R145's worked example. -/
def traceBridgeWrite : List Event :=
  fr [0x7F#8, 0x03#8] [] ++ fr [0x03#8, 0x0C#8] [] ++ fr [0x7F#8, 0x03#8] [] ++ fr [0x04#8, 0x32#8] [] ++
  fr [0x7F#8, 0x03#8] [] ++ fr [0x06#8, 0x01#8] [] ++ [.delay 2] ++
  fr [0x7F#8, 0x03#8] [] ++ fr [0x05#8, 0x81#8] [] ++ [.delay 3]

/-- R145, worked example. -/
theorem test_bridge_write :
    reaches (exec (.bridgeWrite 0x0C#8 0x32#8 0x01#8) (answering ex traceBridgeWrite))
      (shows traceBridgeWrite [0x00#8]) = true := by decide +kernel

/-- R158: with `ID_RETRY_MAX = 2`, two mismatches end `INIT_MAIN` with `DeviceNotFound(main)` before any write. -/
theorem test_init_main_identity :
    reaches (exec .initMain (answering { ex with idRetryMax := 2 }
      (fr [0x7F#8, 0x00#8] [] ++ fr [0x80#8] [0x00#8] ++ fr [0x7F#8, 0x00#8] [] ++ fr [0x80#8] [0xEB#8])))
      (shows (fr [0x7F#8, 0x00#8] [] ++ fr [0x80#8] [0x00#8] ++ fr [0x7F#8, 0x00#8] [] ++ fr [0x80#8] [0xEB#8])
        [0x03#8, 0x00#8]) = true := by decide +kernel

/-- The events of an `INIT_MAIN` with one sample each. -/
def eventsInitMain : List Event :=
  initMainEvents (few 1) [0x00#8] [0x41#8, 0x41#8, 0x00#8, 0x00#8, 0x00#8]
    [[0x00#8, 0x64#8, 0xFF#8, 0xF9#8, 0x00#8, 0x00#8]] [[0x00#8, 0x50#8, 0x00#8, 0x00#8, 0x00#8, 0x00#8]]
    ⟨[0x12#8, 0x35#8], [0x00#8, 0x00#8], [0x00#8, 0x00#8]⟩ 0x09#8 0x09#8

/-- R160: `INIT_MAIN` ends with both factors stored. -/
theorem test_init_main :
    reaches (exec .initMain (answering (few 1) eventsInitMain))
      (fun t => decide (t.responses = [[0x00#8]]) && decide (t.sfGyro = some ⟨82, 5⟩) &&
        decide (t.sfAccel = some ⟨2048, 1⟩)) = true := by decide +kernel

/-- The events of an `INIT_BRIDGE_DEVICE` whose identity matches at the second read. -/
def eventsInitBridge : List Event :=
  initBridgeEvents ex [0x00#8] [0x10#8, 0x12#8, 0x00#8] []

/-- R165. -/
theorem test_init_bridge :
    reaches (exec .initBridgeDevice (answering ex eventsInitBridge)) (shows eventsInitBridge [0x00#8]) = true := by
  decide +kernel

/-- R177, worked example, with two equal samples: the pairs `FF E7`, `00 01`, `00 00`. -/
def traceCalGyro : List Event :=
  fr [0x7F#8, 0x00#8] [] ++ fr [0xB3#8] [0x00#8, 0x64#8, 0xFF#8, 0xF9#8, 0x00#8, 0x00#8] ++
  fr [0x7F#8, 0x00#8] [] ++ fr [0xB3#8] [0x00#8, 0x64#8, 0xFF#8, 0xF9#8, 0x00#8, 0x00#8] ++
  fr [0x7F#8, 0x02#8] [] ++ fr [0x03#8, 0xFF#8, 0xE7#8] [] ++
  fr [0x7F#8, 0x02#8] [] ++ fr [0x05#8, 0x00#8, 0x01#8] [] ++
  fr [0x7F#8, 0x02#8] [] ++ fr [0x07#8, 0x00#8, 0x00#8] []

theorem test_cal_gyro :
    reaches (exec .calGyro (answering (few 2) traceCalGyro)) (shows traceCalGyro [0x00#8]) = true := by decide +kernel

/-- R181, worked example, on x: average 80, pair `12 35`, written `12 2B`; on y the wrap of R182 b: average 8, `80 00` becomes
`7F FE` (bit 0 kept clear); on z average 0 keeps `00 01`. -/
def traceCalAccel : List Event :=
  fr [0x7F#8, 0x00#8] [] ++ fr [0xAD#8] [0x00#8, 0x50#8, 0x00#8, 0x08#8, 0x00#8, 0x00#8] ++
  fr [0x7F#8, 0x01#8] [] ++ fr [0x94#8] [0x12#8, 0x35#8] ++
  fr [0x7F#8, 0x01#8] [] ++ fr [0x97#8] [0x80#8, 0x00#8] ++
  fr [0x7F#8, 0x01#8] [] ++ fr [0x9A#8] [0x00#8, 0x01#8] ++
  fr [0x7F#8, 0x01#8] [] ++ fr [0x14#8, 0x12#8, 0x2B#8] [] ++
  fr [0x7F#8, 0x01#8] [] ++ fr [0x17#8, 0x7F#8, 0xFE#8] [] ++
  fr [0x7F#8, 0x01#8] [] ++ fr [0x1A#8, 0x00#8, 0x01#8] []

theorem test_cal_accel :
    reaches (exec .calAccel (answering (few 1) traceCalAccel)) (shows traceCalAccel [0x00#8]) = true := by
  decide +kernel

/-- R192, worked example: the register reads 09, the write carries 0F. -/
theorem test_select_gyro_range :
    reaches (exec (.selectGyroRange 0x03#8) (answering ex
      (fr [0x7F#8, 0x02#8] [] ++ fr [0x81#8] [0x09#8] ++ fr [0x7F#8, 0x02#8] [] ++ fr [0x01#8, 0x0F#8] [])))
      (fun t => decide (t.tr =
        fr [0x7F#8, 0x02#8] [] ++ fr [0x81#8] [0x09#8] ++ fr [0x7F#8, 0x02#8] [] ++ fr [0x01#8, 0x0F#8] []) &&
        decide (t.sfGyro = some ⟨82, 5⟩)) = true := by decide +kernel

/-- R194: the bits of range 0 replace those of range 3. -/
theorem test_select_accel_range :
    reaches (exec (.selectAccelRange 0x00#8) (answering ex
      (fr [0x7F#8, 0x02#8] [] ++ fr [0x94#8] [0x0F#8] ++ fr [0x7F#8, 0x02#8] [] ++ fr [0x14#8, 0x09#8] [])))
      (fun t => decide (t.tr =
        fr [0x7F#8, 0x02#8] [] ++ fr [0x94#8] [0x0F#8] ++ fr [0x7F#8, 0x02#8] [] ++ fr [0x14#8, 0x09#8] []) &&
        decide (t.sfAccel = some ⟨16384, 1⟩)) = true := by decide +kernel

/-- A gyroscope read of R196's worked example. -/
def traceGyro : List Event := fr [0x7F#8, 0x00#8] [] ++ fr [0xB3#8] [0x00#8, 0xA4#8, 0xFF#8, 0x5C#8, 0x00#8, 0x00#8]

/-- An accelerometer read of vector S3. -/
def traceAccel : List Event := fr [0x7F#8, 0x00#8] [] ++ fr [0xAD#8] [0x00#8, 0x00#8, 0x00#8, 0x00#8, 0x10#8, 0x00#8]

/-- R196, worked example: `(164, -164, 0)`. -/
theorem test_read_gyro_raw :
    reaches (exec .readGyroRaw (answering ex traceGyro))
      (shows traceGyro [0x00#8, 0x00#8, 0xA4#8, 0xFF#8, 0x5C#8, 0x00#8, 0x00#8]) = true := by decide +kernel

/-- Vector S3, raw. -/
theorem test_read_accel_raw :
    reaches (exec .readAccelRaw (answering ex traceAccel))
      (shows traceAccel [0x00#8, 0x00#8, 0x00#8, 0x00#8, 0x00#8, 0x10#8, 0x00#8]) = true := by decide +kernel

/-- The factors of range 3 stored. -/
def factored (s : State) : State := { s with sfGyro := some ⟨82, 5⟩, sfAccel := some ⟨2048, 1⟩ }

/-- R201, worked example. -/
theorem test_read_gyro_scaled :
    reaches (exec .readGyroScaled (factored (answering ex traceGyro)))
      (shows traceGyro [0x00#8, 0x41#8, 0x20#8, 0x00#8, 0x00#8, 0xC1#8, 0x20#8, 0x00#8, 0x00#8, 0x00#8, 0x00#8, 0x00#8, 0x00#8])
        = true := by decide +kernel

/-- Vector S3, scaled, without and with the artifact. -/
theorem test_read_accel_scaled :
    reaches (exec .readAccelScaled (factored (answering ex traceAccel)))
      (shows traceAccel [0x00#8, 0x00#8, 0x00#8, 0x00#8, 0x00#8, 0x00#8, 0x00#8, 0x00#8, 0x00#8, 0x40#8, 0x00#8, 0x00#8, 0x00#8])
        = true := by decide +kernel
theorem test_read_accel_artifact :
    reaches (exec .readAccelScaled (factored (answering { ex with accelZArtifact := true } traceAccel)))
      (shows traceAccel [0x00#8, 0x00#8, 0x00#8, 0x00#8, 0x00#8, 0x00#8, 0x00#8, 0x00#8, 0x00#8, 0x40#8, 0x40#8, 0x00#8, 0x00#8])
        = true := by decide +kernel

/-- The three relayed reads of R206's worked example, status 2 as given. -/
def eventsMag (s2 : Byte) : List Event := magEvents ex 0x01#8 [0x14#8, 0x00#8, 0x9C#8, 0xFF#8, 0x00#8, 0x00#8] s2

/-- R206, worked example: `(3.0, -15.0, 0.0)`. -/
theorem test_read_mag_scaled :
    reaches (exec .readMagScaled (answering ex (eventsMag 0x00#8)))
      (shows (eventsMag 0x00#8)
        [0x00#8, 0x40#8, 0x40#8, 0x00#8, 0x00#8, 0xC1#8, 0x70#8, 0x00#8, 0x00#8, 0x00#8, 0x00#8, 0x00#8, 0x00#8])
        = true := by decide +kernel

/-- R207 b: ready and overflow. -/
theorem test_read_mag_overflow :
    reaches (exec .readMagScaled (answering ex (eventsMag 0x08#8))) (shows (eventsMag 0x08#8) [0x01#8, 0x01#8]) = true := by
  decide +kernel

/-- The events of R216's worked example. -/
def eventsSnapshot (s2 : Byte) : List Event := traceGyro ++ traceAccel ++ eventsMag s2

/-- R216, worked example. -/
theorem test_read_snapshot :
    reaches (exec .readSnapshot (factored (answering ex (eventsSnapshot 0x00#8))))
      (shows (eventsSnapshot 0x00#8)
        [0x00#8, 0x41#8, 0x20#8, 0x00#8, 0x00#8, 0xC1#8, 0x20#8, 0x00#8, 0x00#8, 0x00#8, 0x00#8, 0x00#8, 0x00#8,
          0x00#8, 0x00#8, 0x00#8, 0x00#8, 0x00#8, 0x00#8, 0x00#8, 0x00#8, 0x40#8, 0x00#8, 0x00#8, 0x00#8,
          0x40#8, 0x40#8, 0x00#8, 0x00#8, 0xC1#8, 0x70#8, 0x00#8, 0x00#8, 0x00#8, 0x00#8, 0x00#8, 0x00#8]) = true := by
  decide +kernel

/-- R219: overflow inside the snapshot is `SensorError(overflow)`. -/
theorem test_read_snapshot_overflow :
    reaches (exec .readSnapshot (factored (answering ex (eventsSnapshot 0x08#8))))
      (shows (eventsSnapshot 0x08#8) [0x02#8, 0x01#8]) = true := by decide +kernel

/-- R82: the read frame. -/
theorem test_frame_read :
    reaches (exec (.frameRead 0x3B#7 2) (answering ex (fr [0xBB#8] [0x01#8, 0x02#8])))
      (shows (fr [0xBB#8] [0x01#8, 0x02#8]) [0x00#8, 0x01#8, 0x02#8]) = true := by decide +kernel

/-- R82: the write frame. -/
theorem test_frame_write :
    reaches (exec (.frameWrite 0x05#7 [0x86#8]) (answering ex (fr [0x05#8, 0x86#8] [])))
      (shows (fr [0x05#8, 0x86#8] []) [0x00#8]) = true := by decide +kernel

/-! ### Steps -/

/-- R99: an unknown opcode consumes one byte; the next packet is still there. -/
theorem test_step_illegal :
    reaches (step ((scripted ex []).setPortIn [0xFF#8, 0x60#8]))
      (fun t => decide (t.portIn = [0x60#8]) && shows [] [0x05#8] t) = true := by decide +kernel

/-- R216, R233: right after reset a snapshot is refused with the gyroscope's name. -/
theorem test_step_snapshot_after_reset :
    reaches (step (State.reset.withFetchWord 8 0x60)) (fun t => shows [] [0x06#8, 0x00#8] t) = true := by decide +kernel

/-- A table word of a bus frame runs as one: `WRITE` of a zero byte to address 5 (log 12). -/
theorem test_step_frame_word :
    decodeTableWord 8 0x05 = some (.frameWrite 0x05#7 [0x00#8]) := by decide

/-- Vector S1, rows 1, 1000 and -32768 of the gyroscope. -/
theorem test_f32_s1 :
    f32 (1 * 5) 82 = 0x3D79C190#32 ∧ f32 (1000 * 5) 82 = 0x4273E706#32 ∧ f32 (-32768 * 5) 82 = 0xC4F9C190#32 := by
  decide +kernel

/-! ### Witnesses: a state and operands that meet the hypotheses of each statement -/

/-- The environment of the state lets the events happen, and the state is ready. -/
def lets (s : State) (es : List Event) : Prop := s.ready ∧ (s.env.run s.params es).isSome = true

/-- The environment of the state lets the events happen and then reports a failure. -/
def fails (s : State) (es : List Event) (left : Bool) : Bool :=
  match s.env.run s.params es with
  | some e => decide (e.next.1.report = .failed left)
  | none => false

/-- Answers that let the events happen and then fail. -/
def answersThenFail (es : List Event) (left : Bool) : List BusAnswer :=
  answers es ++ [{ byte := 0x5A#8, report := .failed left }]

theorem witness_DecodeEncodeRoundTrip :
    (Instr.xfer (List.replicate 255 0x00#8) 0xFF#8).wellFormed ex = true ∧
    (Instr.writeBytes 0x03#8 0x7A#8 [0x01#8, 0x02#8, 0x03#8, 0x04#8, 0x05#8, 0x06#8]).wellFormed ex = true ∧
    (Instr.frameRead 0x7F#7 1).wellFormed ex = true := by decide +kernel
theorem witness_EncodeDecodeRoundTrip :
    decode (.packet [0x60#8]) = some .readSnapshot ∧ decode (.frame [0x80#8] 1) = some (.frameRead 0x00#7 1) := by decide
theorem witness_PacketsAreCutByTheirLength :
    decodePacket [0x10#8, 0x01#8, 0x99#8] = .instr (.selectBank 0x01#8) [0x99#8] ∧
    decodePacket [] = .incomplete ∧ decodePacket [0x00#8] = .illegalOpcode 0x00#8 [] := by decide
theorem witness_BridgeBytes : ex.brEnableBit = 0x80#8 ∧ ex.brReadBit = 0x80#8 := by decide
theorem witness_StepRunsDecodedInstruction_packet :
    ((scripted ex []).setPortIn [0x60#8]).busReq = none ∧ decodePacket [0x60#8] = .instr .readSnapshot [] := by decide
theorem witness_StepRunsDecodedInstruction_frame :
    ((scripted ex []).setBusReq (some { tx := [0x05#8, 0x86#8], m := 0 })).busReq =
      some { tx := [0x05#8, 0x86#8], m := 0 } ∧
    decode (.frame [0x05#8, 0x86#8] 0) = some (.frameWrite 0x05#7 [0x86#8]) := by decide
theorem witness_StepWaitsForAWholePacket :
    State.reset.busReq = none ∧ decodePacket State.reset.portIn = .incomplete := by decide
theorem witness_IllegalOpcodesRefused :
    ((scripted ex []).setPortIn [0xFF#8]).ready ∧ ((scripted ex []).setPortIn [0xFF#8]).cs = .high ∧
    ((scripted ex []).setPortIn [0xFF#8]).busReq = none ∧ (0xFF#8).toNat ∉ hostOpcodes := by decide
theorem witness_IllegalOperandsRefused :
    (scripted ex []).ready ∧ (scripted ex []).cs = .high ∧ (Instr.selectBank 0x04#8).isFrameForm = false ∧
    (Instr.selectBank 0x04#8).wellFormed (scripted ex []).params = false ∧
    (Instr.xfer [] 0x00#8).wellFormed (scripted ex []).params = false := by decide
theorem witness_OutsideThePremises :
    ((scripted ex []).setSeq .busy).seq = .busy ∧
    (scripted { ex with calSamples := 0 } []).seq = .idle ∧
    (scripted { ex with calSamples := 0 } []).params.wf = false ∧
    (Instr.frameRead 0x00#7 0).isFrameForm = true ∧ (Instr.frameRead 0x00#7 0).wellFormed ex = false ∧
    decode (.frame [] 0) = none ∧ (scripted ex []).ready ∧ (scripted ex []).cs = .high ∧
    255 < (List.replicate 256 0x00#8).length := by decide +kernel
theorem witness_ResetValues : ∃ t, step State.reset = .next t ∧ t.params = ex :=
  ⟨State.reset, rfl, rfl⟩
theorem witness_StepKeepsInvariant : State.reset.Inv ∧ ∃ t, step (State.reset.setPortIn [0x60#8]) = .next t :=
  ⟨⟨rfl, rfl, rfl, fun _ h => (nomatch h), fun _ h => (nomatch h), fun _ h => (nomatch h)⟩, _, rfl⟩
theorem witness_FramesCloseOnEveryExitPath :
    (scripted ex []).cs = .high ∧ phaseFrom .closed (scripted ex []).tr = some .closed ∧
    ∃ t, exec .readSnapshot (scripted ex []) = .next t := ⟨rfl, rfl, _, rfl⟩
theorem witness_EveryOperationAnswersOnce : ∃ t, exec .readSnapshot (scripted ex []) = .next t := ⟨_, rfl⟩
theorem witness_OperationFrame : ∃ t, exec (.selectBank 0x04#8) (scripted ex []) = .next t := ⟨_, rfl⟩
theorem witness_OnlyRangeSelectionsWriteFactors :
    ∃ t, exec .readSnapshot (factored (scripted ex [])) = .next t := ⟨_, rfl⟩
theorem witness_XferTransfers :
    lets (answering ex (frameEvents [0x80#8] [0xEA#8])) (frameEvents [0x80#8] [0xEA#8]) ∧
    [0xEA#8].length = (0x01#8).toNat ∧ lets (answering ex (frameEvents [0x80#8] [])) (frameEvents [0x80#8] []) := by
  unfold lets
  decide +kernel
theorem witness_XferFailureClosesTheFrame_tx :
    (scripted ex (answersThenFail (openFrameEvents [] []) true)).ready ∧
    fails (scripted ex (answersThenFail (openFrameEvents [] []) true)) (openFrameEvents [] []) true = true ∧
    fails (scripted ex (answersThenFail (openFrameEvents [0x05#8] []) false)) (openFrameEvents [0x05#8] []) false = true := by
  decide +kernel
theorem witness_XferFailureClosesTheFrame_rx :
    (scripted ex (answersThenFail (openFrameEvents [0x80#8] [0x01#8]) true)).ready ∧
    fails (scripted ex (answersThenFail (openFrameEvents [0x80#8] [0x01#8]) true)) (openFrameEvents [0x80#8] [0x01#8]) true = true ∧
    [0x01#8].length < (0x02#8).toNat := by decide +kernel
theorem witness_FrameFormsTransfer :
    lets (answering ex (frameEvents [0x80#8 ||| addrByte 0x3B#7] [0x01#8]))
      (frameEvents [0x80#8 ||| addrByte 0x3B#7] [0x01#8]) ∧
    lets (answering ex (frameEvents (addrByte 0x05#7 :: [0x86#8]) [])) (frameEvents (addrByte 0x05#7 :: [0x86#8]) []) := by
  unfold lets
  decide +kernel
theorem witness_SelectBankSends : lets (answering ex (selectEvents ex 3)) (selectEvents ex 3) := by
  unfold lets
  decide +kernel
theorem witness_ReadU8Reads :
    lets (answering ex (readEvents ex ⟨0, 0x7F#7⟩ [0xEA#8])) (readEvents ex ⟨0, 0x7F#7⟩ [0xEA#8]) := by
  unfold lets
  decide +kernel
theorem witness_WriteU8Writes :
    lets (answering ex (writeEvents ex ⟨3, 0x05#7⟩ [0x86#8])) (writeEvents ex ⟨3, 0x05#7⟩ [0x86#8]) := by
  unfold lets
  decide +kernel
theorem witness_ReadBytesReads :
    lets (answering ex (readEvents ex ⟨0, 0x7F#7⟩ [0x01#8])) (readEvents ex ⟨0, 0x7F#7⟩ [0x01#8]) ∧
    legalBurst ex 0x7F 1 = true ∧ legalBurst ex 0x7A 6 = true := by
  unfold lets
  decide +kernel
theorem witness_WriteBytesWrites :
    lets (answering ex (writeEvents ex ⟨2, 0x7E#7⟩ [0xFF#8, 0xE7#8])) (writeEvents ex ⟨2, 0x7E#7⟩ [0xFF#8, 0xE7#8]) ∧
    legalBurst ex 0x7E 2 = true := by
  unfold lets
  decide +kernel
theorem witness_AccessFailureEndsTheOperation_access :
    IsAccess ex (.readU8 (indexByte 1) (addrByte 0x05#7)) 1 [0x80#8 ||| addrByte 0x05#7] 1 ∧
    IsAccess ex (.writeBytes (indexByte 1) (addrByte 0x7F#7) [0x01#8]) 1 [addrByte 0x7F#7, 0x01#8] 0 :=
  ⟨.readU8 1 0x05#7, .writeBytes 1 0x7F#7 [0x01#8] (by decide)⟩
theorem witness_AccessFailureEndsTheOperation_select :
    (scripted ex (answersThenFail (openFrameEvents ((selectBytes ex 1).take 1) []) false)).ready ∧
    fails (scripted ex (answersThenFail (openFrameEvents ((selectBytes ex 1).take 1) []) false))
      (openFrameEvents ((selectBytes ex 1).take 1) []) false = true := by decide +kernel
theorem witness_AccessFailureEndsTheOperation_frame :
    fails (scripted ex (answersThenFail (selectEvents ex 1 ++ openFrameEvents [] []) true))
      (selectEvents ex 1 ++ openFrameEvents [] []) true = true ∧
    fails (scripted ex (answersThenFail (selectEvents ex 1 ++ openFrameEvents [0x85#8] []) true))
      (selectEvents ex 1 ++ openFrameEvents [0x85#8] []) true = true := by decide +kernel

/-- Six bytes of extreme samples. -/
def sixBytes : List Byte := [0x80#8, 0x00#8, 0x7F#8, 0xFF#8, 0xFF#8, 0xFF#8]

/-- Whether the environment lets the first `n` events happen and fails at the next, a bus step. -/
def failsAfter (s : State) (es : List Event) (n : Nat) (left : Bool) : Bool :=
  match s.env.run s.params (es.take n) with
  | some e => (es[n]?.bind (e.failedStep s.params)).isSome && decide (e.next.1.report = .failed left)
  | none => false

theorem failsAt_of_failsAfter {s : State} {es : List Event} {n : Nat} {left : Bool} (h : failsAfter s es n left = true) :
    ∃ e ev, FailsAt s es n e left ev := by
  unfold failsAfter at h
  split at h
  · rename_i e he
    rw [Bool.and_eq_true, decide_eq_true_eq, Option.isSome_iff_exists] at h
    obtain ⟨⟨ev, hev⟩, hrep⟩ := h
    exact ⟨e, ev, he, hev, hrep⟩
  · cases h

/-- A state whose environment lets the first `n` of the events happen and then fails. -/
def failing (p : Params) (es : List Event) (n : Nat) (left : Bool) : State := scripted p (answersThenFail (es.take n) left)

/-- The last byte of the last pair of a gyroscope calibration fails; the two pairs before it are written (R177). -/
theorem witness_AccessFailureEndsTheOperation_run :
    (failing (few 1) (calGyroEvents (few 1) [sixBytes]) 38 true).ready ∧
    IsRun (failing (few 1) (calGyroEvents (few 1) [sixBytes]) 38 true) .calGyro (calGyroEvents (few 1) [sixBytes]) ∧
    ∃ e ev, FailsAt (failing (few 1) (calGyroEvents (few 1) [sixBytes]) 38 true) (calGyroEvents (few 1) [sixBytes]) 38 e
      true ev :=
  ⟨by decide +kernel, .calGyro _ rfl (by decide), failsAt_of_failsAfter (by decide +kernel)⟩

/-- The bank-select frame of the accelerometer range selection of `INIT_MAIN` fails at its first byte. -/
theorem witness_AccessFailureEndsTheOperation_init :
    InitMainAnswers (few 1) [0x00#8] [0x41#8, 0x41#8, 0x00#8, 0x00#8, 0x00#8]
      [[0x00#8, 0x64#8, 0xFF#8, 0xF9#8, 0x00#8, 0x00#8]] [[0x00#8, 0x50#8, 0x00#8, 0x00#8, 0x00#8, 0x00#8]]
      ⟨[0x12#8, 0x35#8], [0x00#8, 0x00#8], [0x00#8, 0x00#8]⟩ ∧
    (initMainEventsBeforeAccel (few 1) [0x00#8] [0x41#8, 0x41#8, 0x00#8, 0x00#8, 0x00#8]
      [[0x00#8, 0x64#8, 0xFF#8, 0xF9#8, 0x00#8, 0x00#8]] [[0x00#8, 0x50#8, 0x00#8, 0x00#8, 0x00#8, 0x00#8]]
      ⟨[0x12#8, 0x35#8], [0x00#8, 0x00#8], [0x00#8, 0x00#8]⟩ 0x09#8).length + 16 = eventsInitMain.length ∧
    ∃ e ev, FailsAt (failing (few 1) eventsInitMain (eventsInitMain.length - 15) false) eventsInitMain
      (eventsInitMain.length - 15) e false ev :=
  ⟨⟨by decide, by decide +kernel, by decide +kernel, rfl, by decide, rfl, by decide, by decide⟩, by decide +kernel,
    failsAt_of_failsAfter (by decide +kernel)⟩

/-- R158: a transport failure in an identity read is no mismatch: `INIT_MAIN` ends with `BusError` after one attempt. -/
theorem test_identity_read_fails :
    reaches (exec .initMain (scripted ex [{ byte := 0x00#8, report := .done }, { byte := 0x00#8, report := .done },
        { byte := 0x00#8, report := .done }, { byte := 0xEA#8, report := .failed true }]))
      (shows (fr [0x7F#8, 0x00#8] [] ++ [.csLow, .tx 0x80#8, .rx 0xEA#8, .csHigh]) [0x04#8]) = true := by decide +kernel

theorem witness_BridgeReadRelays :
    lets (answering ex (bridgeReadEvents ex 0x0C#7 0x11#8 [0x14#8])) (bridgeReadEvents ex 0x0C#7 0x11#8 [0x14#8]) ∧
    legalBurst ex ex.relayReg.toNat 1 = true := by
  unfold lets
  decide +kernel
theorem witness_BridgeWriteRelays :
    lets (answering ex (bridgeWriteEvents ex 0x0C#7 0x32#8 0x01#8)) (bridgeWriteEvents ex 0x0C#7 0x32#8 0x01#8) := by
  unfold lets
  decide +kernel
theorem witness_RelayedAccessCost_read :
    ∃ t, exec (.bridgeRead 0x0C#8 0x11#8 0x06#8) (answering ex traceS2) = .next t ∧ succeeded (answering ex traceS2) t := by
  obtain ⟨t, h, h'⟩ := exists_of_reaches test_bridge_read
  simp only [shows, Bool.and_eq_true, decide_eq_true_eq] at h'
  exact ⟨t, h, _, h'.2⟩
theorem witness_RelayedAccessCost_write :
    ∃ t, exec (.bridgeWrite 0x0C#8 0x32#8 0x01#8) (answering ex traceBridgeWrite) = .next t ∧
      succeeded (answering ex traceBridgeWrite) t := by
  obtain ⟨t, h, h'⟩ := exists_of_reaches test_bridge_write
  simp only [shows, Bool.and_eq_true, decide_eq_true_eq] at h'
  exact ⟨t, h, _, h'.2⟩
theorem witness_InitMainCompletes :
    lets (answering (few 1) eventsInitMain) eventsInitMain ∧ [0x00#8].length < (few 1).idRetryMax ∧
    0x00#8 ≠ (few 1).mainId.value ∧ readsOf (few 1).initMainSteps.inOrder = 5 ∧ (few 1).calSamples = 1 := by
  unfold lets
  decide +kernel
theorem witness_InitBridgeDeviceCompletes :
    lets (answering ex eventsInitBridge) eventsInitBridge ∧ [0x00#8].length < ex.idRetryMax ∧
    0x00#8 ≠ ex.magId.value ∧ readsOf (stepsBeforeIdentity ex.initMagSteps) = 3 ∧
    readsOf (stepsAfterIdentity ex.initMagSteps) = 0 := by
  unfold lets
  decide +kernel
theorem witness_IdentityIsBounded_main :
    lets (answering ex (mainMismatchEvents ex [0x00#8, 0x01#8] ++ readEvents ex ex.mainId.addr [0x02#8]))
      (mainMismatchEvents ex [0x00#8, 0x01#8] ++ readEvents ex ex.mainId.addr [0x02#8]) ∧
    [0x00#8, 0x01#8].length + 1 = ex.idRetryMax ∧ (∀ w ∈ [0x00#8, 0x01#8, 0x02#8], w ≠ ex.mainId.value) := by
  unfold lets
  decide +kernel
theorem witness_IdentityIsBounded_mag :
    lets (answering { ex with idRetryMax := 1 }
        (stepEvents ex (stepsBeforeIdentity ex.initMagSteps) [0x00#8, 0x00#8, 0x00#8] ++
          bridgeReadEvents ex ex.magAddr ex.magId.reg [0x00#8]))
      (stepEvents ex (stepsBeforeIdentity ex.initMagSteps) [0x00#8, 0x00#8, 0x00#8] ++
        magMismatchEvents ex [] ++ bridgeReadEvents ex ex.magAddr ex.magId.reg [0x00#8]) ∧
    0x00#8 ≠ ex.magId.value := by
  unfold lets
  decide +kernel
theorem witness_CalGyroCompletes :
    lets (answering (few 1) (calGyroEvents (few 1) [[0x80#8, 0x00#8, 0x7F#8, 0xFF#8, 0x00#8, 0x00#8]]))
      (calGyroEvents (few 1) [[0x80#8, 0x00#8, 0x7F#8, 0xFF#8, 0x00#8, 0x00#8]]) ∧ (few 1).calSamples = 1 := by
  unfold lets
  decide +kernel
theorem witness_CalAccelCompletes :
    lets (answering (few 1) (calAccelEvents (few 1) [[0x80#8, 0x00#8, 0x7F#8, 0xFF#8, 0x00#8, 0x00#8]]
        ⟨[0x00#8, 0x01#8], [0x80#8, 0x00#8], [0x7F#8, 0xFF#8]⟩))
      (calAccelEvents (few 1) [[0x80#8, 0x00#8, 0x7F#8, 0xFF#8, 0x00#8, 0x00#8]]
        ⟨[0x00#8, 0x01#8], [0x80#8, 0x00#8], [0x7F#8, 0xFF#8]⟩) := by
  unfold lets
  decide +kernel
theorem witness_GyroOffsetRange :
    ex.calSamples = 100 ∧ ex.gyroCalDiv = 4 ∧ (List.replicate 100 [0x80#8, 0x00#8]).length = 100 := by decide +kernel
theorem witness_ReservedBitPreserved :
    ∃ t, exec .calAccel (answering (few 1) traceCalAccel) = .next t ∧ succeeded (answering (few 1) traceCalAccel) t := by
  obtain ⟨t, h, h'⟩ := exists_of_reaches test_cal_accel
  simp only [shows, Bool.and_eq_true, decide_eq_true_eq] at h'
  exact ⟨t, h, _, h'.2⟩

/-- The events of `SELECT_GYRO_RANGE 0` that finds 0F. -/
def eventsGyroRange : List Event := selectRangeEvents ex ex.gyroCfg ex.gyroFsMask (ex.gyroFsBits.get 0) 0x0F#8

/-- The events of `SELECT_ACCEL_RANGE 3` that finds 00. -/
def eventsAccelRange : List Event := selectRangeEvents ex ex.accelCfg ex.accelFsMask (ex.accelFsBits.get 3) 0x00#8

theorem witness_RangeSelectionsComplete :
    lets (answering ex eventsGyroRange) eventsGyroRange ∧ lets (answering ex eventsAccelRange) eventsAccelRange := by
  unfold lets
  decide +kernel
theorem witness_FactorStoredExactlyOnSuccess :
    (∃ t, exec (.selectGyroRange 0x04#8) (scripted ex []) = .next t) ∧
    (∃ t, exec (.selectAccelRange 0x03#8) (answering ex eventsAccelRange) = .next t) := ⟨⟨_, rfl⟩, _, rfl⟩

/-- Both selections succeed where their events may happen. -/
theorem range_selections_succeed :
    reaches (exec (.selectGyroRange (indexByte 0)) (answering ex eventsGyroRange)) (shows eventsGyroRange [0x00#8]) = true ∧
    reaches (exec (.selectAccelRange (indexByte 3)) (answering ex eventsAccelRange)) (shows eventsAccelRange [0x00#8]) =
      true := by decide +kernel
theorem witness_RangeSelectionIsIdempotentInItsLookup_gyro :
    ∃ t, exec (.selectGyroRange (indexByte 0)) (answering ex eventsGyroRange) = .next t ∧
      succeeded (answering ex eventsGyroRange) t := by
  obtain ⟨t, h, h'⟩ := exists_of_reaches range_selections_succeed.1
  simp only [shows, Bool.and_eq_true, decide_eq_true_eq] at h'
  exact ⟨t, h, _, h'.2⟩
theorem witness_RangeSelectionIsIdempotentInItsLookup_accel :
    ∃ t, exec (.selectAccelRange (indexByte 3)) (answering ex eventsAccelRange) = .next t ∧
      succeeded (answering ex eventsAccelRange) t := by
  obtain ⟨t, h, h'⟩ := exists_of_reaches range_selections_succeed.2
  simp only [shows, Bool.and_eq_true, decide_eq_true_eq] at h'
  exact ⟨t, h, _, h'.2⟩

theorem witness_RawReadsComplete :
    lets (answering ex (readEvents ex ex.gyroOut sixBytes)) (readEvents ex ex.gyroOut sixBytes) ∧
    lets (answering ex (readEvents ex ex.accelOut sixBytes)) (readEvents ex ex.accelOut sixBytes) ∧
    sixBytes.length = 6 := by
  unfold lets
  decide +kernel
theorem witness_ScaledReadsComplete :
    lets (factored (answering ex (readEvents ex ex.gyroOut sixBytes))) (readEvents ex ex.gyroOut sixBytes) ∧
    lets (factored (answering ex (readEvents ex ex.accelOut sixBytes))) (readEvents ex ex.accelOut sixBytes) ∧
    (factored (scripted ex [])).sfGyro = some ⟨82, 5⟩ ∧ (factored (scripted ex [])).sfAccel = some ⟨2048, 1⟩ := by
  unfold lets
  decide +kernel
theorem witness_ScaledReadsRefuseUnset :
    State.reset.ready ∧ State.reset.cs = .high ∧ State.reset.sfGyro = none ∧ State.reset.sfAccel = none ∧
    ({ State.reset with sfGyro := some ⟨131, 1⟩ } : State).sfGyro ≠ none := by decide +kernel
theorem witness_MagScaledCompletes :
    lets (answering ex (eventsMag 0xF7#8)) (eventsMag 0xF7#8) ∧ 0x01#8 &&& ex.magDrdyMask ≠ 0x00#8 ∧
    0xF7#8 &&& ex.magOvfMask = 0x00#8 := by
  unfold lets
  decide +kernel

/-- The one status read of a magnetometer that is not ready, all other bits set. -/
def eventsNotReady : List Event := bridgeReadEvents ex ex.magAddr ex.magSt1Reg [0xFE#8]

theorem witness_MagGateFails :
    lets (answering ex eventsNotReady) eventsNotReady ∧ 0xFE#8 &&& ex.magDrdyMask = 0x00#8 ∧
    lets (answering ex (eventsMag 0x08#8)) (eventsMag 0x08#8) ∧ 0x08#8 &&& ex.magOvfMask ≠ 0x00#8 := by
  unfold lets
  decide +kernel

/-- The gate's three outcomes where their events may happen. -/
theorem gate_not_ready :
    reaches (exec .readMagScaled (answering ex eventsNotReady)) (shows eventsNotReady [0x01#8, 0x00#8]) = true := by
  decide +kernel
theorem witness_MagGateOutcomes_success :
    ∃ t, exec .readMagScaled (answering ex (eventsMag 0x00#8)) = .next t ∧ succeeded (answering ex (eventsMag 0x00#8)) t := by
  obtain ⟨t, h, h'⟩ := exists_of_reaches test_read_mag_scaled
  simp only [shows, Bool.and_eq_true, decide_eq_true_eq] at h'
  exact ⟨t, h, _, h'.2⟩
theorem witness_MagGateOutcomes_failures :
    (∃ t, exec .readMagScaled (answering ex eventsNotReady) = .next t ∧
      answeredWith (answering ex eventsNotReady) t [0x01#8, 0x00#8]) ∧
    ∃ t, exec .readMagScaled (answering ex (eventsMag 0x08#8)) = .next t ∧
      answeredWith (answering ex (eventsMag 0x08#8)) t [0x01#8, 0x01#8] := by
  obtain ⟨t, h, h'⟩ := exists_of_reaches gate_not_ready
  obtain ⟨u, k, k'⟩ := exists_of_reaches test_read_mag_overflow
  simp only [shows, Bool.and_eq_true, decide_eq_true_eq] at h' k'
  exact ⟨⟨t, h, h'.2⟩, u, k, k'.2⟩
theorem witness_SnapshotCompletes :
    lets (factored (answering ex (snapshotMainEvents ex sixBytes sixBytes ++ eventsMag 0x00#8)))
      (snapshotMainEvents ex sixBytes sixBytes ++ eventsMag 0x00#8) := by
  unfold lets
  decide +kernel
theorem witness_SnapshotGateFails :
    lets (factored (answering ex (snapshotMainEvents ex sixBytes sixBytes ++ eventsNotReady)))
      (snapshotMainEvents ex sixBytes sixBytes ++ eventsNotReady) ∧
    lets (factored (answering ex (snapshotMainEvents ex sixBytes sixBytes ++ eventsMag 0x08#8)))
      (snapshotMainEvents ex sixBytes sixBytes ++ eventsMag 0x08#8) := by
  unfold lets
  decide +kernel

/-- A snapshot that is not ready. -/
theorem snapshot_not_ready :
    reaches (exec .readSnapshot (factored (answering ex (traceGyro ++ traceAccel ++ eventsNotReady))))
      (shows (traceGyro ++ traceAccel ++ eventsNotReady) [0x02#8, 0x00#8]) = true := by decide +kernel
theorem witness_SnapshotCost_success :
    ∃ t, exec .readSnapshot (factored (answering ex (eventsSnapshot 0x00#8))) = .next t ∧
      succeeded (factored (answering ex (eventsSnapshot 0x00#8))) t := by
  obtain ⟨t, h, h'⟩ := exists_of_reaches test_read_snapshot
  simp only [shows, Bool.and_eq_true, decide_eq_true_eq] at h'
  exact ⟨t, h, _, h'.2⟩
theorem witness_SnapshotCost_failures :
    (∃ t, exec .readSnapshot (factored (answering ex (eventsSnapshot 0x08#8))) = .next t ∧
      answeredWith (factored (answering ex (eventsSnapshot 0x08#8))) t [0x02#8, 0x01#8]) ∧
    ∃ t, exec .readSnapshot (factored (answering ex (traceGyro ++ traceAccel ++ eventsNotReady))) = .next t ∧
      answeredWith (factored (answering ex (traceGyro ++ traceAccel ++ eventsNotReady))) t [0x02#8, 0x00#8] := by
  obtain ⟨t, h, h'⟩ := exists_of_reaches test_read_snapshot_overflow
  obtain ⟨u, k, k'⟩ := exists_of_reaches snapshot_not_ready
  simp only [shows, Bool.and_eq_true, decide_eq_true_eq] at h' k'
  exact ⟨⟨t, h, h'.2⟩, u, k, k'.2⟩
theorem witness_F32RoundsToNearest : 0 < 82 := by decide
theorem witness_ScaledValuesAreQuotients :
    isSample (-32768) ∧ isSample 32767 ∧ 0 < (⟨82, 5⟩ : Ratio).num ∧ 0 < (⟨1, 2 ^ 200⟩ : Ratio).den := by
  unfold isSample
  decide +kernel
theorem witness_SourceConstantsGiveBoundedResults : isSample (-32768) ∧ isSample 32767 ∧ isSample 0 := by
  unfold isSample
  decide
theorem witness_OnlyTheTwoFrameForms :
    ∃ t, exec .calAccel (answering (few 1) traceCalAccel) = .next t ∧ succeeded (answering (few 1) traceCalAccel) t :=
  witness_ReservedBitPreserved

/-- A canonical memory: MAG[0x11] = 14, DEV[0][0x33] = 07. -/
def someRegs : Memory := [(51, 0x07#8), (529, 0x14#8)]

theorem witness_DeviceStoresByte :
    (withDevice someRegs).ready ∧ Memory.wf someRegs ∧ (devices .atTrigger someRegs).pending = none ∧
    bankOfPayload ex (ex.bankVal.get 3) = some 3 ∧
    0x00#7 ≠ ex.bankSelReg ∧ 0x00#7 ≠ ex.brCtrlReg := by decide +kernel
theorem witness_DeviceStoresBytes :
    (withDevice someRegs).ready ∧ Memory.wf someRegs ∧ (devices .atTrigger someRegs).pending = none ∧
    bankOfPayload ex (ex.bankVal.get 1) = some 1 ∧ legalBurst ex 0x7D 2 = true ∧ (∀ k, k < 2 → 0x7D + k ≠ ex.bankSelReg.toNat) ∧
    ∀ k, k < 2 → 0x7D + k ≠ ex.brCtrlReg.toNat := by decide +kernel
theorem witness_DeviceAnswersReads :
    (withDevice someRegs).ready ∧ (devices .atTrigger someRegs).pending = none ∧
    bankOfPayload ex (ex.bankVal.get 0) = some 0 ∧ legalBurst ex 0x33 6 = true ∧ 0x33#7 ≠ ex.bankSelReg ∧
    (∀ k, k < 6 → 0x33 + k ≠ ex.bankSelReg.toNat) ∧ (devices .atTrigger someRegs).storeAnswers ex 0 0x33 ∧
    (sampling [] someRegs).storeAnswers ex 0 0x39 ∧ (sampling [] someRegs).sampling ≠ .still ∧
    (∀ k, k < 6 → mainSampleReg ex 0 (0x33 + k) = true) ∧ mainSampleReg ex 0 0x38 = true := by
  unfold Device.storeAnswers
  decide +kernel
theorem witness_DeviceRelaysReads :
    (withDevice someRegs).ready ∧ Memory.wf someRegs ∧ (devices (after 1) someRegs).pending = none ∧ bridgeLayout ex ∧
    legalBurst ex ex.relayReg.toNat 6 = true ∧
    (∀ k, k < 6 → ex.relayReg.toNat + k ≠ ex.bankSelReg.toNat ∧
      (sampling sixBytes someRegs).storeAnswers ex 0 (ex.relayReg.toNat + k)) ∧
    settlesInTime ex (devices .atTrigger someRegs) ∧ settlesInTime ex (devices (after 1) someRegs) ∧
    settlesInTime ex (sampling sixBytes someRegs) ∧ sixBytes.length = 6 ∧
    (∀ k, k < 6 → magSampleReg ex (0x11#8 + BitVec.ofNat 8 k) = true) ∧
    (∀ k, k < 6 → magSampleReg ex (0x01#8 + BitVec.ofNat 8 k) = false) ∧
    6 + 9 ≤ (devices (after 15) someRegs).timing.next.1.wait := by
  unfold bridgeLayout settlesInTime Device.storeAnswers
  decide +kernel
theorem witness_DeviceRelaysWrites :
    (withDevice []).ready ∧ Memory.wf [] ∧ (devices (after 1) []).pending = none ∧ bridgeLayout ex ∧
    settlesInTime ex (devices .atTrigger []) ∧ settlesInTime ex (devices (after 1) []) ∧
    2 ≤ (devices (after 2) []).timing.next.1.wait := by
  unfold bridgeLayout settlesInTime
  decide +kernel

/-- Against the reference device: what is written at bank 1 reads back there, at the byte's own address only (R70). -/
theorem test_device_write :
    reaches (exec (.writeBytes 0x01#8 0x14#8 [0xAB#8, 0xCD#8]) (withDevice someRegs))
      (fun t => decide (t.env.device.map (·.regs) =
        some [(51, 0x07#8), (148, 0xAB#8), (149, 0xCD#8), (529, 0x14#8)])) = true := by decide +kernel

/-- Against the reference device: a relayed read of two registers (R70). -/
theorem test_device_bridge_read :
    reaches (exec (.bridgeRead 0x0C#8 0x11#8 0x02#8) (withDevice someRegs))
      (fun t => decide (t.responses = [[0x00#8, 0x14#8, 0x00#8]])) = true := by decide +kernel

/-- A relayed read whose transaction completes after the read-back answers what the window held before, and the transaction
is still in flight (R34, R62). -/
theorem test_device_bridge_read_stale :
    reaches (exec (.bridgeRead 0x0C#8 0x11#8 0x01#8) (withBridge (after 10) [(59, 0x5A#8), (529, 0x14#8)]))
      (fun t => decide (t.responses = [[0x00#8, 0x5A#8]] ∧
        t.env.device.map (·.pending) = some (some { wait := 1, repeats := false }))) = true := by decide +kernel

/-- A relayed write is not yet done at the `CS_HIGH` of its trigger, and is done once `T_BR2` has passed (R34, R150 c). -/
theorem test_device_bridge_write_settles :
    reaches (exec (.bridgeWrite 0x0C#8 0x32#8 0x01#8) (withBridge (after 2) []))
      (fun t => decide (t.env.device.map (·.regs.read (magKey 0x32)) = some 0x00#8)) = true ∧
    reaches (exec (.bridgeWrite 0x0C#8 0x32#8 0x01#8) (withBridge (after 1) []))
      (fun t => decide (t.env.device.map (·.regs.read (magKey 0x32)) = some 0x01#8)) = true := by decide +kernel

/-- Two reads of one axis register, with no write between them, answer the two bytes the sensor had; the byte the framer
itself had stored there is not answered (R35). -/
theorem test_device_samples_change :
    reaches (exec (.readU8 0x00#8 0x33#8) (before (sampling [] someRegs) [0x00#8, 0x00#8, 0x00#8, 0xA1#8, 0x00#8, 0x00#8,
        0x00#8, 0xB2#8]))
      (fun t => reaches (exec (.readU8 0x00#8 0x33#8) t)
        (fun t' => decide (t'.responses = [[0x00#8, 0xA1#8], [0x00#8, 0xB2#8]]))) = true := by decide +kernel

/-- A relayed read of a magnetometer axis register and of the register after the six, which no sensor refreshes (R35). -/
theorem test_device_bridge_read_samples :
    reaches (exec (.bridgeRead 0x0C#8 0x16#8 0x02#8) (before (sampling [0xA1#8] [(534, 0x77#8), (535, 0x5C#8)]) []))
      (fun t => decide (t.responses = [[0x00#8, 0xA1#8, 0x5C#8]])) = true := by decide +kernel

/-- Past the finite range the nearest finite number (R11, R200 point 3): its significand is all ones, its exponent field 254. -/
theorem test_f32_always_finite :
    f32 (2 ^ 130) 1 = 0x7F7FFFFF#32 ∧ f32 (-(2 ^ 128)) 1 = 0xFF7FFFFF#32 := by decide +kernel

end Sys2Proof.Tests
end

section
/-! Proof of `Obligations.F32RoundsToNearest` (R11, R200).

A pattern without its sign is a number `p`, and the patterns in order stand for increasing values (`magnitudeValue`, strictly
monotone). So a pattern is nearest to `q` among all patterns as soon as `q` lies between the midpoints to its two neighbours
(`BetweenMidpoints`), and that is what rounding the scaled significand gives. -/

namespace Sys2Proof.Machine

/-! ### Rounding a rational to a natural -/

/-- `m` is the natural nearest `x`, even when `x` lies half way between two. -/
def IsHalfEven (x : ℚ) (m : Nat) : Prop := |x - m| ≤ 1 / 2 ∧ (|x - m| = 1 / 2 → m % 2 = 0)

/-- Half way between two multiples of the divisor the remainder is half of it. -/
theorem two_mul_mod_of_halfway {n d : Nat} {j : Int} (hd : 0 < d) (h : 2 * (n : Int) = (2 * j + 1) * d) : 2 * (n % d) = d := by
  have hdiv : (d : Int) * (n / d : Nat) + (n % d : Nat) = n := mod_cast Nat.div_add_mod n d
  have hlt : ((n % d : Nat) : Int) < d := mod_cast Nat.mod_lt n hd
  have hd' : (0 : Int) < d := mod_cast hd
  have hrem : 2 * ((n % d : Nat) : Int) = (2 * (j - (n / d : Nat)) + 1) * d := by linarith
  have hlow : -1 < j - (n / d : Nat) := by
    by_contra hneg
    nlinarith
  have hhigh : j - (n / d : Nat) < 1 := by
    by_contra hpos
    nlinarith
  have hzero : j - (n / d : Nat) = 0 := by omega
  rw [hzero] at hrem
  omega

theorem roundHalfEven_isHalfEven {n d : Nat} (hd : 0 < d) : IsHalfEven ((n : ℚ) / d) (roundHalfEven n d) := by
  have hd' : (0 : ℚ) < d := mod_cast hd
  obtain ⟨hhigh, hlow⟩ := roundHalfEven_close (n := n) hd
  set m := roundHalfEven n d with hm
  have hhigh' : 2 * (n : ℚ) ≤ (2 * m + 1) * d := mod_cast hhigh
  have hlow' : 2 * (m : ℚ) * d ≤ 2 * n + d := mod_cast hlow
  have hscaled : (n : ℚ) / d * d = n := div_mul_cancel₀ _ hd'.ne'
  constructor
  · rw [abs_le]
    constructor <;> nlinarith
  · intro htie
    apply roundHalfEven_tie
    obtain habove | hbelow := (abs_eq (by norm_num)).1 htie
    · refine two_mul_mod_of_halfway (j := m) hd ?_
      have : 2 * (n : ℚ) = (2 * m + 1) * d := by rw [← hscaled]; linear_combination 2 * (d : ℚ) * habove
      exact_mod_cast this
    · refine two_mul_mod_of_halfway (j := m - 1) hd ?_
      have : 2 * (n : ℚ) = (2 * (m - 1) + 1) * d := by rw [← hscaled]; linear_combination 2 * (d : ℚ) * hbelow
      exact_mod_cast this

/-- Scaling by a power of two is exact on either side of the fraction. -/
theorem roundScaled_isHalfEven {n d : Nat} (hd : 0 < d) (k : Int) :
    IsHalfEven ((n : ℚ) / d * 2 ^ k) (roundScaled n d k) := by
  unfold roundScaled
  split
  · next hk =>
    obtain ⟨j, rfl⟩ := Int.eq_ofNat_of_zero_le hk
    convert roundHalfEven_isHalfEven (n := n * 2 ^ j) hd using 1
    · push_cast
      rw [zpow_natCast]
      ring
    · simp
  · next hk =>
    obtain ⟨j, rfl⟩ : ∃ j : Nat, k = -(j : Int) := ⟨(-k).toNat, by omega⟩
    have hpos : 0 < d * 2 ^ j := by positivity
    convert roundHalfEven_isHalfEven (n := n) hpos using 1
    · push_cast
      rw [zpow_neg, zpow_natCast, div_mul_eq_div_div, div_eq_mul_inv _ ((2 : ℚ) ^ j)]
    · simp

/-! ### The exponent of a fraction -/

theorem geTwoPow_iff {n d : Nat} (hd : 0 < d) (l : Int) : geTwoPow n d l = true ↔ (2 : ℚ) ^ l ≤ (n : ℚ) / d := by
  have hd' : (0 : ℚ) < d := mod_cast hd
  rw [le_div_iff₀ hd']
  unfold geTwoPow
  split
  · next hl =>
    obtain ⟨j, rfl⟩ := Int.eq_ofNat_of_zero_le hl
    rw [decide_eq_true_iff, mul_comm, zpow_natCast]
    exact_mod_cast Iff.rfl
  · next hl =>
    obtain ⟨j, rfl⟩ : ∃ j : Nat, l = -(j : Int) := ⟨(-l).toNat, by omega⟩
    rw [decide_eq_true_iff, zpow_neg, zpow_natCast, inv_mul_le_iff₀ (by positivity), mul_comm n]
    simp only [neg_neg, Int.toNat_natCast]
    exact_mod_cast Iff.rfl

/-- The quotient's exponent is the difference of the logarithms or one less. -/
theorem binaryExponent_bounds {n d : Nat} (hn : 0 < n) (hd : 0 < d) :
    (2 : ℚ) ^ binaryExponent n d ≤ (n : ℚ) / d ∧ (n : ℚ) / d < 2 ^ (binaryExponent n d + 1) := by
  have hd' : (0 : ℚ) < d := mod_cast hd
  have hnlow : (2 : ℚ) ^ (n.log2 : Int) ≤ n := by
    rw [zpow_natCast]
    exact_mod_cast Nat.log2_self_le hn.ne'
  have hnhigh : (n : ℚ) < 2 ^ ((n.log2 : Int) + 1) := by
    exact_mod_cast Nat.lt_log2_self (n := n)
  have hdlow : (2 : ℚ) ^ (d.log2 : Int) ≤ d := by
    rw [zpow_natCast]
    exact_mod_cast Nat.log2_self_le hd.ne'
  have hdhigh : (d : ℚ) < 2 ^ ((d.log2 : Int) + 1) := by
    exact_mod_cast Nat.lt_log2_self (n := d)
  unfold binaryExponent
  dsimp only
  split
  · next hge =>
    refine ⟨(geTwoPow_iff hd _).1 hge, ?_⟩
    rw [div_lt_iff₀ hd']
    calc (n : ℚ) < 2 ^ ((n.log2 : Int) + 1) := hnhigh
      _ = 2 ^ ((n.log2 : Int) - d.log2 + 1) * 2 ^ (d.log2 : Int) := by
        rw [← zpow_add₀ two_ne_zero]
        congr 1
        ring
      _ ≤ 2 ^ ((n.log2 : Int) - d.log2 + 1) * d := by gcongr
  · next hlt =>
    rw [geTwoPow_iff hd, not_le] at hlt
    refine ⟨?_, by simpa using hlt⟩
    rw [le_div_iff₀ hd']
    calc (2 : ℚ) ^ ((n.log2 : Int) - d.log2 - 1) * d
        ≤ 2 ^ ((n.log2 : Int) - d.log2 - 1) * 2 ^ ((d.log2 : Int) + 1) := by gcongr
      _ = 2 ^ (n.log2 : Int) := by
        rw [← zpow_add₀ two_ne_zero]
        congr 1
        ring
      _ ≤ n := hnlow

/-! ### The values of the patterns, in order -/

/-- The number of steps of the unit `2^-149` up to the spacing at `p`: the subnormal numbers and the least normal binade
share one spacing. -/
def binade (p : Nat) : Nat := p / 2 ^ 23 - 1

/-- The number a pattern without sign stands for; the patterns past the largest finite one go on in the same way. -/
def magnitudeValue (p : Nat) : ℚ := ((p - binade p * 2 ^ 23 : Nat) : ℚ) * 2 ^ ((binade p : Int) - 149)

/-- The values on the grid of one spacing, both ends included: a carry out of the significand is in place. -/
theorem magnitudeValue_grid {k m : Nat} (hk : k = 0 ∨ 2 ^ 23 ≤ m) (hm : m ≤ 2 ^ 24) :
    magnitudeValue (k * 2 ^ 23 + m) = m * 2 ^ ((k : Int) - 149) := by
  unfold magnitudeValue
  obtain hlt | rfl := hm.lt_or_eq
  · have hbin : binade (k * 2 ^ 23 + m) = k := by
      unfold binade
      omega
    rw [hbin, Nat.add_sub_cancel_left]
  · have hbin : binade (k * 2 ^ 23 + 2 ^ 24) = k + 1 := by
      unfold binade
      omega
    have hsig : k * 2 ^ 23 + 2 ^ 24 - (k + 1) * 2 ^ 23 = 2 ^ 23 := by omega
    have hexp : ((k + 1 : Nat) : Int) - 149 = ((k : Int) - 149) + 1 := by
      push_cast
      ring
    rw [hbin, hsig, hexp, zpow_add_one₀ two_ne_zero]
    push_cast
    ring

/-- Every pattern lies on the grid of its spacing. -/
theorem exists_grid (p : Nat) : ∃ k m, p = k * 2 ^ 23 + m ∧ (k = 0 ∨ 2 ^ 23 ≤ m) ∧ m < 2 ^ 24 :=
  ⟨p / 2 ^ 23 - 1, p - (p / 2 ^ 23 - 1) * 2 ^ 23, by omega, by omega, by omega⟩

theorem magnitudeValue_strictMono : StrictMono magnitudeValue := by
  refine strictMono_nat_of_lt_succ fun p => ?_
  obtain ⟨k, m, rfl, hk, hm⟩ := exists_grid p
  rw [add_assoc, magnitudeValue_grid hk hm.le, magnitudeValue_grid (by omega) hm]
  push_cast
  gcongr
  simp

@[simp] theorem magnitudeValue_zero : magnitudeValue 0 = 0 := by simp [magnitudeValue]

theorem magnitudeValue_nonneg (p : Nat) : 0 ≤ magnitudeValue p := by
  unfold magnitudeValue
  positivity

/-! ### Nearest among all patterns from the two neighbours -/

/-- `q` is no farther up than half way to the next pattern and no farther down than half way to the one before, and is half
way only when `M` is even. -/
def BetweenMidpoints (q : ℚ) (M : Nat) : Prop :=
  (2 * q ≤ magnitudeValue M + magnitudeValue (M + 1) ∧
    (2 * q = magnitudeValue M + magnitudeValue (M + 1) → M % 2 = 0)) ∧
  ∀ P, P + 1 = M → magnitudeValue P + magnitudeValue M ≤ 2 * q ∧
    (magnitudeValue P + magnitudeValue M = 2 * q → M % 2 = 0)

/-- No pattern without sign up to the largest finite one is nearer to `q` than `M`, and where another is as near `M` is
even. -/
def NearestMagnitude (q : ℚ) (M : Nat) : Prop :=
  ∀ p ≤ f32LargestFinite, |magnitudeValue M - q| ≤ |magnitudeValue p - q| ∧
    (|magnitudeValue p - q| = |magnitudeValue M - q| → p = M ∨ M % 2 = 0)

/-- Of two numbers the nearer is on the near side of their midpoint. -/
theorem abs_sub_le_abs_sub_iff (x y q : ℚ) : |x - q| ≤ |y - q| ↔ 0 ≤ (y - x) * (x + y - 2 * q) := by
  rw [← sq_le_sq, ← sub_nonneg, show (y - q) ^ 2 - (x - q) ^ 2 = (y - x) * (x + y - 2 * q) by ring]

/-- Two different numbers are as near only to their midpoint. -/
theorem midpoint_of_abs_eq {x y q : ℚ} (hne : x ≠ y) (h : |x - q| = |y - q|) : 2 * q = x + y := by
  obtain heq | hneg := abs_eq_abs.1 h
  · exact absurd (by linarith) hne
  · linarith

/-- The neighbours decide, since the values increase; past the largest finite pattern that one is nearest. -/
theorem nearestMagnitude_of_betweenMidpoints {q : ℚ} {M : Nat} (h : BetweenMidpoints q M) :
    NearestMagnitude q (min M f32LargestFinite) := by
  obtain ⟨⟨hup, hupTie⟩, hdown⟩ := h
  intro p hp
  obtain hlt | rfl | hgt := lt_trichotomy p (min M f32LargestFinite)
  · obtain ⟨P, rfl⟩ : ∃ P, M = P + 1 := ⟨M - 1, by omega⟩
    obtain ⟨hlow, hlowTie⟩ := hdown P rfl
    have hpP : magnitudeValue p ≤ magnitudeValue P := magnitudeValue_strictMono.monotone (by omega)
    have hM : magnitudeValue (min (P + 1) f32LargestFinite) ≤ magnitudeValue (P + 1) :=
      magnitudeValue_strictMono.monotone (min_le_left _ _)
    have hpM := magnitudeValue_strictMono hlt
    constructor
    · rw [abs_sub_le_abs_sub_iff]
      exact mul_nonneg_of_nonpos_of_nonpos (by linarith) (by linarith)
    · intro htie
      have hmid := midpoint_of_abs_eq hpM.ne htie
      have hmin : min (P + 1) f32LargestFinite = P + 1 := magnitudeValue_strictMono.injective (by linarith)
      right
      rw [hmin]
      exact hlowTie (by linarith)
  · exact ⟨le_rfl, fun _ => .inl rfl⟩
  · have hmin : min M f32LargestFinite = M := by omega
    rw [hmin] at hgt ⊢
    have hp : magnitudeValue (M + 1) ≤ magnitudeValue p := magnitudeValue_strictMono.monotone hgt
    have hMp := magnitudeValue_strictMono hgt
    constructor
    · rw [abs_sub_le_abs_sub_iff]
      exact mul_nonneg (by linarith) (by linarith)
    · intro htie
      have hmid := midpoint_of_abs_eq hMp.ne' htie
      exact .inr (hupTie (by linarith))

/-! ### The pattern of a fraction -/

/-- Rounding a significand in place rounds among the patterns: at either end of the grid the spacing changes, and there the
order alone decides. -/
theorem betweenMidpoints_of_isHalfEven {x : ℚ} {k m : Nat} (hlow : k = 0 ∨ 2 ^ 23 ≤ x) (hhigh : x < 2 ^ 24)
    (h : IsHalfEven x m) : BetweenMidpoints (x * 2 ^ ((k : Int) - 149)) (k * 2 ^ 23 + m) := by
  obtain ⟨hclose, htie⟩ := h
  obtain ⟨hbelow, habove⟩ := abs_le.1 hclose
  have hu : (0 : ℚ) < 2 ^ ((k : Int) - 149) := by positivity
  have hm : m ≤ 2 ^ 24 := by
    have : (m : ℚ) < 2 ^ 24 + 1 := by linarith
    exact Nat.lt_succ_iff.1 (mod_cast this)
  have hk : k = 0 ∨ 2 ^ 23 ≤ m := hlow.imp_right fun hx => by
    have : (2 ^ 23 : ℚ) < m + 1 := by linarith
    exact Nat.lt_succ_iff.1 (mod_cast this)
  have hM := magnitudeValue_grid hk hm
  have heven : |x - m| = 1 / 2 → (k * 2 ^ 23 + m) % 2 = 0 := fun ht => by
    have := htie ht
    omega
  refine ⟨?_, fun P hP => ?_⟩
  · obtain hlt | rfl := hm.lt_or_eq
    · rw [hM, add_assoc, magnitudeValue_grid (by omega) hlt]
      push_cast
      refine ⟨by nlinarith, fun ht => heven ?_⟩
      have hx : x - m = 1 / 2 := mul_right_cancel₀ hu.ne' (by linarith)
      rw [hx, abs_of_pos (by norm_num)]
    · have hnext := magnitudeValue_strictMono (Nat.lt_succ_self (k * 2 ^ 23 + 2 ^ 24))
      have hlt : 2 * (x * 2 ^ ((k : Int) - 149)) <
          magnitudeValue (k * 2 ^ 23 + 2 ^ 24) + magnitudeValue (k * 2 ^ 23 + 2 ^ 24 + 1) := by
        rw [hM] at hnext ⊢
        push_cast at hnext ⊢
        nlinarith
      exact ⟨hlt.le, fun ht => absurd ht hlt.ne⟩
  · by_cases hin : k = 0 ∨ 2 ^ 23 < m
    · obtain ⟨m, rfl⟩ : ∃ j, m = j + 1 := ⟨m - 1, by omega⟩
      obtain rfl : P = k * 2 ^ 23 + m := by omega
      rw [hM, magnitudeValue_grid (by omega) (by omega)]
      push_cast at hbelow heven ⊢
      refine ⟨by nlinarith, fun ht => heven ?_⟩
      have hx : x - (m + 1) = -(1 / 2) := mul_right_cancel₀ hu.ne' (by linarith)
      rw [hx, abs_neg, abs_of_pos (by norm_num)]
    · obtain rfl : m = 2 ^ 23 := by omega
      have hx : 2 ^ 23 ≤ x := hlow.resolve_left fun h0 => hin (.inl h0)
      have hprev := magnitudeValue_strictMono (show P < k * 2 ^ 23 + 2 ^ 23 by omega)
      have hlt : magnitudeValue P + magnitudeValue (k * 2 ^ 23 + 2 ^ 23) < 2 * (x * 2 ^ ((k : Int) - 149)) := by
        rw [hM] at hprev ⊢
        push_cast at hprev ⊢
        nlinarith
      exact ⟨hlt.le, fun ht => absurd ht hlt.ne⟩

theorem f32Magnitude_betweenMidpoints (n : Nat) {d : Nat} (hd : 0 < d) :
    BetweenMidpoints ((n : ℚ) / d) (f32Magnitude n d) := by
  obtain rfl | hn := Nat.eq_zero_or_pos n
  · simp [BetweenMidpoints, f32Magnitude, magnitudeValue_nonneg]
  · obtain ⟨hexpLow, hexpHigh⟩ := binaryExponent_bounds hn hd
    have hM : f32Magnitude n d = (max (binaryExponent n d) (-126) + 126).toNat * 2 ^ 23 +
        roundScaled n d (23 - max (binaryExponent n d) (-126)) := by
      simp [f32Magnitude, hn.ne', hd.ne']
    set e := max (binaryExponent n d) (-126) with he
    have hscale : ∀ i : Int, (2 : ℚ) ^ (i + 23) = 2 ^ (i + e) * 2 ^ (23 - e) := fun i => by
      rw [← zpow_add₀ two_ne_zero]
      congr 1
      ring
    have hq : (n : ℚ) / d * 2 ^ (23 - e) * 2 ^ (((e + 126).toNat : Int) - 149) = n / d := by
      rw [mul_assoc, ← zpow_add₀ two_ne_zero, show (23 - e) + (((e + 126).toNat : Int) - 149) = 0 by omega]
      simp
    rw [hM, ← hq]
    refine betweenMidpoints_of_isHalfEven ?_ ?_ (roundScaled_isHalfEven hd _)
    · obtain hsub | hnormal := le_or_gt (binaryExponent n d) (-126)
      · exact .inl (by omega)
      · right
        calc (2 : ℚ) ^ 23 = 2 ^ e * 2 ^ (23 - e) := by simpa using hscale 0
          _ ≤ n / d * 2 ^ (23 - e) := by
            rw [show e = binaryExponent n d by omega]
            gcongr
    · calc (n : ℚ) / d * 2 ^ (23 - e) < 2 ^ (1 + e) * 2 ^ (23 - e) := by
            gcongr
            refine hexpHigh.trans_le (zpow_le_zpow_right₀ one_le_two (by omega))
        _ = 2 ^ 24 := (hscale 1).symm

/-! ### Signs -/

/-- A pattern stands for the value of its lower 31 bits, negated when bit 31 is set. -/
theorem f32Value_eq (b : BitVec 32) : f32Value b =
    if b.toNat < 2 ^ 31 then magnitudeValue (b.toNat % 2 ^ 31) else -magnitudeValue (b.toNat % 2 ^ 31) := by
  have hb := b.isLt
  have hmag : (if b.toNat / 2 ^ 23 % 256 = 0 then ((b.toNat % 2 ^ 23 : Nat) : ℚ) * 2 ^ (-149 : Int)
      else ((2 ^ 23 + b.toNat % 2 ^ 23 : Nat) : ℚ) * 2 ^ (((b.toNat / 2 ^ 23 % 256 : Nat) : Int) - 150)) =
      magnitudeValue (b.toNat % 2 ^ 31) := by
    split
    · next hx =>
      have hgrid := magnitudeValue_grid (k := 0) (m := b.toNat % 2 ^ 23) (.inl rfl) (by omega)
      rw [show b.toNat % 2 ^ 31 = 0 * 2 ^ 23 + b.toNat % 2 ^ 23 by omega, hgrid]
      simp
    · next hx =>
      obtain ⟨k, hk⟩ := Nat.exists_eq_succ_of_ne_zero hx
      rw [show b.toNat % 2 ^ 31 = k * 2 ^ 23 + (2 ^ 23 + b.toNat % 2 ^ 23) by omega,
        magnitudeValue_grid (.inr (by omega)) (by omega), hk]
      congr 2
      omega
  unfold f32Value
  dsimp only
  rw [hmag]

theorem abs_f32Value (b : BitVec 32) : |f32Value b| = magnitudeValue (b.toNat % 2 ^ 31) := by
  rw [f32Value_eq]
  split <;> simp [abs_of_nonneg, magnitudeValue_nonneg]

theorem f32Finite_iff (b : BitVec 32) : f32Finite b ↔ b.toNat % 2 ^ 31 ≤ f32LargestFinite := by
  unfold f32Finite f32LargestFinite
  omega

/-- A pattern on the side of `q` whose magnitude is nearest `|q|` is nearest `q` among both signs. -/
theorem nearestEven_of_nearestMagnitude {q : ℚ} {b : BitVec 32} (hfin : f32Finite b)
    (hside : |f32Value b - q| = abs (|f32Value b| - |q|)) (h : NearestMagnitude |q| (b.toNat % 2 ^ 31)) :
    nearestEven q b := by
  refine ⟨hfin, fun c hc => ?_⟩
  obtain ⟨hle, htie⟩ := h _ ((f32Finite_iff c).1 hc)
  rw [← abs_f32Value b, ← abs_f32Value c] at hle htie
  have hc' : abs (|f32Value c| - |q|) ≤ |f32Value c - q| := abs_abs_sub_abs_le _ _
  rw [← hside] at hle htie
  refine ⟨hle.trans hc', fun heq => ?_⟩
  obtain hsame | heven := htie (le_antisymm (hc'.trans_eq heq) hle)
  · left
    have habs : |f32Value c| = |f32Value b| := by rw [abs_f32Value, abs_f32Value, hsame]
    obtain hpos | hneg := abs_eq_abs.1 habs
    · exact hpos
    · suffices hzero : f32Value b = 0 by rw [hneg, hzero, neg_zero]
      rw [hneg] at heq
      obtain hv | hq := abs_eq_abs.1 heq
      · linarith
      · obtain rfl : q = 0 := by linarith
        have hnone := (h 0 (Nat.zero_le _)).1
        rw [← abs_f32Value] at hnone
        simpa using hnone
  · exact .inr (by omega)

/-! ### `f32` -/

theorem min_f32LargestFinite_lt (p : Nat) : min p f32LargestFinite < 2 ^ 31 :=
  (min_le_right _ _).trans_lt (by decide)

theorem f32_toNat (n : Int) (d : Nat) : (f32 n d).toNat =
    (if n < 0 ∧ min (f32Magnitude n.natAbs d) f32LargestFinite ≠ 0 then 2 ^ 31 else 0) +
      min (f32Magnitude n.natAbs d) f32LargestFinite := by
  have hmax := min_f32LargestFinite_lt (f32Magnitude n.natAbs d)
  unfold f32
  dsimp only
  rw [BitVec.toNat_ofNat, Nat.mod_eq_of_lt]
  split <;> omega

theorem f32_toNat_mod (n : Int) (d : Nat) :
    (f32 n d).toNat % 2 ^ 31 = min (f32Magnitude n.natAbs d) f32LargestFinite := by
  have hmax := min_f32LargestFinite_lt (f32Magnitude n.natAbs d)
  rw [f32_toNat]
  split <;> omega

/-- The result has the sign of the numerator; a zero magnitude has no sign to give. -/
theorem f32Value_f32 (n : Int) (d : Nat) : f32Value (f32 n d) =
    if n < 0 then -magnitudeValue ((f32 n d).toNat % 2 ^ 31) else magnitudeValue ((f32 n d).toNat % 2 ^ 31) := by
  have hnat := f32_toNat n d
  have hmod := f32_toNat_mod n d
  rw [f32Value_eq]
  by_cases hzero : (f32 n d).toNat % 2 ^ 31 = 0
  · simp only [hzero, magnitudeValue_zero, neg_zero, ite_self]
  · have hsign : (f32 n d).toNat < 2 ^ 31 ↔ ¬ n < 0 := by
      split at hnat <;> omega
    simp only [hsign, ite_not]

theorem f32_ne_negZero (n : Int) (d : Nat) : f32 n d ≠ 0x80000000#32 := by
  intro h
  have hnat := f32_toNat n d
  have hmod := f32_toNat_mod n d
  rw [h] at hnat hmod
  simp only [BitVec.toNat_ofNat] at hnat hmod
  rw [← hmod] at hnat
  simp at hnat

@[simp] theorem f32_zero (d : Nat) : f32 0 d = 0x00000000#32 := by simp [f32, f32Magnitude]

theorem nearestEven_f32 (n : Int) {d : Nat} (hd : 0 < d) : nearestEven ((n : ℚ) / d) (f32 n d) := by
  have hd' : (0 : ℚ) < d := mod_cast hd
  have habs : |(n : ℚ) / d| = (n.natAbs : ℚ) / d := by
    rw [abs_div, abs_of_pos hd', Nat.cast_natAbs, Int.cast_abs]
  have hfin : f32Finite (f32 n d) := by
    rw [f32Finite_iff, f32_toNat_mod]
    exact min_le_right _ _
  refine nearestEven_of_nearestMagnitude hfin ?_ ?_
  · rw [abs_f32Value, f32Value_f32]
    split
    · next hn =>
      have hq : (n : ℚ) / d < 0 := div_neg_of_neg_of_pos (mod_cast hn) hd'
      rw [abs_of_neg hq, ← abs_neg]
      congr 1
      ring
    · next hn =>
      have hq : 0 ≤ (n : ℚ) / d := div_nonneg (mod_cast not_lt.1 hn) hd'.le
      rw [abs_of_nonneg hq]
  · rw [f32_toNat_mod, habs]
    exact nearestMagnitude_of_betweenMidpoints (f32Magnitude_betweenMidpoints _ hd)

/-- Settles O52, by rounding the magnitude between the midpoints to its two neighbours. -/
theorem f32RoundsToNearest : Obligations.F32RoundsToNearest := by
  intro n d hd
  refine ⟨nearestEven_f32 n hd, f32_ne_negZero n d, ?_⟩
  rintro rfl
  exact f32_zero d

end Sys2Proof.Machine
end

section
/-! Proofs of `Obligations.StepWaitsForAWholePacket`, `OperationFrame`, `OnlyRangeSelectionsWriteFactors` and
`StepKeepsInvariant` (10_state.md R22 to R28, 40_bus_transaction.md R113, R116).

All four speak of what an instruction may do, whatever the environment answers. That is said once, in `exec_ran`: every
instruction issues an operation whose effect is `Contained` and whose writes to the scale factors are those of `WritesWithin`. -/

namespace Sys2Proof.Machine

/-! ### What an operation may write -/

/-- A factor is left alone, or, where `may` allows it, set to an entry of its table (R22, R23). -/
def FactorStep (may : Prop) (table : Four Ratio) (before after : Option Ratio) : Prop :=
  after = before ∨ (may ∧ ∃ k, after = some (table.get k))

theorem FactorStep.refl (may : Prop) (table : Four Ratio) (sf : Option Ratio) : FactorStep may table sf sf := .inl rfl

theorem FactorStep.trans {may : Prop} {table : Four Ratio} {x y z : Option Ratio} (h : FactorStep may table x y)
    (g : FactorStep may table y z) : FactorStep may table x z := by
  rcases g with rfl | g
  · exact h
  · exact .inr g

/-- A factor that may not be written is left alone. -/
theorem FactorStep.eq_of_not {may : Prop} {table : Four Ratio} {x y : Option Ratio} (h : FactorStep may table x y)
    (hnot : ¬may) : y = x := h.resolve_right fun h => hnot h.1

theorem FactorStep.eq_or_entry {may : Prop} {table : Four Ratio} {x y : Option Ratio} (h : FactorStep may table x y) :
    y = x ∨ ∃ k, y = some (table.get k) := h.imp_right And.right

/-- A factor once set stays set. -/
theorem FactorStep.isSome {may : Prop} {table : Four Ratio} {x y : Option Ratio} (h : FactorStep may table x y)
    (hx : x.isSome = true) : y.isSome = true := by
  rcases h with rfl | ⟨-, k, rfl⟩
  · exact hx
  · rfl

theorem Four.get_mem_toList {α : Type} (t : Four α) (k : Fin 4) : t.get k ∈ t.toList := by
  fin_cases k <;> simp [Four.get, Four.toList]

theorem FactorStep.fromTable {may : Prop} {table : Four Ratio} {x y : Option Ratio} (h : FactorStep may table x y)
    (hx : Machine.fromTable x table) : Machine.fromTable y table := by
  rcases h with rfl | ⟨-, k, rfl⟩
  · exact hx
  · intro q hq
    cases hq
    exact Four.get_mem_toList table k

/-- `Contained`, and each factor written only where `gyro` or `accel` allows it. -/
structure WritesWithin (gyro accel : Prop) (s t : State) : Prop where
  contained : Contained s t
  gyro : FactorStep gyro s.params.gyroSf s.sfGyro t.sfGyro
  accel : FactorStep accel s.params.accelSf s.sfAccel t.sfAccel

theorem writesWithin_composable (gyro accel : Prop) : Composable (WritesWithin gyro accel) where
  refl s := ⟨contained_composable.refl s, .refl _ _ _, .refl _ _ _⟩
  trans h g :=
    ⟨contained_composable.trans h.contained g.contained,
      h.gyro.trans (h.contained.params ▸ g.gyro), h.accel.trans (h.contained.params ▸ g.accel)⟩

section
variable {gyro accel : Prop}

/-- An operation that touches no factor is within every allowance. -/
theorem Calm.writesWithin {α : Type} {op : Op α} (h : Calm op) : Effect (WritesWithin gyro accel) op := fun s =>
  ⟨h.contained s, .inl (h.factors s).gyro, .inl (h.factors s).accel⟩

/-- A factor taken from the table of the parameters read is an entry of the state's own table, since no operation changes the
parameters (R28). -/
theorem writesWithin_under_composable (p : Params) :
    Composable fun s t => s.params = p → WritesWithin gyro accel s t where
  refl s _ := (writesWithin_composable gyro accel).refl s
  trans h g hp := (writesWithin_composable gyro accel).trans (h hp) (g ((h hp).contained.params.trans hp))

theorem selectGyroRange_writesWithin (hgyro : gyro) (r : RangeIx) :
    Effect (WritesWithin gyro accel) (selectGyroRange r) := by
  intro s
  have hR := writesWithin_under_composable (gyro := gyro) (accel := accel) s.params
  rw [selectGyroRange, Op.bind_ok s (parameters_apply s)]
  refine Effect.bind hR (fun t _ => (readU8_calm _).writesWithin t) (fun _ => ?_) s rfl
  refine Effect.bind hR (fun t _ => (writeU8_calm _ _).writesWithin t) (fun _ t hp => ?_)
  exact ⟨setSfGyro_contained t _, .inr ⟨hgyro, r, by rw [hp]; rfl⟩, .inl rfl⟩

theorem selectAccelRange_writesWithin (haccel : accel) (r : RangeIx) :
    Effect (WritesWithin gyro accel) (selectAccelRange r) := by
  intro s
  have hR := writesWithin_under_composable (gyro := gyro) (accel := accel) s.params
  rw [selectAccelRange, Op.bind_ok s (parameters_apply s)]
  refine Effect.bind hR (fun t _ => (readU8_calm _).writesWithin t) (fun _ => ?_) s rfl
  refine Effect.bind hR (fun t _ => (writeU8_calm _ _).writesWithin t) (fun _ t hp => ?_)
  exact ⟨setSfAccel_contained t _, .inl rfl, .inr ⟨haccel, r, by rw [hp]; rfl⟩⟩

theorem initMain_writesWithin (hgyro : gyro) (haccel : accel) : Effect (WritesWithin gyro accel) initMain := by
  have hR := writesWithin_composable gyro accel
  rw [initMain_eq]
  exact Effect.bind hR (Effect.parameters hR) fun _ =>
    Effect.bind hR (identityMain_calm _).writesWithin fun _ =>
      Effect.bind hR (runSteps_calm _).writesWithin fun _ =>
        Effect.bind hR calGyro_calm.writesWithin fun _ =>
          Effect.bind hR calAccel_calm.writesWithin fun _ =>
            Effect.bind hR (selectGyroRange_writesWithin hgyro _) fun _ => selectAccelRange_writesWithin haccel _

end

/-! ### Operand checks raise or pass -/

theorem indexOperand_calm (b : Byte) : Calm (indexOperand b) := Calm.ite (Calm.pure _) (raise_calm _)

theorem addrOperand_calm (b : Byte) : Calm (addrOperand b) := Calm.ite (raise_calm _) (Calm.pure _)

theorem burstOperand_calm (start : Addr7) (len : Nat) : Calm (burstOperand start len) :=
  Calm.parameters.bind fun _ => Calm.ite (Calm.ite (Calm.pure ()) (raise_calm _)) (raise_calm _)

theorem transmitOperand_calm (tx : List Byte) : Calm (transmitOperand tx) := Calm.ite (Calm.pure ()) (raise_calm _)

/-- An operation without a result answers with an empty payload. -/
theorem Calm.bind_empty {op : Op Unit} (h : Calm op) : Calm (op >>= fun _ => (Pure.pure [] : Op (List Byte))) :=
  h.bind fun _ => Calm.pure []

/-! ### What an instruction may write -/

/-- The instructions that may write `x[SF_GYRO]` (R22, R23). -/
def writesGyro (i : Instr) : Prop := (∃ r, i = .selectGyroRange r) ∨ i = .initMain

/-- The instructions that may write `x[SF_ACCEL]` (R22, R23). -/
def writesAccel (i : Instr) : Prop := (∃ r, i = .selectAccelRange r) ∨ i = .initMain

/-- All that an instruction which answers a next state can do. -/
structure Ran (gyro accel : Prop) (s t : State) : Prop where
  params : t.params = s.params
  seq : t.seq = .idle
  portIn : t.portIn = s.portIn
  busReq : t.busReq = s.busReq
  responses : s.responses <+: t.responses
  grows : s.tr <+: t.tr
  closed : s.closed → t.closed
  env : s.env.wf → t.env.wf
  gyro : FactorStep gyro s.params.gyroSf s.sfGyro t.sfGyro
  accel : FactorStep accel s.params.accelSf s.sfAccel t.sfAccel

/-- The response ends the operation and writes nothing but `SEQ`, the responses and the closing of an open frame (R97, R234). -/
theorem respond_ran {gyro accel : Prop} {s : State} {q : Except Error (List Byte) × State}
    (h : WritesWithin gyro accel s q.2) : Ran gyro accel s (respond q) := by
  obtain ⟨r, u⟩ := q
  obtain ⟨hc, hg, ha⟩ := h
  cases r with
  | ok payload =>
    exact ⟨hc.params, rfl, hc.portIn, hc.busReq, hc.responses ▸ List.prefix_append _ _, hc.grows, hc.closed, hc.env, hg,
      ha⟩
  | error e =>
    have hk := kept_closeFrame u
    have hclosed : u.closed → u.closeFrame.closed := fun hu => by rwa [State.closeFrame_of_high hu.1]
    exact ⟨hk.params.trans hc.params, rfl, hk.portIn.trans hc.portIn, hk.busReq.trans hc.busReq,
      (hk.responses.trans hc.responses) ▸ List.prefix_append _ _, hc.grows.trans hk.grows, hclosed ∘ hc.closed,
      hk.env ∘ hc.env, hk.gyro ▸ hg, hk.accel ▸ ha⟩

theorem issue_ran {gyro accel : Prop} {op : Op (List Byte)} {s t : State} (hop : Effect (WritesWithin gyro accel) op)
    (h : issue op s = .next t) : Ran gyro accel s t := by
  obtain ⟨-, rfl⟩ := issue_next h
  obtain ⟨hparams, hseq, hportIn, hbusReq, hresponses, hgrows, hclosed, henv, hgyro, haccel⟩ :=
    respond_ran (hop (s.setSeq .busy))
  exact ⟨hparams, hseq, hportIn, hbusReq, hresponses, hgrows, hclosed, henv, hgyro, haccel⟩

theorem Calm.ran {gyro accel : Prop} {op : Op (List Byte)} {s t : State} (hop : Calm op) (h : issue op s = .next t) :
    Ran gyro accel s t := issue_ran hop.writesWithin h

/-- All that any instruction can do, whatever the environment answers: one operation per row of the opcode table. -/
theorem exec_ran {i : Instr} {s t : State} (h : exec i s = .next t) : Ran (writesGyro i) (writesAccel i) s t := by
  cases i with
  | xfer tx m => exact ((transmitOperand_calm _).bind fun _ => frame_calm _ _).ran h
  | selectBank bank => exact ((indexOperand_calm _).bind fun _ => (selectBank_calm _).bind_empty).ran h
  | readU8 bank reg =>
    exact ((indexOperand_calm _).bind fun _ => (addrOperand_calm _).bind fun _ => (readU8_calm _).bind fun _ =>
      Calm.pure _).ran h
  | writeU8 bank reg value =>
    exact ((indexOperand_calm _).bind fun _ => (addrOperand_calm _).bind fun _ => (writeU8_calm _ _).bind_empty).ran h
  | readBytes bank reg len =>
    exact ((indexOperand_calm _).bind fun _ => (addrOperand_calm _).bind fun _ => (burstOperand_calm _ _).bind fun _ =>
      readBytes_calm _ _).ran h
  | writeBytes bank reg data =>
    exact ((indexOperand_calm _).bind fun _ => (addrOperand_calm _).bind fun _ => (burstOperand_calm _ _).bind fun _ =>
      (writeBytes_calm _ _).bind_empty).ran h
  | bridgeRead f r len =>
    exact ((addrOperand_calm _).bind fun _ => Calm.parameters.bind fun _ => (burstOperand_calm _ _).bind fun _ =>
      bridgeRead_calm _ _ _).ran h
  | bridgeWrite f r value =>
    exact ((addrOperand_calm _).bind fun _ => (bridgeWrite_calm _ _ _).bind_empty).ran h
  | initMain =>
    have hR := writesWithin_composable (writesGyro .initMain) (writesAccel .initMain)
    exact issue_ran (Effect.bind hR (initMain_writesWithin (.inr rfl) (.inr rfl)) fun _ => Effect.pure hR _) h
  | initBridgeDevice => exact initBridgeDevice_calm.bind_empty.ran h
  | calGyro => exact calGyro_calm.bind_empty.ran h
  | calAccel => exact calAccel_calm.bind_empty.ran h
  | selectGyroRange range =>
    have hR := writesWithin_composable (writesGyro (.selectGyroRange range)) (writesAccel (.selectGyroRange range))
    exact issue_ran (Effect.bind hR (indexOperand_calm _).writesWithin fun r =>
      Effect.bind hR (selectGyroRange_writesWithin (.inl ⟨range, rfl⟩) r) fun _ => Effect.pure hR _) h
  | selectAccelRange range =>
    have hR :=
      writesWithin_composable (writesGyro (.selectAccelRange range)) (writesAccel (.selectAccelRange range))
    exact issue_ran (Effect.bind hR (indexOperand_calm _).writesWithin fun r =>
      Effect.bind hR (selectAccelRange_writesWithin (.inl ⟨range, rfl⟩) r) fun _ => Effect.pure hR _) h
  | readGyroRaw => exact (readGyroRaw_calm.bind fun _ => Calm.pure _).ran h
  | readAccelRaw => exact (readAccelRaw_calm.bind fun _ => Calm.pure _).ran h
  | readGyroScaled => exact (readGyroScaled_calm.bind fun _ => Calm.pure _).ran h
  | readAccelScaled => exact (readAccelScaled_calm.bind fun _ => Calm.pure _).ran h
  | readMagScaled => exact (readMagScaled_calm.bind fun _ => Calm.pure _).ran h
  | readSnapshot => exact readSnapshot_calm.ran h
  | frameRead addr m =>
    simp only [exec, execFrameRead] at h
    split at h
    · cases h
    · exact (readFrame_calm addr m).ran h
  | frameWrite addr payload =>
    simp only [exec, execFrameWrite] at h
    split at h
    · cases h
    · exact (writeFrame_calm addr payload).bind_empty.ran h

/-! ### One step -/

/-- The two states differ at most in what waits at the two ports. -/
def SameButPorts (s t : State) : Prop := ∃ q bytes, t = (s.setBusReq q).setPortIn bytes

theorem fetch_run {s s' : State} {i : Instr} (h : fetch s = .run i s') : SameButPorts s s' := by
  unfold fetch at h
  split at h
  · split at h <;> cases h
    exact ⟨none, s.portIn, rfl⟩
  · split at h <;> cases h
    exact ⟨s.busReq, _, rfl⟩

theorem fetch_illegal {s s' : State} (h : fetch s = .illegal s') : SameButPorts s s' := by
  unfold fetch at h
  split at h
  · split at h <;> cases h
  · split at h <;> cases h
    exact ⟨s.busReq, _, rfl⟩

/-- With no bus frame and no whole packet the framer waits (R36, R93). -/
theorem fetch_waiting {s : State} (hbus : s.busReq = none) (hport : decodePacket s.portIn = .incomplete) :
    fetch s = .waiting := by
  simp only [fetch, hbus, hport]

/-- All that a step can do: it waits, or it takes what is pending at a port and runs it to its response (R24, R93, R99). -/
theorem step_cases {s t : State} (h : step s = .next t) :
    t = s ∨ ∃ s' gyro accel, SameButPorts s s' ∧ Ran gyro accel s' t := by
  unfold step at h
  split at h
  case h_1 i s' hfetch => exact .inr ⟨s', _, _, fetch_run hfetch, exec_ran h⟩
  case h_2 s' hfetch => exact .inr ⟨s', True, True, fetch_illegal hfetch, (raise_calm _).ran h⟩
  case h_3 => cases h
  case h_4 =>
    cases h
    exact .inl rfl

/-! ### The invariant -/

theorem SameButPorts.inv {s t : State} (h : SameButPorts s t) (hs : s.Inv) : t.Inv := by
  obtain ⟨q, bytes, rfl⟩ := h
  exact ⟨hs.seq, hs.cs, hs.trace, hs.sfGyro, hs.sfAccel, hs.env⟩

/-- Every instruction keeps the invariant (R22, R25, R113, R116). -/
theorem Ran.inv {gyro accel : Prop} {s t : State} (h : Ran gyro accel s t) (hs : s.Inv) : t.Inv := by
  obtain ⟨hcs, htrace⟩ := h.closed ⟨hs.cs, hs.trace⟩
  refine ⟨h.seq, hcs, htrace, ?_, ?_, h.env hs.env⟩
  · rw [h.params]
    exact h.gyro.fromTable hs.sfGyro
  · rw [h.params]
    exact h.accel.fromTable hs.sfAccel

/-- Settles O8: nothing is fetched, so nothing is run. -/
theorem stepWaitsForAWholePacket : Obligations.StepWaitsForAWholePacket := by
  intro s hbus hport
  simp only [step, fetch_waiting hbus hport]

/-- Settles O17, from all that an instruction can do. -/
theorem operationFrame : Obligations.OperationFrame := by
  intro i s t h
  have hran := exec_ran h
  exact ⟨hran.params, hran.portIn, hran.busReq, hran.grows, hran.responses⟩

/-- Settles O18: each instruction writes a factor only if it is among those that may, and then from its table. -/
theorem onlyRangeSelectionsWriteFactors : Obligations.OnlyRangeSelectionsWriteFactors := by
  intro i s t h
  have hran := exec_ran h
  refine ⟨fun hsel hinit => hran.gyro.eq_of_not ?_, fun hsel hinit => hran.accel.eq_of_not ?_,
    hran.gyro.eq_or_entry, hran.accel.eq_or_entry, hran.gyro.isSome, hran.accel.isSome⟩
  · rintro (⟨r, hr⟩ | hi)
    · exact hsel r hr
    · exact hinit hi
  · rintro (⟨r, hr⟩ | hi)
    · exact hsel r hr
    · exact hinit hi

/-- Settles O14: a step waits, or it is an instruction run to its response, and each of these keeps the invariant. -/
theorem stepKeepsInvariant : Obligations.StepKeepsInvariant := by
  intro s t hs h
  rcases step_cases h with rfl | ⟨s', gyro, accel, hports, hran⟩
  · exact hs
  · exact hran.inv (hports.inv hs)

end Sys2Proof.Machine
end

section
/-! Proof of `Obligations.DeviceAnswersReads` (10_state.md R35, 41_register_access.md R123, R127).

`Device.Lets` says that before the devices a list of events happens, and what the devices are afterwards; it composes over the
list. Between two frames the devices are `d.during k [] 0`: those of before, `k` bus events later, in which the bridge completed
nothing (`Device.quiet`). -/

namespace Sys2Proof.Machine

/-! ### What the devices let happen -/

/-- An environment that has the devices `d` and gives its coming bus steps the bytes `free`, and past them its free values, lets
the events happen; it then has the devices `d'` and gives the bytes `free'`. -/
def Device.Lets (p : Params) (free : List Byte) (d : Device) (es : List Event) (free' : List Byte) (d' : Device) : Prop :=
  ∀ e : Env, e.script = free.map doneAnswer → e.device = some d →
    ∃ e', e.run p es = some e' ∧ e'.script = free'.map doneAnswer ∧ e'.device = some d'

/-- Before the devices no bus step fails, and it is given the next of the bytes. -/
theorem Env.next_of_script {e : Env} {free : List Byte} {d : Device} (hs : e.script = free.map doneAnswer)
    (hd : e.device = some d) :
    e.next.1.report = .done ∧ e.next.2.script = free.tail.map doneAnswer ∧ ∀ b ∈ free.head?, e.next.1.byte = b := by
  obtain ⟨script, count, device⟩ := e
  subst hs hd
  cases free <;> simp [Env.next, doneAnswer]

section
variable {p : Params} {free free' free'' : List Byte} {d d' d'' : Device} {es fs : List Event}

theorem Device.Lets.nil : Device.Lets p free d [] free d := fun e hs hd => ⟨e, rfl, hs, hd⟩

theorem Device.Lets.append (h : Device.Lets p free d es free' d') (h' : Device.Lets p free' d' fs free'' d'') :
    Device.Lets p free d (es ++ fs) free'' d'' := by
  intro e hs hd
  obtain ⟨e', hrun, hs', hd'⟩ := h e hs hd
  obtain ⟨e'', hrun', hs'', hd''⟩ := h' e' hs' hd'
  exact ⟨e'', by rw [Env.run_append, hrun]; exact hrun', hs'', hd''⟩

theorem Device.Lets.csLow : Device.Lets p free d [.csLow] free (d.onEvent p .csLow) := fun e hs hd =>
  ⟨e.observe p .csLow, rfl, hs, by simp [Env.observe, hd]⟩

theorem Device.Lets.csHigh : Device.Lets p free d [.csHigh] free (d.onEvent p .csHigh) := fun e hs hd =>
  ⟨e.observe p .csHigh, rfl, hs, by simp [Env.observe, hd]⟩

theorem Device.Lets.delay (ms : Nat) : Device.Lets p free d [.delay ms] free (d.onEvent p (.delay ms)) := fun e hs hd =>
  ⟨e.observe p (.delay ms), rfl, hs, by simp [Env.observe, hd]⟩

theorem Device.Lets.tx (b : Byte) : Device.Lets p free d [.tx b] free.tail (d.onEvent p (.tx b)) := by
  intro e hs hd
  obtain ⟨hdone, hs', -⟩ := Env.next_of_script hs hd
  exact ⟨e.next.2.observe p (.tx b), by simp [Env.run, hdone], hs', by simp [Env.observe, Env.next_device, hd]⟩

/-- A byte is received if it is what the devices answer, whatever the environment's own byte is, or given the next one. -/
theorem Device.Lets.rx {r : Byte} (h : ∀ b, (∀ x ∈ free.head?, b = x) → d.reply p b = r) :
    Device.Lets p free d [.rx r] free.tail (d.onEvent p (.rx r)) := by
  intro e hs hd
  obtain ⟨hdone, hs', hbyte⟩ := Env.next_of_script hs hd
  have hr : e.next.2.received p e.next.1.byte = r := by
    simpa [Env.received, Env.next_device, hd] using h _ hbyte
  exact ⟨e.next.2.observe p (.rx r), by simp [Env.run, hdone, hr], hs', by simp [Env.observe, Env.next_device, hd]⟩

end

/-! ### Events during which the bridge completes nothing (R34) -/

/-- Nothing the bridge holds completes within `k` bus events. -/
def Device.quiet (k : Nat) (d : Device) : Prop := ∀ a, d.pending = some a → k < a.wait

/-- The devices `k` bus events later, in a frame that has sent `tx` and received `rx` bytes. -/
def Device.during (d : Device) (k : Nat) (tx : List Byte) (rx : Nat) : Device :=
  { d with pending := d.pending.map fun a => { a with wait := a.wait - k }, frameTx := tx, frameRx := rx }

section
variable {p : Params} {free : List Byte} {d : Device} {k n : Nat} {tx : List Byte} {rx : Nat}

@[simp] theorem Device.during_bank : (d.during k tx rx).bank = d.bank := rfl
@[simp] theorem Device.during_regs : (d.during k tx rx).regs = d.regs := rfl
@[simp] theorem Device.during_timing : (d.during k tx rx).timing = d.timing := rfl
@[simp] theorem Device.during_sampling : (d.during k tx rx).sampling = d.sampling := rfl
@[simp] theorem Device.during_frameTx : (d.during k tx rx).frameTx = tx := rfl
@[simp] theorem Device.during_frameRx : (d.during k tx rx).frameRx = rx := rfl
@[simp] theorem Device.during_pending_eq_none : (d.during k tx rx).pending = none ↔ d.pending = none := by
  simp [Device.during]

theorem Device.during_zero (d : Device) : d.during 0 d.frameTx d.frameRx = d := by
  simp [Device.during]

@[simp] theorem Device.during_during (j : Nat) (tx' : List Byte) (rx' : Nat) :
    (d.during k tx rx).during j tx' rx' = d.during (k + j) tx' rx' := by
  simp [Device.during, Function.comp_def, Nat.sub_sub]

theorem Device.quiet_of_idle (h : d.pending = none) (k : Nat) : d.quiet k := by simp [Device.quiet, h]

theorem Device.quiet.mono (h : d.quiet n) (hk : k ≤ n) : d.quiet k := fun a ha => lt_of_le_of_lt hk (h a ha)

theorem Device.quiet.during (h : d.quiet (k + n)) : (d.during k tx rx).quiet n := by
  intro a ha
  obtain ⟨b, hb, rfl⟩ := Option.map_eq_some_iff.1 ha
  have := h b hb
  simp only
  omega

/-- An event at which nothing completes only takes one from the wait. -/
theorem Device.tick_during (h : d.quiet (k + 1)) : (d.during k tx rx).tick p = d.during (k + 1) tx rx := by
  cases hp : d.pending with
  | none => simp [Device.during, Device.tick, hp]
  | some a =>
    have hw : ¬a.wait - (k + 1) = 0 := by
      have := h a hp
      omega
    simp [Device.during, Device.tick, Device.settle, hp, hw, Nat.sub_sub]

theorem Device.onEvent_csLow (h : d.quiet (k + 1)) : (d.during k tx rx).onEvent p .csLow = d.during (k + 1) [] 0 := by
  rw [Device.onEvent, Device.tick_during h]
  rfl

theorem Device.onEvent_tx (h : d.quiet (k + 1)) (b : Byte) :
    (d.during k tx rx).onEvent p (.tx b) = d.during (k + 1) (tx ++ [b]) rx := by
  rw [Device.onEvent, Device.tick_during h]
  rfl

theorem Device.onEvent_rx (h : d.quiet (k + 1)) (b : Byte) :
    (d.during k tx rx).onEvent p (.rx b) = d.during (k + 1) tx (rx + 1) := by
  rw [Device.onEvent, Device.tick_during h]
  rfl

theorem Device.onEvent_delay (h : d.quiet (k + 1)) (ms : Nat) :
    (d.during k tx rx).onEvent p (.delay ms) = d.during (k + 1) tx rx := by
  rw [Device.onEvent, Device.tick_during h]
  rfl

/-- The end of a read frame changes nothing (R70). -/
theorem Device.onEvent_csHigh_read (h : d.quiet (k + 1)) {c : Byte} (hc : c.msb = true) :
    (d.during k (c :: tx) rx).onEvent p .csHigh = d.during (k + 1) [] 0 := by
  rw [Device.onEvent, Device.tick_during h]
  simp only [Device.frameEvent, Device.closeFrame, Device.during_frameTx, hc, if_true]
  rfl

/-- The end of a write frame writes its one payload byte (R70). -/
theorem Device.onEvent_csHigh_write (h : d.quiet (k + 1)) {c : Byte} (hc : c.msb = false) (v : Byte) :
    (d.during k [c, v] rx).onEvent p .csHigh =
      { (d.during (k + 1) [c, v] rx).writeByte p (c.setWidth 7).toNat v with frameTx := [], frameRx := 0 } := by
  rw [Device.onEvent, Device.tick_during h]
  simp [Device.frameEvent, Device.closeFrame, Device.writeBytes, hc]

/-! ### Frames -/

/-- A delay, or none for 0, while the bridge completes nothing. -/
theorem Device.Lets.delayEvents (h : d.quiet 1) (ms : Nat) :
    Device.Lets p free d (delayEvents ms) free
      (d.during (Machine.delayEvents ms).length d.frameTx d.frameRx) := by
  unfold Machine.delayEvents
  split
  · simpa [Device.during_zero] using Device.Lets.nil (p := p) (free := free) (d := d)
  · have := Device.Lets.delay (p := p) (free := free) (d := d) ms
    rwa [← Device.during_zero d, Device.onEvent_delay (k := 0) h, Device.during_zero] at this

/-- Bytes transmitted one after the other. -/
theorem Device.Lets.txs {bs : List Byte} (hq : d.quiet (k + bs.length)) :
    Device.Lets p free (d.during k tx rx) (bs.map .tx) (free.drop bs.length) (d.during (k + bs.length) (tx ++ bs) rx) := by
  induction bs generalizing k tx free with
  | nil => simpa using Device.Lets.nil
  | cons b bs ih =>
    have hfirst := Device.Lets.tx (p := p) (free := free) (d := d.during k tx rx) b
    rw [Device.onEvent_tx (hq.mono (by simp))] at hfirst
    have hrest := ih (k := k + 1) (tx := tx ++ [b]) (free := free.tail) (hq.mono (by simp; omega))
    simpa [Nat.add_assoc, Nat.add_comm] using hfirst.append hrest

/-- Bytes received one after the other, from position `i` of the frame on. -/
theorem Device.Lets.rxs {rs : List Byte} {i : Nat} (hq : d.quiet (k + rs.length))
    (h : ∀ j (hj : j < rs.length) m b, (∀ x ∈ free[j]?, b = x) → (d.during m tx (i + j)).reply p b = rs[j]) :
    Device.Lets p free (d.during k tx i) (rs.map .rx) (free.drop rs.length) (d.during (k + rs.length) tx (i + rs.length)) := by
  induction rs generalizing k i free with
  | nil => exact Device.Lets.nil
  | cons r rs ih =>
    have hfirst := Device.Lets.rx (p := p) (free := free) (d := d.during k tx i) (r := r) fun b hb =>
      h 0 (by simp) k b (by simpa [List.head?_eq_getElem?] using hb)
    rw [Device.onEvent_rx (hq.mono (by simp))] at hfirst
    have hrest := ih (k := k + 1) (i := i + 1) (free := free.tail) (hq.mono (by simp; omega)) fun j hj m b hb => by
      have := h (j + 1) (by simpa using hj) m b (by simpa using hb)
      rwa [← Nat.add_assoc, Nat.add_right_comm] at this
    simpa [Nat.add_assoc, Nat.add_comm] using hfirst.append hrest

/-- A frame opened and its bytes transmitted (R80). -/
theorem Device.Lets.opens {bs : List Byte} (hq : d.quiet (bs.length + 1)) :
    Device.Lets p free d ([.csLow] ++ bs.map .tx) (free.drop bs.length) (d.during (bs.length + 1) bs 0) := by
  have hlow := Device.Lets.csLow (p := p) (free := free) (d := d.during 0 d.frameTx d.frameRx)
  rw [Device.onEvent_csLow (hq.mono (by omega)), Device.during_zero] at hlow
  simpa [Nat.add_comm] using hlow.append (Device.Lets.txs (tx := []) (bs := bs) (hq.mono (by omega)))

/-- A read frame answered by the devices (R70, R82). -/
theorem Device.Lets.readFrame {c : Byte} {rs : List Byte} (hq : d.quiet (rs.length + 3)) (hc : c.msb = true)
    (h : ∀ j (hj : j < rs.length) m b, (∀ x ∈ free[j + 1]?, b = x) → (d.during m [c] j).reply p b = rs[j]) :
    Device.Lets p free d (frameEvents [c] rs) (free.drop (rs.length + 1)) (d.during (rs.length + 3) [] 0) := by
  have hopen := Device.Lets.opens (p := p) (free := free) (d := d) (bs := [c]) (hq.mono (by simp))
  have hrx := Device.Lets.rxs (p := p) (free := free.drop 1) (d := d) (tx := [c]) (k := 2) (i := 0) (rs := rs)
    (hq.mono (by omega)) fun j hj m b hb => by simpa using h j hj m b (by simpa [Nat.add_comm] using hb)
  have hhigh := Device.Lets.csHigh (p := p) (free := (free.drop 1).drop rs.length)
    (d := d.during (2 + rs.length) [c] (0 + rs.length))
  rw [Device.onEvent_csHigh_read (hq.mono (by omega)) hc] at hhigh
  rw [List.drop_drop, Nat.add_comm 1, show 2 + rs.length + 1 = rs.length + 3 by omega] at hhigh
  rw [List.drop_drop, Nat.add_comm 1] at hrx
  simpa [frameEvents] using (hopen.append hrx).append hhigh

/-- A write frame of one byte (R70, R82). -/
theorem Device.Lets.writeFrame {c : Byte} (hq : d.quiet 4) (hc : c.msb = false) (v : Byte) :
    Device.Lets p free d (frameEvents [c, v] []) (free.drop 2)
      { (d.during 4 [c, v] 0).writeByte p (c.setWidth 7).toNat v with frameTx := [], frameRx := 0 } := by
  have hopen := Device.Lets.opens (p := p) (free := free) (d := d) (bs := [c, v]) (hq.mono (by simp))
  have hhigh := Device.Lets.csHigh (p := p) (free := free.drop 2) (d := d.during 3 [c, v] 0)
  rw [Device.onEvent_csHigh_write (hq.mono (by omega)) hc] at hhigh
  simpa [frameEvents] using hopen.append hhigh

/-! ### Register accesses -/

/-- The devices with bank `b` selected, no frame under way. -/
def Device.select (b : Bank) (d : Device) : Device := { d with bank := b, frameTx := [], frameRx := 0 }

@[simp] theorem Device.select_bank (b : Bank) : (d.select b).bank = b := rfl
@[simp] theorem Device.select_regs (b : Bank) : (d.select b).regs = d.regs := rfl
@[simp] theorem Device.select_pending (b : Bank) : (d.select b).pending = d.pending := rfl
@[simp] theorem Device.select_timing (b : Bank) : (d.select b).timing = d.timing := rfl
@[simp] theorem Device.select_sampling (b : Bank) : (d.select b).sampling = d.sampling := rfl

theorem Device.writeByte_select {b : Bank} {v : Byte} (hb : bankOfPayload p v = some b) :
    d.writeByte p p.bankSelReg.toNat v = { d with bank := b } := by
  simp [Device.writeByte, hb]

/-- The bank-select frame (R51, R121). -/
theorem Device.Lets.selects {b : Bank} (hq : d.quiet 4) (hb : bankOfPayload p (p.bankVal.get b) = some b) :
    Device.Lets p free d (selectEvents p b) (free.drop 2) ((d.select b).during 4 [] 0) := by
  have h := Device.Lets.writeFrame (p := p) (free := free) (c := commandByte .write p.bankSelReg) hq
    (commandByte_msb _ _) (p.bankVal.get b)
  rwa [commandByte_addr, Device.writeByte_select hb] at h

/-- The answer of an open read frame at a register that is no bank-select register (R35, R51, R70). -/
theorem Device.reply_during {a : Addr7} {i m : Nat} (hi : a.toNat + i < 128) (hsel : a.toNat + i ≠ p.bankSelReg.toNat)
    (b : Byte) :
    (d.during m [commandByte .read a] i).reply p b =
      if d.sampling ≠ .still ∧ mainSampleReg p d.bank (a.toNat + i) = true then b
      else d.regs.read (mainKey d.bank (a.toNat + i)) := by
  simp [Device.reply, commandByte_msb, commandByte_addr, hi, hsel, Device.sampledHere, Device.readReg]

/-- The bytes `rs` are what a read from register `a` of bank `b` is answered: each is stored there, in a register that no sensor
refreshes, or is the byte the environment gives to that bus step of the access, the first three being those of the bytes sent
(R35, R66). -/
def Device.Answers (p : Params) (free : List Byte) (d : Device) (b : Bank) (a : Nat) (rs : List Byte) : Prop :=
  ∀ k (hk : k < rs.length), a + k < 128 ∧ a + k ≠ p.bankSelReg.toNat ∧
    ((d.storeAnswers p b (a + k) ∧ rs[k] = d.regs.read (mainKey b (a + k))) ∨
      (¬d.storeAnswers p b (a + k) ∧ free[k + 3]? = some rs[k]))

theorem Device.storeAnswers_iff {b : Bank} {a : Nat} :
    d.storeAnswers p b a ↔ ¬(d.sampling ≠ .still ∧ mainSampleReg p b a = true) := by
  rw [Device.storeAnswers, not_and_or, not_not, Bool.not_eq_true]

/-- A register read: bank select, then the read frame (R123, R127). -/
theorem Device.Lets.reads {b : Bank} {a : Addr7} {rs : List Byte} (hq : d.quiet (rs.length + 7))
    (hb : bankOfPayload p (p.bankVal.get b) = some b) (h : d.Answers p free b a.toNat rs) :
    Device.Lets p free d (readEvents p ⟨b, a⟩ rs) (free.drop (rs.length + 3))
      ((d.select b).during (rs.length + 7) [] 0) := by
  have hselect := Device.Lets.selects (free := free) (hq.mono (by omega)) hb
  have hq' : ((d.select b).during 4 [] 0).quiet (rs.length + 3) :=
    Device.quiet.during (d := d.select b) (hq.mono (by omega))
  have hread := Device.Lets.readFrame (p := p) (free := free.drop 2) (c := commandByte .read a) (rs := rs) hq'
    (commandByte_msb _ _) fun j hj m x hx => by
      obtain ⟨hj128, hsel, hj⟩ := h j hj
      rw [Device.during_during, Device.reply_during hj128 hsel, Device.select_sampling, Device.select_bank,
        Device.select_regs]
      rcases hj with ⟨hstore, hj⟩ | ⟨hsample, hj⟩
      · rw [if_neg (Device.storeAnswers_iff.1 hstore), hj]
      · rw [if_pos (by rwa [Device.storeAnswers_iff, not_not] at hsample)]
        exact hx _ (by simpa [Nat.add_comm, Nat.add_left_comm] using hj)
  rw [List.drop_drop, Device.during_during, show 2 + (rs.length + 1) = rs.length + 3 by omega,
    show 4 + (rs.length + 3) = rs.length + 7 by omega] at hread
  exact hselect.append hread

/-- The bytes stored at the addresses `key 0` to `key (n - 1)`. -/
def Device.storedBytes (d : Device) (key : Nat → Nat) (n : Nat) : List Byte := (List.range n).map fun k => d.regs.read (key k)

@[simp] theorem Device.storedBytes_length (key : Nat → Nat) : (d.storedBytes key n).length = n := by
  simp [Device.storedBytes]

@[simp] theorem Device.storedBytes_getElem (key : Nat → Nat) (hk : k < (d.storedBytes key n).length) :
    (d.storedBytes key n)[k] = d.regs.read (key k) := by
  simp [Device.storedBytes]

/-- The stored bytes answer a read of registers that no sensor refreshes. -/
theorem Device.answers_stored {b : Bank} {a n : Nat} (hn : a + n ≤ 128)
    (h : ∀ k, k < n → a + k ≠ p.bankSelReg.toNat ∧ d.storeAnswers p b (a + k)) :
    d.Answers p free b a (d.storedBytes (fun k => mainKey b (a + k)) n) := by
  intro k hk
  have hk' : k < n := by simpa using hk
  exact ⟨by omega, (h k hk').1, .inl ⟨(h k hk').2, by simp⟩⟩

/-- The environment's bytes answer a read of registers that the sensors refresh. -/
theorem Device.answers_sampled {b : Bank} {a : Nat} {rs : List Byte} (ha : a + rs.length ≤ 128) (hs : d.sampling ≠ .still)
    (h : ∀ k, k < rs.length → a + k ≠ p.bankSelReg.toNat ∧ mainSampleReg p b (a + k) = true) :
    d.Answers p (List.replicate 3 0x00#8 ++ rs) b a rs := by
  intro k hk
  refine ⟨by omega, (h k hk).1, .inr ⟨?_, ?_⟩⟩
  · rw [Device.storeAnswers_iff, not_not]
    exact ⟨hs, (h k hk).2⟩
  · rw [List.getElem?_append_right (by simp)]
    simp [hk]

end

/-! ### Reads issued -/

/-- `READ_BYTES` in an environment that lets its events happen (R127). -/
theorem exec_readBytes {s : State} {b : Bank} {a : Addr7} {len : Byte} {rx : List Byte} {e : Env} (hr : s.ready)
    (hlen : len.toNat = rx.length) (hl : legalBurst s.params a.toNat rx.length = true)
    (hrun : s.env.run s.params (readEvents s.params ⟨b, a⟩ rx) = some e) :
    exec (.readBytes (indexByte b) (addrByte a) len) s =
      .next ((s.advance (readEvents s.params ⟨b, a⟩ rx) e).send (okStatus :: rx)) := by
  refine issue_performs ?_ rfl hr hrun
  rw [hlen]
  exact (bankOperand_performs b).bind_nil ((addrOperand_performs a).bind_nil ((burstOperand_performs hl).bind_nil
    (readBytes_performs ⟨b, a⟩ rx)))

/-- `READ_U8` in an environment that lets its events happen (R123). -/
theorem exec_readU8 {s : State} {b : Bank} {a : Addr7} {v : Byte} {e : Env} (hr : s.ready)
    (hrun : s.env.run s.params (readEvents s.params ⟨b, a⟩ [v]) = some e) :
    exec (.readU8 (indexByte b) (addrByte a)) s =
      .next ((s.advance (readEvents s.params ⟨b, a⟩ [v]) e).send [okStatus, v]) := by
  refine issue_performs ?_ rfl hr hrun
  exact (bankOperand_performs b).bind_nil ((addrOperand_performs a).bind_nil
    ((readU8_performs ⟨b, a⟩ v).bind_pure (Performs.pure [v])))

/-- Before idle devices that answer `rx`, `READ_BYTES` completes with `rx` and changes no register. -/
theorem exec_readBytes_device {s : State} {free : List Byte} {count : Nat} {d : Device} {b : Bank} {a : Addr7} {len : Byte}
    {rx : List Byte} (hr : s.ready) (he : s.env = { script := free.map doneAnswer, count := count, device := some d })
    (hidle : d.pending = none) (hb : bankOfPayload s.params (s.params.bankVal.get b) = some b)
    (hlen : len.toNat = rx.length) (hl : legalBurst s.params a.toNat rx.length = true)
    (h : d.Answers s.params free b a.toNat rx) :
    ∃ t d', exec (.readBytes (indexByte b) (addrByte a) len) s = .next t ∧ answeredWith s t (okStatus :: rx) ∧
      t.env.device = some d' ∧ d'.bank = b ∧ d'.regs = d.regs := by
  obtain ⟨e, hrun, -, hd⟩ := Device.Lets.reads (Device.quiet_of_idle hidle _) hb h s.env (by rw [he]) (by rw [he])
  exact ⟨_, _, exec_readBytes hr hlen hl hrun, rfl, hd, rfl, rfl⟩

/-- Before idle devices that answer `v`, `READ_U8` completes with `v` and changes no register. -/
theorem exec_readU8_device {s : State} {free : List Byte} {count : Nat} {d : Device} {b : Bank} {a : Addr7} {v : Byte}
    (hr : s.ready) (he : s.env = { script := free.map doneAnswer, count := count, device := some d })
    (hidle : d.pending = none) (hb : bankOfPayload s.params (s.params.bankVal.get b) = some b)
    (h : d.Answers s.params free b a.toNat [v]) :
    ∃ t d', exec (.readU8 (indexByte b) (addrByte a)) s = .next t ∧ answeredWith s t [okStatus, v] ∧
      t.env.device = some d' ∧ d'.bank = b ∧ d'.regs = d.regs := by
  obtain ⟨e, hrun, -, hd⟩ := Device.Lets.reads (Device.quiet_of_idle hidle _) hb h s.env (by rw [he]) (by rw [he])
  exact ⟨_, _, exec_readU8 hr hrun, rfl, hd, rfl, rfl⟩

/-- Settles O58: the devices answer each register of the two kinds by its own byte, and a read frame writes nothing. -/
theorem deviceAnswersReads : Obligations.DeviceAnswersReads := by
  intro s script count d b a hr he hidle hb
  refine ⟨fun len hscript hl h => ?_, fun hscript hsel hstore => ?_, fun rx hscript hl hs h => ?_,
    fun v hscript hsel hs hsample => ?_⟩ <;> subst hscript
  · obtain ⟨-, hend⟩ := (legalBurst_iff _ _).1 hl
    exact exec_readBytes_device (rx := d.storedBytes _ _) (free := []) hr he hidle hb (by simp) (by simpa using hl)
      (Device.answers_stored hend h)
  · have hread := Device.answers_stored (p := s.params) (d := d) (free := []) (b := b) (a := a.toNat) (n := 1)
      (by have := a.isLt; omega) fun k hk => ?_
    · exact exec_readU8_device (free := []) hr he hidle hb hread
    · obtain rfl : k = 0 := by omega
      exact ⟨by simpa [BitVec.toNat_inj] using hsel, hstore⟩
  · obtain ⟨⟨-, hmax⟩, hend⟩ := (legalBurst_iff _ _).1 hl
    exact exec_readBytes_device hr he hidle hb (by simp; omega) hl
      (Device.answers_sampled hend hs h)
  · have hread := Device.answers_sampled (p := s.params) (d := d) (b := b) (a := a.toNat) (rs := [v])
      (by have := a.isLt; simp; omega) hs fun k hk => ?_
    · exact exec_readU8_device (free := [0x00#8, 0x00#8, 0x00#8, v]) hr he hidle hb hread
    · obtain rfl : k = 0 := by simpa using hk
      exact ⟨by simpa [BitVec.toNat_inj] using hsel, hsample⟩

end Sys2Proof.Machine
end

section
/-! Proofs of `Obligations.DeviceRelaysReads` and `Obligations.DeviceRelaysWrites` (10_state.md R34, 42_bridge_access.md R141,
R145, R150).

A relayed access writes bridge registers (`Device.stored`), triggers, and waits `T_BR2`. In time, the transaction has then taken
effect on what was programmed (`Device.Lets.settles`); late, it is pending through all the events of the access
(`Device.Lets.waits`). -/

namespace Sys2Proof.Machine

/-! ### Programming the bridge -/

/-- The devices after a write of `v` to register `a` of bank 3 that triggers nothing. -/
def Device.stored (a : Addr7) (v : Byte) (d : Device) : Device :=
  { d.select 3 with regs := d.regs.write (mainKey 3 a.toNat) v }

section
variable {p : Params} {free : List Byte} {d : Device} {a : Addr7} {v : Byte} {x : Nat}

@[simp] theorem Device.stored_bank : (d.stored a v).bank = 3 := rfl
@[simp] theorem Device.stored_pending : (d.stored a v).pending = d.pending := rfl
@[simp] theorem Device.stored_timing : (d.stored a v).timing = d.timing := rfl
@[simp] theorem Device.stored_sampling : (d.stored a v).sampling = d.sampling := rfl

theorem Device.stored_wf (h : d.regs.wf) : (d.stored a v).regs.wf := Memory.wf_write h (mainKey_lt a.isLt)

/-- A read after a write to a bridge register. -/
theorem Device.stored_read_self (h : d.regs.wf) : (d.stored a v).regs.read (mainKey 3 a.toNat) = v :=
  Memory.read_write_self _ v h

theorem Device.stored_read_ne (hx : x ≠ mainKey 3 a.toNat) : (d.stored a v).regs.read x = d.regs.read x :=
  Memory.read_write_ne v hx _

theorem mainKey_ne_of_ne {b : Bank} {a a' : Addr7} (h : a ≠ a') : mainKey b a.toNat ≠ mainKey b a'.toNat := by
  rw [Ne, mainKey_inj a.isLt a'.isLt]
  exact fun h' => h (BitVec.eq_of_toNat_eq h'.2)

theorem mainKey_lt_magKey {b : Bank} {a r : Nat} (ha : a < 128) : mainKey b a < magKey r := by
  have := b.isLt
  simp only [mainKey, magKey]
  omega

/-- The devices in a frame that has sent `tx` and received `rx` bytes. -/
def Device.withFrame (tx : List Byte) (rx : Nat) (d : Device) : Device := { d with frameTx := tx, frameRx := rx }

/-- With nothing pending, events of the bus only move the frame. -/
theorem Device.during_of_idle (h : d.pending = none) (k : Nat) (tx : List Byte) (rx : Nat) :
    d.during k tx rx = d.withFrame tx rx := by
  simp [Device.during, Device.withFrame, h]

section frame
variable (tx : List Byte) (rx : Nat)

theorem Device.depositReply_withFrame (r : Byte) (n j : Nat) :
    Device.depositReply p r n j (d.withFrame tx rx) = (Device.depositReply p r n j d).withFrame tx rx := by
  induction n generalizing d j with
  | zero => rfl
  | succ n ih => exact ih (d := d.depositByte p r j) (j + 1)

/-- What a transaction does does not depend on the frame under way. -/
theorem Device.transact_withFrame : (d.withFrame tx rx).transact p = (d.transact p).withFrame tx rx := by
  unfold Device.transact
  dsimp only [Device.withFrame]
  split
  · split
    · exact Device.depositReply_withFrame tx rx _ _ _
    · rfl
  · rfl

theorem Device.settle_withFrame : (d.withFrame tx rx).settle p = (d.settle p).withFrame tx rx := by
  cases h : d.pending with
  | none => simp [Device.settle, Device.withFrame, h]
  | some a =>
    by_cases hw : a.wait = 0
    · have h' : (d.withFrame tx rx).pending = some a := h
      simp only [Device.settle, h, h', hw, if_true, Device.transact_withFrame]
      unfold Device.afterCompletion
      split <;> rfl
    · simp [Device.settle, Device.withFrame, h, hw]

theorem Device.trigger_withFrame : (d.withFrame tx rx).trigger p = (d.trigger p).withFrame tx rx :=
  Device.settle_withFrame (d := { d with pending := some d.timing.next.1, timing := d.timing.next.2 }) tx rx

end frame

/-- A write of a bridge register other than `BR_CTRL_REG` (R70). -/
theorem Device.writeByte_stored (hsel : a ≠ p.bankSelReg) (hctrl : a ≠ p.brCtrlReg) :
    d.writeByte p a.toNat v = { d with regs := d.regs.write (mainKey d.bank a.toNat) v } := by
  have h1 : a.toNat ≠ p.bankSelReg.toNat := fun h => hsel (BitVec.eq_of_toNat_eq h)
  have h2 : a.toNat ≠ p.brCtrlReg.toNat := fun h => hctrl (BitVec.eq_of_toNat_eq h)
  simp [Device.writeByte, h1, h2, a.isLt]

/-- The trigger write (R34, R70). -/
theorem Device.writeByte_trigger (hsel : p.brCtrlReg ≠ p.bankSelReg) (hbank : d.bank = 3)
    (hv : v &&& p.brEnableBit ≠ 0x00#8) :
    d.writeByte p p.brCtrlReg.toNat v =
      { d with regs := d.regs.write (mainKey 3 p.brCtrlReg.toNat) v }.trigger p := by
  have h1 : p.brCtrlReg.toNat ≠ p.bankSelReg.toNat := fun h => hsel (BitVec.eq_of_toNat_eq h)
  simp [Device.writeByte, h1, hbank, hv, p.brCtrlReg.isLt]

/-- A write frame of one byte to bank 3, with nothing pending, up to what the byte does (R125). -/
theorem Device.Lets.writes (hidle : d.pending = none) (hb : bankOfPayload p (p.bankVal.get 3) = some 3) :
    Device.Lets p free d (writeEvents p ⟨3, a⟩ [v]) (free.drop 4)
      ((((d.select 3).withFrame [commandByte .write a, v] 0).writeByte p a.toNat v).withFrame [] 0) := by
  have hselect := Device.Lets.selects (free := free) (Device.quiet_of_idle hidle 4) hb
  rw [Device.during_of_idle (d := d.select 3) hidle] at hselect
  have hwrite := Device.Lets.writeFrame (p := p) (free := free.drop 2) (d := d.select 3) (c := commandByte .write a)
    (Device.quiet_of_idle hidle 4) (commandByte_msb _ _) v
  rw [commandByte_addr, Device.during_of_idle (d := d.select 3) hidle, List.drop_drop] at hwrite
  exact hselect.append hwrite

/-- A write of a bridge register other than `BR_CTRL_REG`. -/
theorem Device.Lets.stores (hidle : d.pending = none) (hb : bankOfPayload p (p.bankVal.get 3) = some 3)
    (hsel : a ≠ p.bankSelReg) (hctrl : a ≠ p.brCtrlReg) :
    Device.Lets p free d (writeEvents p ⟨3, a⟩ [v]) (free.drop 4) (d.stored a v) := by
  have h := Device.Lets.writes (free := free) (a := a) (v := v) hidle hb
  rwa [Device.writeByte_stored hsel hctrl] at h

/-- The write that triggers the bridge (R34). -/
theorem Device.Lets.triggers (hidle : d.pending = none) (hb : bankOfPayload p (p.bankVal.get 3) = some 3)
    (hsel : p.brCtrlReg ≠ p.bankSelReg) (hv : v &&& p.brEnableBit ≠ 0x00#8) :
    Device.Lets p free d (writeEvents p ⟨3, p.brCtrlReg⟩ [v]) (free.drop 4) ((d.stored p.brCtrlReg v).trigger p) := by
  have h := Device.Lets.writes (free := free) (a := p.brCtrlReg) (v := v) hidle hb
  rw [Device.writeByte_trigger hsel rfl hv, ← Device.trigger_withFrame] at h
  exact h

/-- The devices with the triggered transaction in flight (R34). -/
def Device.inFlight (d : Device) : Device := { d with pending := some d.timing.next.1, timing := d.timing.next.2 }

/-- The devices with the triggered transaction completed (R34). -/
def Device.completed (p : Params) (d : Device) : Device :=
  { d.transact p with pending := none, timing := d.timing.next.2 }

/-- A transaction that waits is in flight after its trigger. -/
theorem Device.Lets.waits (hidle : d.pending = none) (hb : bankOfPayload p (p.bankVal.get 3) = some 3)
    (hsel : p.brCtrlReg ≠ p.bankSelReg) (hv : v &&& p.brEnableBit ≠ 0x00#8) (hwait : d.timing.next.1.wait ≠ 0) :
    Device.Lets p free d (writeEvents p ⟨3, p.brCtrlReg⟩ [v]) (free.drop 4) (d.stored p.brCtrlReg v).inFlight := by
  have h := Device.Lets.triggers (free := free) hidle hb hsel hv
  rwa [Device.trigger_waits p (d.stored p.brCtrlReg v) hwait] at h

/-- A delay with nothing pending. -/
theorem Device.Lets.idles (hidle : d.pending = none) (ms : Nat) :
    Device.Lets p free d (Machine.delayEvents ms) free d := by
  have h := Device.Lets.delayEvents (p := p) (free := free) (Device.quiet_of_idle hidle 1) ms
  rwa [Device.during_of_idle hidle] at h

/-- A transaction that completes within `T_BR2` has taken effect when that wait is over, on what was programmed (R150). -/
theorem Device.Lets.settles (hidle : d.pending = none) (hb : bankOfPayload p (p.bankVal.get 3) = some 3)
    (hsel : p.brCtrlReg ≠ p.bankSelReg) (hv : v &&& p.brEnableBit ≠ 0x00#8) (h : settlesInTime p d) :
    Device.Lets p free d (writeEvents p ⟨3, p.brCtrlReg⟩ [v] ++ Machine.delayEvents p.tBr2) (free.drop 4)
      ((d.stored p.brCtrlReg v).completed p) := by
  obtain ⟨hrepeats, hwait | ⟨hwait, hdelay⟩⟩ := h
  · have hanswer : (d.stored p.brCtrlReg v).timing.next.1 = { wait := 0, repeats := false } := by
      rw [← hrepeats, ← hwait]
      rfl
    have htrigger := Device.Lets.triggers (free := free) hidle hb hsel hv
    rw [Device.trigger_at_once p _ hanswer] at htrigger
    exact htrigger.append (Device.Lets.idles rfl _)
  · have hanswer : (d.stored p.brCtrlReg v).inFlight.pending = some { wait := 1, repeats := false } := by
      rw [← hrepeats, ← hwait]
      rfl
    have htrigger := Device.Lets.waits (free := free) hidle hb hsel hv (by omega)
    have hsettle := Device.Lets.delay (p := p) (free := free.drop 4) (d := (d.stored p.brCtrlReg v).inFlight) p.tBr2
    rw [Device.onEvent, Device.tick_completes p _ hanswer, Device.inFlight, Device.transact_setPending] at hsettle
    rw [Machine.delayEvents, if_neg hdelay]
    exact htrigger.append hsettle

/-! ### The relay window (R70) -/

/-- A relay deposit changes no register but those of its window bytes. -/
theorem Device.depositReply_read_ne {r : Byte} {n j : Nat}
    (hx : ∀ k, k < n → x ≠ mainKey 0 (p.relayReg.toNat + (j + k))) :
    (Device.depositReply p r n j d).regs.read x = d.regs.read x := by
  induction n generalizing d j with
  | zero => rfl
  | succ n ih =>
    rw [Device.depositReply, ih fun k hk => by simpa [Nat.add_assoc, Nat.add_comm 1] using hx (k + 1) (by omega)]
    simp only [Device.depositByte]
    split
    · exact Memory.read_write_ne _ (hx 0 (by omega)) _
    · rfl

/-- The first byte of a deposit is the byte the bridge finds at the register. -/
theorem Device.depositReply_read_first {r : Byte} {n j : Nat} (hwf : d.regs.wf) (hj : p.relayReg.toNat + j < 128) :
    (Device.depositReply p r (n + 1) j d).regs.read (mainKey 0 (p.relayReg.toNat + j)) =
      (d.followerByte p (r + BitVec.ofNat 8 j)).1 := by
  rw [Device.depositReply, Device.depositReply_read_ne fun k _ => by simp only [mainKey]; omega]
  simp only [Device.depositByte, if_pos hj]
  exact Memory.read_write_self _ _ hwf

theorem Device.depositByte_wf {r : Byte} {j : Nat} (h : d.regs.wf) : (d.depositByte p r j).regs.wf :=
  Device.depositReply_wf r 1 j h

/-- A deposit byte leaves the magnetometer's registers alone. -/
theorem Device.depositByte_read_magKey {r : Byte} {j y : Nat} :
    (d.depositByte p r j).regs.read (magKey y) = d.regs.read (magKey y) := by
  simp only [Device.depositByte]
  split
  · next h => exact Memory.read_write_ne _ (mainKey_lt_magKey h).ne' _
  · rfl

/-- Registers that no sensor refreshes are relayed as they are stored, and no sample is taken (R35, R150). -/
theorem Device.depositReply_stored {r : Byte} {n j : Nat} (hwf : d.regs.wf) (hwin : p.relayReg.toNat + (j + n) ≤ 128)
    (h : ∀ k, k < n → d.sampling = .still ∨ magSampleReg p (r + BitVec.ofNat 8 (j + k)) = false) :
    (Device.depositReply p r n j d).sampling = d.sampling ∧
      ∀ k, k < n → (Device.depositReply p r n j d).regs.read (mainKey 0 (p.relayReg.toNat + (j + k))) =
        d.regs.read (magKey (r + BitVec.ofNat 8 (j + k)).toNat) := by
  induction n generalizing d j with
  | zero => exact ⟨rfl, by simp⟩
  | succ n ih =>
    have hfound := Device.followerByte_stored p d (h 0 (by omega))
    have hsampling : (d.depositByte p r j).sampling = d.sampling := by
      simp only [Device.depositByte]
      exact congrArg Prod.snd hfound
    have ⟨hs, hregs⟩ := ih (d := d.depositByte p r j) (j := j + 1) (Device.depositByte_wf hwf) (by omega)
      fun k hk => by
        rw [hsampling, Nat.add_assoc, Nat.add_comm 1]
        exact h (k + 1) (by omega)
    refine ⟨hs.trans hsampling, fun k hk => ?_⟩
    cases k with
    | zero => exact (Device.depositReply_read_first hwf (by omega)).trans (congrArg Prod.fst hfound)
    | succ k =>
      have := hregs k (by omega)
      rwa [Device.depositByte_read_magKey, Nat.add_assoc, Nat.add_comm 1] at this

/-- Registers that the sensor refreshes are relayed as the samples come, whatever is stored there (R35). -/
theorem Device.depositReply_sampled {r : Byte} {bytes coming : List Byte} {taken j : Nat} (hwf : d.regs.wf)
    (hwin : p.relayReg.toNat + (j + bytes.length) ≤ 128) (hs : d.sampling = .moving (bytes ++ coming) taken)
    (h : ∀ k, k < bytes.length → magSampleReg p (r + BitVec.ofNat 8 (j + k)) = true) :
    (Device.depositReply p r bytes.length j d).sampling = .moving coming (taken + bytes.length) ∧
      ∀ k (hk : k < bytes.length),
        (Device.depositReply p r bytes.length j d).regs.read (mainKey 0 (p.relayReg.toNat + (j + k))) = bytes[k] := by
  induction bytes generalizing d j taken with
  | nil => exact ⟨hs, by simp⟩
  | cons b bytes ih =>
    simp only [List.length_cons] at hwin h ⊢
    have hfound := Device.followerByte_sampled p d hs (h 0 (by omega))
    have hsampling : (d.depositByte p r j).sampling = .moving (bytes ++ coming) (taken + 1) := by
      simp only [Device.depositByte]
      exact congrArg Prod.snd hfound
    have ⟨hs', hregs⟩ := ih (d := d.depositByte p r j) (j := j + 1) (Device.depositByte_wf hwf) (by omega) hsampling
      fun k hk => by
        rw [Nat.add_assoc, Nat.add_comm 1]
        exact h (k + 1) (by omega)
    refine ⟨hs'.trans (by rw [Nat.add_assoc, Nat.add_comm 1]), fun k hk => ?_⟩
    cases k with
    | zero => exact (Device.depositReply_read_first hwf (by omega)).trans (congrArg Prod.fst hfound)
    | succ k =>
      have := hregs k (by omega)
      rwa [Nat.add_assoc, Nat.add_comm 1] at this

/-! ### The transaction programmed by a relayed access -/

/-- What a relayed read programs before it triggers (R141). -/
def Device.readSetup (p : Params) (f : Addr7) (r : Byte) (d : Device) : Device :=
  (d.stored p.brAddrReg (p.brReadBit ||| f.setWidth 8)).stored p.brRegReg r

/-- What a relayed write programs before it triggers (R145). -/
def Device.writeSetup (p : Params) (f : Addr7) (r v : Byte) (d : Device) : Device :=
  ((d.stored p.brAddrReg (f.setWidth 8)).stored p.brRegReg r).stored p.brDoReg v

/-- The bridge registers as a relayed read of `n` bytes leaves them. -/
def Device.readProgram (p : Params) (f : Addr7) (r : Byte) (n : Nat) (d : Device) : Device :=
  (d.readSetup p f r).stored p.brCtrlReg (p.brEnableBit ||| BitVec.ofNat 8 n)

/-- The bridge registers as a relayed write leaves them. -/
def Device.writeProgram (p : Params) (f : Addr7) (r v : Byte) (d : Device) : Device :=
  (d.writeSetup p f r v).stored p.brCtrlReg (p.brEnableBit ||| 0x01#8)

/-- The bridge registers and the bank-select register are different registers. -/
structure BridgeDistinct (p : Params) : Prop where
  addr_sel : p.brAddrReg ≠ p.bankSelReg
  reg_sel : p.brRegReg ≠ p.bankSelReg
  do_sel : p.brDoReg ≠ p.bankSelReg
  ctrl_sel : p.brCtrlReg ≠ p.bankSelReg
  addr_reg : p.brAddrReg ≠ p.brRegReg
  addr_do : p.brAddrReg ≠ p.brDoReg
  addr_ctrl : p.brAddrReg ≠ p.brCtrlReg
  reg_do : p.brRegReg ≠ p.brDoReg
  reg_ctrl : p.brRegReg ≠ p.brCtrlReg
  do_ctrl : p.brDoReg ≠ p.brCtrlReg

theorem bridgeLayout.distinct (h : bridgeLayout p) : BridgeDistinct p := by
  obtain ⟨hnodup, -⟩ := h
  simp only [List.nodup_cons, List.mem_cons, List.not_mem_nil, or_false, not_or, not_false_eq_true, List.nodup_nil,
    and_true] at hnodup
  obtain ⟨⟨h1, h2, h3, h4⟩, ⟨h5, h6, h7⟩, ⟨h8, h9⟩, h10⟩ := hnodup
  exact ⟨Ne.symm h1, Ne.symm h2, Ne.symm h3, Ne.symm h4, h5, h6, h7, h8, h9, h10⟩

/-- The enable bit is set in every control byte (R87). -/
theorem enable_controlByte (h : bridgeLayout p) (b : Byte) : (p.brEnableBit ||| b) &&& p.brEnableBit ≠ 0x00#8 := by
  have ⟨_, hen, _⟩ := h
  rw [hen]
  revert b
  decide

/-- The count in a control byte (R87). -/
theorem controlByte_count {n : Nat} (hn : n ≤ 127) : ((0x80#8 ||| BitVec.ofNat 8 n) &&& 0x7F#8).toNat = n := by
  have hbyte : ∀ b : Byte, b.toNat ≤ 127 → ((0x80#8 ||| b) &&& 0x7F#8).toNat = b.toNat := by decide
  have hnat : (BitVec.ofNat 8 n).toNat = n := by
    rw [BitVec.toNat_ofNat]
    omega
  rw [hbyte _ (by omega), hnat]

theorem Device.readSetup_wf {f : Addr7} {r : Byte} (h : d.regs.wf) : (d.readSetup p f r).regs.wf :=
  Device.stored_wf (Device.stored_wf h)

theorem Device.readProgram_wf {f : Addr7} {r : Byte} {n : Nat} (h : d.regs.wf) : (d.readProgram p f r n).regs.wf :=
  Device.stored_wf (Device.readSetup_wf h)

theorem Device.writeProgram_wf {f : Addr7} {r : Byte} (h : d.regs.wf) : (d.writeProgram p f r v).regs.wf :=
  Device.stored_wf (Device.stored_wf (Device.stored_wf (Device.stored_wf h)))

/-- A relayed read programs three registers and no other. -/
theorem Device.readProgram_read_ne {f : Addr7} {r : Byte} {n : Nat} (haddr : x ≠ mainKey 3 p.brAddrReg.toNat)
    (hreg : x ≠ mainKey 3 p.brRegReg.toNat) (hctrl : x ≠ mainKey 3 p.brCtrlReg.toNat) :
    (d.readProgram p f r n).regs.read x = d.regs.read x := by
  rw [Device.readProgram, Device.stored_read_ne hctrl, Device.readSetup, Device.stored_read_ne hreg,
    Device.stored_read_ne haddr]

/-- A relayed read leaves the magnetometer's registers alone. -/
theorem Device.readProgram_read_magKey {f : Addr7} {r : Byte} {n y : Nat} :
    (d.readProgram p f r n).regs.read (magKey y) = d.regs.read (magKey y) :=
  Device.readProgram_read_ne (mainKey_lt_magKey p.brAddrReg.isLt).ne' (mainKey_lt_magKey p.brRegReg.isLt).ne'
    (mainKey_lt_magKey p.brCtrlReg.isLt).ne'

/-- A relayed write programs four registers and no other. -/
theorem Device.writeProgram_read_ne {f : Addr7} {r : Byte} (haddr : x ≠ mainKey 3 p.brAddrReg.toNat)
    (hreg : x ≠ mainKey 3 p.brRegReg.toNat) (hdo : x ≠ mainKey 3 p.brDoReg.toNat)
    (hctrl : x ≠ mainKey 3 p.brCtrlReg.toNat) :
    (d.writeProgram p f r v).regs.read x = d.regs.read x := by
  rw [Device.writeProgram, Device.stored_read_ne hctrl, Device.writeSetup, Device.stored_read_ne hdo,
    Device.stored_read_ne hreg, Device.stored_read_ne haddr]

/-- The devices once the transaction of a relayed read of `n` bytes has filled the relay window. -/
def Device.relayed (p : Params) (r : Byte) (n : Nat) (d : Device) : Device :=
  Device.depositReply p r n 0 (d.readProgram p p.magAddr r n)

/-- The transaction a relayed read programs deposits the magnetometer's reply in the relay window (R70, R150 b). -/
theorem Device.transact_readProgram {r : Byte} {n : Nat} (hl : bridgeLayout p) (hwf : d.regs.wf) (hn : n ≤ 127) :
    (d.readProgram p p.magAddr r n).transact p = d.relayed p r n := by
  have ⟨_, hen, hrd, _⟩ := hl
  have hne := hl.distinct
  have haddr : (d.readProgram p p.magAddr r n).regs.read (mainKey 3 p.brAddrReg.toNat) = commandByte .read p.magAddr := by
    rw [Device.readProgram, Device.stored_read_ne (mainKey_ne_of_ne hne.addr_ctrl), Device.readSetup,
      Device.stored_read_ne (mainKey_ne_of_ne hne.addr_reg), Device.stored_read_self hwf, hrd]
    rfl
  have hreg : (d.readProgram p p.magAddr r n).regs.read (mainKey 3 p.brRegReg.toNat) = r := by
    rw [Device.readProgram, Device.stored_read_ne (mainKey_ne_of_ne hne.reg_ctrl), Device.readSetup,
      Device.stored_read_self (Device.stored_wf hwf)]
  have hctrl : (d.readProgram p p.magAddr r n).regs.read (mainKey 3 p.brCtrlReg.toNat) = 0x80#8 ||| BitVec.ofNat 8 n := by
    rw [Device.readProgram, Device.stored_read_self (Device.readSetup_wf hwf), hen]
  have hbit : commandByte .read p.magAddr &&& 0x80#8 ≠ 0x00#8 := by
    generalize p.magAddr = f
    revert f
    decide
  rw [Device.transact, haddr, hreg, hctrl, commandByte_addr, hrd, controlByte_count hn, if_pos rfl, if_pos hbit,
    Device.relayed]

/-- A relayed read changes the registers it programs and its window (R141). -/
theorem Device.relayed_kept (r : Byte) (n : Nat) : keptByRelayedRead p n d (d.relayed p r n) := by
  intro x haddr hreg hctrl hx
  rw [Device.relayed, Device.depositReply_read_ne fun k hk => by simpa using hx k hk,
    Device.readProgram_read_ne haddr hreg hctrl]

/-- Registers that no sensor refreshes are relayed as they are stored (R35, R150). -/
theorem Device.relayed_stored {r : Byte} {n : Nat} (hwf : d.regs.wf) (hwin : p.relayReg.toNat + n ≤ 128)
    (h : ∀ k, k < n → d.sampling = .still ∨ magSampleReg p (r + BitVec.ofNat 8 k) = false) :
    (d.relayed p r n).sampling = d.sampling ∧
      ∀ k, k < n → (d.relayed p r n).regs.read (mainKey 0 (p.relayReg.toNat + k)) =
        d.regs.read (magKey ((r.toNat + k) % 256)) := by
  have ⟨hsampling, hbytes⟩ := Device.depositReply_stored (p := p) (r := r) (n := n) (j := 0)
    (d := d.readProgram p p.magAddr r n) (Device.readProgram_wf hwf) (by omega) fun k hk => by
      rw [Nat.zero_add]
      exact h k hk
  refine ⟨hsampling, fun k hk => ?_⟩
  have hbyte := hbytes k hk
  rw [Nat.zero_add, Device.readProgram_read_magKey] at hbyte
  simpa [Device.relayed] using hbyte

/-- Registers that the sensor refreshes are relayed as the samples come (R35). -/
theorem Device.relayed_sampled {r : Byte} {bytes coming : List Byte} {taken : Nat} (hwf : d.regs.wf)
    (hwin : p.relayReg.toNat + bytes.length ≤ 128) (hs : d.sampling = .moving (bytes ++ coming) taken)
    (h : ∀ k, k < bytes.length → magSampleReg p (r + BitVec.ofNat 8 k) = true) :
    (d.relayed p r bytes.length).sampling = .moving coming (taken + bytes.length) ∧
      ∀ k (hk : k < bytes.length),
        (d.relayed p r bytes.length).regs.read (mainKey 0 (p.relayReg.toNat + k)) = bytes[k] := by
  simpa [Device.relayed] using Device.depositReply_sampled (p := p) (r := r) (j := 0)
    (d := d.readProgram p p.magAddr r bytes.length) (Device.readProgram_wf hwf) (by omega) hs fun k hk => by
      rw [Nat.zero_add]
      exact h k hk

/-- Until its transaction takes effect, what a relayed read programs leaves the window answering what it held. -/
theorem Device.answers_readProgram {f : Addr7} {r : Byte} {m n : Nat} (hend : p.relayReg.toNat + n ≤ 128)
    (hwin : ∀ k, k < n → p.relayReg.toNat + k ≠ p.bankSelReg.toNat ∧ d.storeAnswers p 0 (p.relayReg.toNat + k)) :
    (d.readProgram p f r m).Answers p [] 0 p.relayReg.toNat
      (d.storedBytes (fun k => mainKey 0 (p.relayReg.toNat + k)) n) := by
  intro k hk
  rw [Device.storedBytes_length] at hk
  have hbank (a : Addr7) : mainKey 0 (p.relayReg.toNat + k) ≠ mainKey 3 a.toNat := fun h =>
    absurd ((mainKey_inj (by omega) a.isLt).1 h).1 (by decide)
  have ⟨hsel, hstore⟩ := hwin k hk
  refine ⟨by omega, hsel, .inl ⟨hstore, ?_⟩⟩
  rw [Device.storedBytes_getElem, Device.readProgram_read_ne (hbank _) (hbank _) (hbank _)]

/-- The transaction a relayed write programs stores the byte in the magnetometer (R70, R150 c). -/
theorem Device.transact_writeProgram {r : Byte} (hl : bridgeLayout p) (hwf : d.regs.wf) :
    (d.writeProgram p p.magAddr r v).transact p =
      { d.writeProgram p p.magAddr r v with
        regs := (d.writeProgram p p.magAddr r v).regs.write (magKey r.toNat) v } := by
  have ⟨_, _, hrd, _⟩ := hl
  have hne := hl.distinct
  have haddr : (d.writeProgram p p.magAddr r v).regs.read (mainKey 3 p.brAddrReg.toNat) = commandByte .write p.magAddr := by
    rw [Device.writeProgram, Device.stored_read_ne (mainKey_ne_of_ne hne.addr_ctrl), Device.writeSetup,
      Device.stored_read_ne (mainKey_ne_of_ne hne.addr_do), Device.stored_read_ne (mainKey_ne_of_ne hne.addr_reg),
      Device.stored_read_self hwf]
    rfl
  have hreg : (d.writeProgram p p.magAddr r v).regs.read (mainKey 3 p.brRegReg.toNat) = r := by
    rw [Device.writeProgram, Device.stored_read_ne (mainKey_ne_of_ne hne.reg_ctrl), Device.writeSetup,
      Device.stored_read_ne (mainKey_ne_of_ne hne.reg_do), Device.stored_read_self (Device.stored_wf hwf)]
  have hdo : (d.writeProgram p p.magAddr r v).regs.read (mainKey 3 p.brDoReg.toNat) = v := by
    rw [Device.writeProgram, Device.stored_read_ne (mainKey_ne_of_ne hne.do_ctrl), Device.writeSetup,
      Device.stored_read_self (Device.stored_wf (Device.stored_wf hwf))]
  have hbit : ¬commandByte .write p.magAddr &&& 0x80#8 ≠ 0x00#8 := by
    generalize p.magAddr = f
    revert f
    decide
  rw [Device.transact, haddr, hreg, hdo, commandByte_addr, hrd, if_pos rfl, if_neg hbit]

/-! ### The events of a relayed access -/

/-- The events of a relayed read up to its trigger (R141). -/
theorem Device.Lets.readSetup {f : Addr7} {r : Byte} (hidle : d.pending = none) (hl : bridgeLayout p) :
    Device.Lets p [] d
      (writeEvents p ⟨3, p.brAddrReg⟩ [p.brReadBit ||| f.setWidth 8] ++ writeEvents p ⟨3, p.brRegReg⟩ [r] ++
        Machine.delayEvents p.tBr1) [] (d.readSetup p f r) := by
  have ⟨_, _, _, _, hbank⟩ := hl
  have hne := hl.distinct
  exact ((Device.Lets.stores (free := []) (d := d) hidle hbank hne.addr_sel hne.addr_ctrl).append
    (Device.Lets.stores (free := []) (d := d.stored _ _) hidle hbank hne.reg_sel hne.reg_ctrl)).append
      (Device.Lets.idles (d := d.readSetup p f r) hidle _)

/-- The events of a relayed write up to its trigger (R145). -/
theorem Device.Lets.writeSetup {f : Addr7} {r : Byte} (hidle : d.pending = none) (hl : bridgeLayout p) :
    Device.Lets p [] d
      (writeEvents p ⟨3, p.brAddrReg⟩ [f.setWidth 8] ++ writeEvents p ⟨3, p.brRegReg⟩ [r] ++
        writeEvents p ⟨3, p.brDoReg⟩ [v] ++ Machine.delayEvents p.tBr1) [] (d.writeSetup p f r v) := by
  have ⟨_, _, _, _, hbank⟩ := hl
  have hne := hl.distinct
  exact (((Device.Lets.stores (free := []) (d := d) hidle hbank hne.addr_sel hne.addr_ctrl).append
    (Device.Lets.stores (free := []) (d := d.stored _ _) hidle hbank hne.reg_sel hne.reg_ctrl)).append
      (Device.Lets.stores (free := []) (d := (d.stored _ _).stored _ _) hidle hbank hne.do_sel hne.do_ctrl)).append
        (Device.Lets.idles (d := d.writeSetup p f r v) hidle _)

/-- A relayed read whose transaction completes within `T_BR2`: the window is read after the deposit (R150 b). -/
theorem Device.Lets.relayedRead {r : Byte} {rx : List Byte} (hidle : d.pending = none) (hl : bridgeLayout p)
    (h : settlesInTime p d)
    (hrx : ((d.readProgram p p.magAddr r rx.length).completed p).Answers p [] 0 p.relayReg.toNat rx) :
    Device.Lets p [] d (bridgeReadEvents p p.magAddr r rx) []
      ((((d.readProgram p p.magAddr r rx.length).completed p).select 0).during (rx.length + 7) [] 0) := by
  have ⟨_, _, _, hbank0, hbank3⟩ := hl
  have hsetup := Device.Lets.readSetup (f := p.magAddr) (r := r) hidle hl
  have hsettle := Device.Lets.settles (free := []) (d := d.readSetup p p.magAddr r) hidle hbank3 hl.distinct.ctrl_sel
    (enable_controlByte hl (BitVec.ofNat 8 rx.length)) h
  have hread := Device.Lets.reads (free := [])
    (d := (d.readProgram p p.magAddr r rx.length).completed p) (Device.quiet_of_idle rfl _) hbank0 hrx
  have h := (hsetup.append hsettle).append hread
  rw [← List.append_assoc] at h
  exact h

/-- A relayed read whose transaction is still in flight after the read-back: the window is read as it was (R34). -/
theorem Device.Lets.staleRead {r : Byte} {rx : List Byte} (hidle : d.pending = none) (hl : bridgeLayout p)
    (hwait : rx.length + 9 ≤ d.timing.next.1.wait)
    (hrx : (d.readProgram p p.magAddr r rx.length).Answers p [] 0 p.relayReg.toNat rx) :
    ∃ k, Device.Lets p [] d (bridgeReadEvents p p.magAddr r rx) []
      (((d.readProgram p p.magAddr r rx.length).inFlight.select 0).during k [] 0) := by
  have ⟨_, _, _, hbank0, hbank3⟩ := hl
  have hsetup := Device.Lets.readSetup (f := p.magAddr) (r := r) hidle hl
  have htrigger := Device.Lets.waits (free := []) (d := d.readSetup p p.magAddr r) hidle hbank3 hl.distinct.ctrl_sel
    (enable_controlByte hl (BitVec.ofNat 8 rx.length)) (show d.timing.next.1.wait ≠ 0 by omega)
  have hquiet : (d.readProgram p p.magAddr r rx.length).inFlight.quiet (rx.length + 8) := by
    rintro a ⟨⟩
    show rx.length + 8 < d.timing.next.1.wait
    omega
  have hdelay := Device.Lets.delayEvents (p := p) (free := []) (hquiet.mono (k := 1) (by omega)) p.tBr2
  have hshort : (Machine.delayEvents p.tBr2).length ≤ 1 := by
    unfold Machine.delayEvents
    split <;> simp
  have hread := Device.Lets.reads (free := []) (a := p.relayReg) (rs := rx)
    (Device.quiet.during (tx := []) (rx := 0) (hquiet.mono (k := (Machine.delayEvents p.tBr2).length + (rx.length + 7))
      (by omega))) hbank0 hrx
  refine ⟨(Machine.delayEvents p.tBr2).length + (rx.length + 7), ?_⟩
  rw [← Device.during_during (tx := []) (rx := 0)]
  exact ((hsetup.append htrigger).append hdelay).append hread

/-- A relayed write whose transaction completes within `T_BR2` (R150 c). -/
theorem Device.Lets.relayedWrite {r : Byte} (hidle : d.pending = none) (hl : bridgeLayout p) (h : settlesInTime p d) :
    Device.Lets p [] d (bridgeWriteEvents p p.magAddr r v) [] ((d.writeProgram p p.magAddr r v).completed p) := by
  have ⟨_, _, _, _, hbank⟩ := hl
  have hsetup := Device.Lets.writeSetup (f := p.magAddr) (r := r) (v := v) hidle hl
  have hsettle := Device.Lets.settles (free := []) (d := d.writeSetup p p.magAddr r v) hidle hbank hl.distinct.ctrl_sel
    (enable_controlByte hl 0x01#8) h
  have h := hsetup.append hsettle
  rw [← List.append_assoc] at h
  exact h

/-- A relayed write whose transaction is still in flight when the operation returns (R34, R146). -/
theorem Device.Lets.lateWrite {r : Byte} (hidle : d.pending = none) (hl : bridgeLayout p)
    (hwait : 2 ≤ d.timing.next.1.wait) :
    Device.Lets p [] d (bridgeWriteEvents p p.magAddr r v) []
      ((d.writeProgram p p.magAddr r v).inFlight.during (Machine.delayEvents p.tBr2).length [] 0) := by
  have ⟨_, _, _, _, hbank⟩ := hl
  have hsetup := Device.Lets.writeSetup (f := p.magAddr) (r := r) (v := v) hidle hl
  have htrigger := Device.Lets.waits (free := []) (d := d.writeSetup p p.magAddr r v) hidle hbank hl.distinct.ctrl_sel
    (enable_controlByte hl 0x01#8) (show d.timing.next.1.wait ≠ 0 by omega)
  have hquiet : (d.writeProgram p p.magAddr r v).inFlight.quiet 1 := by
    rintro a ⟨⟩
    exact hwait
  have hdelay := Device.Lets.delayEvents (p := p) (free := []) hquiet p.tBr2
  exact (hsetup.append htrigger).append hdelay

end

/-! ### Relayed accesses issued -/

/-- `BRIDGE_READ` before devices that let its events happen (R141). -/
theorem exec_bridgeRead_device {s : State} {count : Nat} {d d' : Device} {f : Addr7} {r len : Byte} {rx : List Byte}
    (hr : s.ready) (he : s.env = { script := [], count := count, device := some d })
    (hl : legalBurst s.params s.params.relayReg.toNat len.toNat = true) (hlen : rx.length = len.toNat)
    (h : Device.Lets s.params [] d (bridgeReadEvents s.params f r rx) [] d') :
    ∃ t, exec (.bridgeRead (addrByte f) r len) s = .next t ∧ answeredWith s t (okStatus :: rx) ∧
      t.env.device = some d' := by
  obtain ⟨e, hrun, -, hd⟩ := h s.env (by rw [he]; rfl) (by rw [he])
  refine ⟨_, issue_performs (p := s.params) (payload := rx) ?_ rfl hr hrun, rfl, hd⟩
  refine (addrOperand_performs f).bind_nil (Performs.parameters.bind_nil ((burstOperand_performs hl).bind_nil ?_))
  rw [← hlen]
  exact bridgeRead_performs f r rx

/-- `BRIDGE_WRITE` before devices that let its events happen (R145). -/
theorem exec_bridgeWrite_device {s : State} {count : Nat} {d d' : Device} {f : Addr7} {r v : Byte} (hr : s.ready)
    (he : s.env = { script := [], count := count, device := some d })
    (h : Device.Lets s.params [] d (bridgeWriteEvents s.params f r v) [] d') :
    ∃ t, exec (.bridgeWrite (addrByte f) r v) s = .next t ∧ answeredWith s t [okStatus] ∧ t.env.device = some d' := by
  obtain ⟨e, hrun, -, hd⟩ := h s.env (by rw [he]; rfl) (by rw [he])
  refine ⟨_, issue_performs (p := s.params) (payload := []) ?_ rfl hr hrun, rfl, hd⟩
  exact (addrOperand_performs f).bind_nil ((bridgeWrite_performs f r v).bind_pure (Performs.pure []))

/-- A burst within well-formed parameters has a length the control byte can hold (I19, R87). -/
theorem maxBurst_le {p : Params} (h : p.wf = true) : p.maxBurst ≤ 127 := by
  simp only [Params.wf, Bool.and_eq_true, decide_eq_true_eq] at h
  tauto

/-- Settles O60: in time the programmed transaction has stored the byte, late it is still in flight. -/
theorem deviceRelaysWrites : Obligations.DeviceRelaysWrites := by
  intro s count d r v hr he hwf hidle hl
  refine ⟨fun hsettle => ?_, fun hwait => ?_⟩
  · obtain ⟨t, hexec, hans, hd⟩ :=
      exec_bridgeWrite_device hr he (Device.Lets.relayedWrite (r := r) (v := v) hidle hl hsettle)
    have hregs : ((d.writeProgram s.params s.params.magAddr r v).completed s.params).regs =
        (d.writeProgram s.params s.params.magAddr r v).regs.write (magKey r.toNat) v := by
      rw [Device.completed, Device.transact_writeProgram hl hwf]
    refine ⟨t, _, hexec, hans, hd, rfl, ?_, fun x haddr hreg hdo hctrl hmag => ?_⟩
    · rw [hregs]
      exact Memory.read_write_self _ _ (Device.writeProgram_wf hwf)
    · rw [hregs, Memory.read_write_ne _ hmag]
      exact Device.writeProgram_read_ne haddr hreg hdo hctrl
  · obtain ⟨t, hexec, hans, hd⟩ :=
      exec_bridgeWrite_device hr he (Device.Lets.lateWrite (r := r) (v := v) hidle hl hwait)
    exact ⟨t, _, hexec, hans, hd, by simp [Device.inFlight], fun x haddr hreg hdo hctrl =>
      Device.writeProgram_read_ne haddr hreg hdo hctrl⟩

/-- `BRIDGE_READ` whose transaction completes in time answers the bytes the window was filled with (R141, R150 b). -/
theorem exec_bridgeRead_inTime {s : State} {count : Nat} {d : Device} {r len : Byte} {rx : List Byte} {after : Sampling}
    (hr : s.ready) (he : s.env = { script := [], count := count, device := some d }) (hwf : d.regs.wf)
    (hidle : d.pending = none) (hl : bridgeLayout s.params)
    (hburst : legalBurst s.params s.params.relayReg.toNat len.toNat = true) (hsettle : settlesInTime s.params d)
    (hlen : rx.length = len.toNat) (hafter : (d.relayed s.params r rx.length).sampling = after)
    (hrx : ∀ k (hk : k < rx.length),
      (d.relayed s.params r rx.length).regs.read (mainKey 0 (s.params.relayReg.toNat + k)) = rx[k])
    (hwin : ∀ k, k < rx.length → s.params.relayReg.toNat + k ≠ s.params.bankSelReg.toNat ∧
      (after = .still ∨ mainSampleReg s.params 0 (s.params.relayReg.toNat + k) = false)) :
    ∃ t d', exec (.bridgeRead (addrByte s.params.magAddr) r len) s = .next t ∧ answeredWith s t (okStatus :: rx) ∧
      t.env.device = some d' ∧ d'.pending = none ∧ d'.sampling = after ∧ keptByRelayedRead s.params len.toNat d d' := by
  obtain ⟨⟨-, hmax⟩, hend⟩ := (legalBurst_iff _ _).1 hburst
  have hn : rx.length ≤ 127 := by
    have := maxBurst_le hr.2
    omega
  have hdone := Device.transact_readProgram (r := r) hl hwf hn
  have hanswers : ((d.readProgram s.params s.params.magAddr r rx.length).completed s.params).Answers s.params [] 0
      s.params.relayReg.toNat rx := fun k hk => by
    have ⟨hsel, hstore⟩ := hwin k hk
    refine ⟨by omega, hsel, .inl ⟨?_, ?_⟩⟩
    · rw [Device.storeAnswers, Device.completed, hdone, hafter]
      exact hstore
    · rw [Device.completed, hdone]
      exact (hrx k hk).symm
  obtain ⟨t, hexec, hans, hd⟩ :=
    exec_bridgeRead_device hr he hburst hlen (Device.Lets.relayedRead hidle hl hsettle hanswers)
  rw [Device.completed, hdone] at hd
  exact ⟨t, _, hexec, hans, hd, rfl, hafter, hlen ▸ Device.relayed_kept r rx.length⟩

/-- Settles O59: in time the window holds the stored bytes or the samples that came, late it holds what it held before. -/
theorem deviceRelaysReads : Obligations.DeviceRelaysReads := by
  intro s count d r len hr he hwf hidle hl hburst hwin
  obtain ⟨-, hend⟩ := (legalBurst_iff _ _).1 hburst
  refine ⟨fun hsettle hstored => ?_, fun bytes coming taken hsettle hs hlen hsampled => ?_, fun hwait => ?_⟩
  · have ⟨hsampling, hbytes⟩ := Device.relayed_stored hwf hend hstored
    exact exec_bridgeRead_inTime (rx := d.storedBytes (fun k => magKey ((r.toNat + k) % 256)) len.toNat) hr he hwf hidle hl
      hburst hsettle (by simp) (by simpa using hsampling) (fun k hk => by simpa using hbytes k (by simpa using hk))
      (fun k hk => hwin k (by simpa using hk))
  · have ⟨hsampling, hbytes⟩ := Device.relayed_sampled (r := r) hwf (by omega) hs (fun k hk => hsampled k (by omega))
    refine exec_bridgeRead_inTime hr he hwf hidle hl hburst hsettle hlen (hsampling.trans (by rw [hlen])) hbytes
      fun k hk => ?_
    have ⟨hsel, hstore⟩ := hwin k (by omega)
    exact ⟨hsel, .inr (hstore.resolve_left (by rw [hs]; simp))⟩
  · obtain ⟨m, hlets⟩ := Device.Lets.staleRead (r := r) hidle hl (by simpa using hwait)
      (Device.answers_readProgram hend hwin)
    obtain ⟨t, hexec, hans, hd⟩ := exec_bridgeRead_device hr he hburst (by simp) hlets
    exact ⟨t, _, hexec, hans, hd, by simp [Device.inFlight], rfl, fun x haddr hreg hctrl _ =>
      Device.readProgram_read_ne haddr hreg hctrl⟩

end Sys2Proof.Machine
end

section
/-! Proof of `Obligations.ByteOrders` (20_memory.md R53, R54, R55).

Two bytes joined are the number with the first as its high byte; every assembled value is one of these, signed or not, and a pair
written is its two halves. -/

namespace Sys2Proof.Machine

/-- Two bytes joined: the first is the high byte. -/
theorem toNat_append_bytes (high low : Byte) : (high ++ low).toNat = 256 * high.toNat + low.toNat := by
  rw [BitVec.toNat_append, ← Nat.shiftLeft_add_eq_or_of_lt low.isLt, Nat.shiftLeft_eq]
  omega

/-- A 16-bit pattern as a signed number. -/
theorem toInt_eq_signed16 (v : BitVec 16) : v.toInt = signed16 v.toNat := by
  rw [BitVec.toInt_eq_toNat_cond, signed16]
  split <;> split <;> omega

/-- A sample is the signed value of its two bytes (R53). -/
theorem s16_eq_signed16 (high low : Byte) : s16 high low = signed16 (256 * high.toNat + low.toNat) := by
  rw [s16, toInt_eq_signed16, toNat_append_bytes]

/-- The pattern of a sample is its two bytes again. -/
theorem u16_s16 (high low : Byte) : u16 (s16 high low) = high ++ low := BitVec.ofInt_toInt

theorem highByte_toNat (v : BitVec 16) : (highByte v).toNat = v.toNat / 256 := by
  rw [highByte, BitVec.extractLsb'_toNat, Nat.shiftRight_eq_div_pow]
  omega

theorem lowByte_toNat (v : BitVec 16) : (lowByte v).toNat = v.toNat % 256 := BitVec.extractLsb'_toNat ..

/-- Main-device samples, high byte first (R53). -/
theorem axisBig_bytes (d0 d1 d2 d3 d4 d5 : Byte) :
    axisBig [d0, d1, d2, d3, d4, d5] =
      { x := signed16 (256 * d0.toNat + d1.toNat)
        y := signed16 (256 * d2.toNat + d3.toNat)
        z := signed16 (256 * d4.toNat + d5.toNat) } := by
  simp only [axisBig, byteAt, List.getD_cons_zero, List.getD_cons_succ, s16_eq_signed16]

/-- Magnetometer samples, low byte first (R54). -/
theorem axisLittle_bytes (d0 d1 d2 d3 d4 d5 : Byte) :
    axisLittle [d0, d1, d2, d3, d4, d5] =
      { x := signed16 (d0.toNat + 256 * d1.toNat)
        y := signed16 (d2.toNat + 256 * d3.toNat)
        z := signed16 (d4.toNat + 256 * d5.toNat) } := by
  simp only [axisLittle, byteAt, List.getD_cons_zero, List.getD_cons_succ, s16_eq_signed16, Nat.add_comm]

/-- An offset pair as it is written, high byte first (R55). -/
theorem bigEndianPair_toNat (v : BitVec 16) : (bigEndianPair v).map BitVec.toNat = [v.toNat / 256, v.toNat % 256] := by
  rw [bigEndianPair, List.map_cons, List.map_singleton, highByte_toNat, lowByte_toNat]

/-- Samples that sum to zero leave the offset as its pair was read, high byte first (R55). -/
theorem accelOffset_zero (p : Params) (high low : Byte) : accelOffset p [high, low] 0 = high ++ low := by
  have hshift : tdiv (sampleAverage p 0) p.accelCalDiv = 0 := by simp [tdiv, sampleAverage]
  rw [accelOffset, hshift, Int.sub_zero]
  exact u16_s16 high low

/-- Settles O39: each value is assembled from its two bytes in the order of its rule, and a written pair is taken apart in that
order. -/
theorem byteOrders : Obligations.ByteOrders :=
  ⟨fun d0 d1 d2 d3 d4 d5 => ⟨axisBig_bytes d0 d1 d2 d3 d4 d5, axisLittle_bytes d0 d1 d2 d3 d4 d5⟩, bigEndianPair_toNat,
    fun p high low => by rw [accelOffset_zero, toNat_append_bytes]⟩

end Sys2Proof.Machine
end

section
/-! Proofs of `Obligations.DeviceStoresByte` and `Obligations.DeviceStoresBytes` (20_memory.md R51, R58, R70).

Before idle devices a write frame of plain registers changes the store alone, at ascending addresses (`Memory.writeFrom`), and
`WRITE_U8` is the case of one byte. -/

namespace Sys2Proof.Machine

/-! ### Ascending writes (R58) -/

/-- The memory with the bytes written from an address on. -/
def Memory.writeFrom : Memory → Nat → List Byte → Memory
  | m, _, [] => m
  | m, a, v :: vs => Memory.writeFrom (m.write a v) (a + 1) vs

/-- Writing ascending bytes leaves the addresses outside alone. -/
theorem Memory.read_writeFrom_ne {x a : Nat} {vs : List Byte} (m : Memory) (hx : ∀ k, k < vs.length → x ≠ a + k) :
    (m.writeFrom a vs).read x = m.read x := by
  induction vs generalizing m a with
  | nil => rfl
  | cons v vs ih =>
    calc ((m.write a v).writeFrom (a + 1) vs).read x
      _ = (m.write a v).read x := ih _ fun k hk => by
        have := hx (k + 1) (by simpa using hk)
        omega
      _ = m.read x := Memory.read_write_ne v (hx 0 (by simp)) m

/-- Each of the ascending bytes is read where it was written. -/
theorem Memory.read_writeFrom {m : Memory} {a : Nat} {vs : List Byte} (hwf : m.wf) (ha : a + vs.length ≤ Memory.size)
    (k : Nat) (hk : k < vs.length) : (m.writeFrom a vs).read (a + k) = vs[k] := by
  induction vs generalizing m a k with
  | nil => simp at hk
  | cons v vs ih =>
    simp only [List.length_cons] at ha hk
    cases k with
    | zero =>
      calc ((m.write a v).writeFrom (a + 1) vs).read a
        _ = (m.write a v).read a := Memory.read_writeFrom_ne _ fun k _ => by omega
        _ = v := Memory.read_write_self a v hwf
    | succ k =>
      have := ih (m := m.write a v) (a := a + 1) (Memory.wf_write hwf (by omega)) (by omega) k (by omega)
      rwa [Nat.add_assoc, Nat.add_comm 1] at this

/-- Ascending registers of a bank have ascending keys (R50). -/
theorem mainKey_add (b : Bank) (a k : Nat) : mainKey b (a + k) = mainKey b a + k := (Nat.add_assoc ..).symm

theorem mainKey_add_le_size {b : Bank} {a n : Nat} (h : a + n ≤ 128) : mainKey b a + n ≤ Memory.size := by
  have := b.isLt
  simp only [mainKey, Memory.size]
  omega

/-! ### Write frames before idle devices -/

/-- Register `a` of bank `b` is one where a written byte is stored and nothing else happens: it exists, selects no bank and
triggers no bridge transaction (R31, R34, R70). -/
def plainReg (p : Params) (b : Bank) (a : Nat) : Prop :=
  a < 128 ∧ a ≠ p.bankSelReg.toNat ∧ (b = 3 → a ≠ p.brCtrlReg.toNat)

section
variable {p : Params} {free : List Byte} {d : Device}

/-- A byte written to a plain register is stored in the current bank (R51, R70). -/
theorem Device.writeByte_plain {a : Nat} (h : plainReg p d.bank a) (v : Byte) :
    d.writeByte p a v = { d with regs := d.regs.write (mainKey d.bank a) v } := by
  obtain ⟨hlt, hsel, hctrl⟩ := h
  have hquiet : ¬(d.bank = 3 ∧ a = p.brCtrlReg.toNat ∧ v &&& p.brEnableBit ≠ 0x00#8) := fun ⟨hbank, ha, _⟩ => hctrl hbank ha
  rw [Device.writeByte, if_neg hsel, if_pos hlt]
  exact if_neg hquiet

/-- Bytes written to plain registers are stored at ascending addresses (R58, R70). -/
theorem Device.writeBytes_plain {a : Nat} {vs : List Byte} (h : ∀ k, k < vs.length → plainReg p d.bank (a + k)) :
    d.writeBytes p a vs = { d with regs := d.regs.writeFrom (mainKey d.bank a) vs } := by
  induction vs generalizing d a with
  | nil => rfl
  | cons v vs ih =>
    have hfirst : plainReg p d.bank a := h 0 (by simp)
    rw [Device.writeBytes, Device.writeByte_plain hfirst, ih fun k hk => ?_]
    · rfl
    · simpa [Nat.add_assoc, Nat.add_comm 1] using h (k + 1) (by simpa using hk)

/-- A write frame with nothing pending, up to what its bytes do (R70, R82). -/
theorem Device.Lets.writeBurst {c : Byte} (hidle : d.pending = none) (hc : c.msb = false) (data : List Byte) :
    Device.Lets p free d (frameEvents (c :: data) []) (free.drop (data.length + 1))
      (((d.withFrame (c :: data) 0).writeBytes p (c.setWidth 7).toNat data).withFrame [] 0) := by
  have hopen := Device.Lets.opens (p := p) (free := free) (bs := c :: data) (Device.quiet_of_idle hidle _)
  rw [Device.during_of_idle hidle] at hopen
  have hclose : (d.withFrame (c :: data) 0).onEvent p .csHigh =
      ((d.withFrame (c :: data) 0).writeBytes p (c.setWidth 7).toNat data).withFrame [] 0 := by
    rw [Device.onEvent, Device.tick_of_idle p (d.withFrame (c :: data) 0) hidle]
    simp [Device.frameEvent, Device.closeFrame, Device.withFrame, hc]
  have hhigh := Device.Lets.csHigh (p := p) (free := free.drop (data.length + 1)) (d := d.withFrame (c :: data) 0)
  rw [hclose] at hhigh
  simpa [frameEvents] using hopen.append hhigh

/-- The devices with bank `b` selected and the bytes stored from its register `a` on. -/
def Device.storedFrom (b : Bank) (a : Nat) (data : List Byte) (d : Device) : Device :=
  { d.select b with regs := d.regs.writeFrom (mainKey b a) data }

/-- A register write to plain registers: bank select, then the write frame (R125, R129). -/
theorem Device.Lets.storesFrom {b : Bank} {a : Addr7} {data : List Byte} (hidle : d.pending = none)
    (hb : bankOfPayload p (p.bankVal.get b) = some b) (h : ∀ k, k < data.length → plainReg p b (a.toNat + k)) :
    Device.Lets p free d (writeEvents p ⟨b, a⟩ data) (free.drop (data.length + 3)) (d.storedFrom b a.toNat data) := by
  have hselect := Device.Lets.selects (free := free) (Device.quiet_of_idle hidle 4) hb
  rw [Device.during_of_idle (d := d.select b) hidle] at hselect
  have hwrite := Device.Lets.writeBurst (p := p) (free := free.drop 2) (d := d.select b) (c := commandByte .write a) hidle
    (commandByte_msb _ _) data
  rw [commandByte_addr, Device.writeBytes_plain h, List.drop_drop, Nat.add_comm 2] at hwrite
  exact hselect.append hwrite

/-- After a register write each byte is read at its own register (R51, R58). -/
theorem Device.storedFrom_read {b : Bank} {a : Nat} {data : List Byte} (hwf : d.regs.wf) (ha : a + data.length ≤ 128) (k : Nat)
    (hk : k < data.length) : (d.storedFrom b a data).regs.read (mainKey b (a + k)) = data[k] := by
  rw [mainKey_add]
  exact Memory.read_writeFrom hwf (mainKey_add_le_size ha) k hk

/-- A register write leaves every other register of both spaces alone. -/
theorem Device.storedFrom_read_ne {b : Bank} {a x : Nat} {data : List Byte}
    (hx : ∀ k, k < data.length → x ≠ mainKey b (a + k)) : (d.storedFrom b a data).regs.read x = d.regs.read x :=
  Memory.read_writeFrom_ne _ fun k hk => by
    rw [← mainKey_add]
    exact hx k hk

end

/-! ### Writes issued -/

/-- `WRITE_U8` in an environment that lets its events happen (R125). -/
theorem exec_writeU8 {s : State} {b : Bank} {a : Addr7} {v : Byte} {e : Env} (hr : s.ready)
    (hrun : s.env.run s.params (writeEvents s.params ⟨b, a⟩ [v]) = some e) :
    exec (.writeU8 (indexByte b) (addrByte a) v) s =
      .next ((s.advance (writeEvents s.params ⟨b, a⟩ [v]) e).send [okStatus]) := by
  refine issue_performs (payload := []) ?_ rfl hr hrun
  exact (bankOperand_performs b).bind_nil ((addrOperand_performs a).bind_nil
    ((writeU8_performs ⟨b, a⟩ v).bind_pure (Performs.pure [])))

/-- `WRITE_BYTES` in an environment that lets its events happen (R129). -/
theorem exec_writeBytes {s : State} {b : Bank} {a : Addr7} {data : List Byte} {e : Env} (hr : s.ready)
    (hl : legalBurst s.params a.toNat data.length = true)
    (hrun : s.env.run s.params (writeEvents s.params ⟨b, a⟩ data) = some e) :
    exec (.writeBytes (indexByte b) (addrByte a) data) s =
      .next ((s.advance (writeEvents s.params ⟨b, a⟩ data) e).send [okStatus]) := by
  refine issue_performs (payload := []) ?_ rfl hr hrun
  exact (bankOperand_performs b).bind_nil ((addrOperand_performs a).bind_nil ((burstOperand_performs hl).bind_nil
    ((writeBytes_performs ⟨b, a⟩ data).bind_pure (Performs.pure []))))

/-- Settles O56: the frame of one byte stores it at its register. -/
theorem deviceStoresByte : Obligations.DeviceStoresByte := by
  intro s count d b a v hr he hwf hidle hb hsel hctrl
  have hplain : ∀ k, k < [v].length → plainReg s.params b (a.toNat + k) := fun k hk => by
    obtain rfl : k = 0 := by simpa using hk
    exact ⟨a.isLt, by simpa [BitVec.toNat_inj] using hsel, by simpa [BitVec.toNat_inj] using hctrl⟩
  obtain ⟨e, hrun, -, hd⟩ := Device.Lets.storesFrom (free := []) hidle hb hplain s.env (by rw [he]; rfl) (by rw [he])
  refine ⟨_, _, exec_writeU8 hr hrun, rfl, hd, rfl, ?_, fun x hx => Device.storedFrom_read_ne fun k hk => ?_⟩
  · exact Device.storedFrom_read hwf a.isLt 0 (by simp)
  · obtain rfl : k = 0 := by simpa using hk
    exact hx

/-- Settles O57: the frame stores its bytes at ascending registers, and the burst ends within the bank. -/
theorem deviceStoresBytes : Obligations.DeviceStoresBytes := by
  intro s count d b a data hr he hwf hidle hb hl h
  obtain ⟨-, hend⟩ := (legalBurst_iff _ _).1 hl
  have hplain : ∀ k, k < data.length → plainReg s.params b (a.toNat + k) := fun k hk => ⟨by omega, h k hk⟩
  obtain ⟨e, hrun, -, hd⟩ := Device.Lets.storesFrom (free := []) hidle hb hplain s.env (by rw [he]; rfl) (by rw [he])
  exact ⟨_, _, exec_writeBytes hr hl hrun, rfl, hd, rfl, Device.storedFrom_read hwf hend,
    fun x hx => Device.storedFrom_read_ne hx⟩

end Sys2Proof.Machine
end

section
/-! Proofs of the statements about encodings, `Obligations.DecodeEncodeRoundTrip`, `EncodeDecodeRoundTrip`,
`PacketsAreCutByTheirLength`, `DecodeKnownWords`, `CommandByteFields` and `BridgeBytes` (30_encoding.md R81 to R101).

Two facts carry them: `decodePacket_reads` says once what the decoder may answer at the command port, and `decodeFrame_eq_instr`
says which frames decode, and to what. -/

namespace Sys2Proof

/-! ### Command packets -/

open Machine (hostOpcodes)

/-- What the decoder may answer for the bytes at the command port: an instruction, whose encoding stands at the front and has the
length R94 and R95 give it; an opcode byte outside the table; or nothing while the packet is short. -/
inductive Reads (bytes : List Byte) : PacketDecode → Prop where
  | instr {i : Instr} {packet rest : List Byte} (encoding : encode i = .packet packet) (cut : bytes = packet ++ rest)
    (length : packetLength bytes = packet.length) : Reads bytes (.instr i rest)
  | illegalOpcode {opcode : Byte} {rest : List Byte} (cut : bytes = opcode :: rest) (unknown : opcode.toNat ∉ hostOpcodes) :
    Reads bytes (.illegalOpcode opcode rest)
  | incomplete (short : bytes.length < packetLength bytes) : Reads bytes .incomplete

/-- The twenty opcode bytes of R94, as bytes. -/
theorem eq_of_mem_hostOpcodes {opcode : Byte} (h : opcode.toNat ∈ hostOpcodes) :
    opcode ∈ [0x01#8, 0x10#8, 0x11#8, 0x12#8, 0x13#8, 0x14#8, 0x20#8, 0x21#8, 0x30#8, 0x31#8, 0x40#8, 0x41#8, 0x50#8, 0x51#8,
      0x52#8, 0x53#8, 0x54#8, 0x55#8, 0x56#8, 0x60#8] := by
  revert opcode
  decide

/-- The packet of an unknown opcode is that byte alone (R95, R99). -/
theorem packetLength_unknown {opcode : Byte} (h : opcode.toNat ∉ hostOpcodes) (rest : List Byte) :
    packetLength (opcode :: rest) = 1 := by
  simp only [packetLength, List.getD_cons_zero]
  split <;> simp_all [hostOpcodes]

theorem decodePacket_unknown {opcode : Byte} (h : opcode.toNat ∉ hostOpcodes) (rest : List Byte) :
    decodePacket (opcode :: rest) = .illegalOpcode opcode rest := by
  simp only [decodePacket]
  split <;> simp_all [hostOpcodes]

section
variable {opcode : Byte} {rest : List Byte}

theorem reads_operands0 {i : Instr} (he : encode i = .packet [opcode]) (hl : packetLength (opcode :: rest) = 1) :
    Reads (opcode :: rest) (.instr i rest) := .instr he rfl hl

theorem reads_operands1 {k : Byte → Instr} (he : ∀ a, encode (k a) = .packet [opcode, a])
    (hl : packetLength (opcode :: rest) = 2) : Reads (opcode :: rest) (operands1 k rest) := by
  match rest with
  | [] => exact .incomplete (by simp [hl])
  | a :: _ => exact .instr (he a) rfl hl

theorem reads_operands2 {k : Byte → Byte → Instr} (he : ∀ a b, encode (k a b) = .packet [opcode, a, b])
    (hl : packetLength (opcode :: rest) = 3) : Reads (opcode :: rest) (operands2 k rest) := by
  match rest with
  | [] | [_] => exact .incomplete (by simp [hl])
  | a :: b :: _ => exact .instr (he a b) rfl hl

theorem reads_operands3 {k : Byte → Byte → Byte → Instr} (he : ∀ a b c, encode (k a b c) = .packet [opcode, a, b, c])
    (hl : packetLength (opcode :: rest) = 4) : Reads (opcode :: rest) (operands3 k rest) := by
  match rest with
  | [] | [_] | [_, _] => exact .incomplete (by simp [hl])
  | a :: b :: c :: _ => exact .instr (he a b c) rfl hl

/-- A byte is the length byte of the bytes it counts. -/
theorem lengthByte_eq {bs : List Byte} {n : Byte} (h : bs.length = n.toNat) : lengthByte bs = n := by
  rw [lengthByte, h, BitVec.ofNat_toNat, BitVec.setWidth_eq]

theorem reads_operandsXfer (rest : List Byte) : Reads (0x01#8 :: rest) (operandsXfer rest) := by
  match rest with
  | [] => exact .incomplete (by decide)
  | [_] => exact .incomplete (by simp [packetLength]; omega)
  | ntx :: m :: rest =>
    have hl : packetLength (0x01#8 :: ntx :: m :: rest) = 3 + ntx.toNat := rfl
    simp only [operandsXfer]
    split
    case h_1 tx rest' h =>
      obtain ⟨rfl, hn⟩ := splitBytes_eq_some.1 h
      exact .instr (by rw [encode, lengthByte_eq hn]) rfl (by rw [hl, ← hn]; simp; omega)
    case h_2 h =>
      have hshort := splitBytes_eq_none.1 h
      exact .incomplete (by rw [hl]; simp; omega)

theorem reads_operandsWriteBytes (rest : List Byte) : Reads (0x14#8 :: rest) (operandsWriteBytes rest) := by
  match rest with
  | [] | [_] => exact .incomplete (by simp [packetLength])
  | [_, _] => exact .incomplete (by simp [packetLength])
  | bank :: reg :: len :: rest =>
    have hl : packetLength (0x14#8 :: bank :: reg :: len :: rest) = 4 + len.toNat := rfl
    simp only [operandsWriteBytes]
    split
    case h_1 data rest' h =>
      obtain ⟨rfl, hn⟩ := splitBytes_eq_some.1 h
      exact .instr (by rw [encode, lengthByte_eq hn]) rfl (by rw [hl, ← hn]; simp; omega)
    case h_2 h =>
      have hshort := splitBytes_eq_none.1 h
      exact .incomplete (by rw [hl]; simp; omega)

end

/-- What the decoder answers, opcode by opcode (R94, R95, R99). -/
theorem decodePacket_reads (bytes : List Byte) : Reads bytes (decodePacket bytes) := by
  match bytes with
  | [] => exact .incomplete (by decide)
  | opcode :: rest =>
    by_cases hmem : opcode.toNat ∈ hostOpcodes
    · have hop := eq_of_mem_hostOpcodes hmem
      simp only [List.mem_cons, List.not_mem_nil, or_false] at hop
      rcases hop with rfl | rfl | rfl | rfl | rfl | rfl | rfl | rfl | rfl | rfl | rfl | rfl | rfl | rfl | rfl | rfl | rfl |
        rfl | rfl | rfl
      · exact reads_operandsXfer rest
      · exact reads_operands1 (k := .selectBank) (fun _ => rfl) rfl
      · exact reads_operands2 (k := .readU8) (fun _ _ => rfl) rfl
      · exact reads_operands3 (k := .writeU8) (fun _ _ _ => rfl) rfl
      · exact reads_operands3 (k := .readBytes) (fun _ _ _ => rfl) rfl
      · exact reads_operandsWriteBytes rest
      · exact reads_operands3 (k := .bridgeRead) (fun _ _ _ => rfl) rfl
      · exact reads_operands3 (k := .bridgeWrite) (fun _ _ _ => rfl) rfl
      · exact reads_operands0 (i := .initMain) rfl rfl
      · exact reads_operands0 (i := .initBridgeDevice) rfl rfl
      · exact reads_operands0 (i := .calGyro) rfl rfl
      · exact reads_operands0 (i := .calAccel) rfl rfl
      · exact reads_operands1 (k := .selectGyroRange) (fun _ => rfl) rfl
      · exact reads_operands1 (k := .selectAccelRange) (fun _ => rfl) rfl
      · exact reads_operands0 (i := .readGyroRaw) rfl rfl
      · exact reads_operands0 (i := .readAccelRaw) rfl rfl
      · exact reads_operands0 (i := .readGyroScaled) rfl rfl
      · exact reads_operands0 (i := .readAccelScaled) rfl rfl
      · exact reads_operands0 (i := .readMagScaled) rfl rfl
      · exact reads_operands0 (i := .readSnapshot) rfl rfl
    · rw [decodePacket_unknown hmem]
      exact .illegalOpcode rfl hmem

theorem decodePacket_eq_instr {bytes rest : List Byte} {i : Instr} (h : decodePacket bytes = .instr i rest) :
    ∃ packet, encode i = .packet packet ∧ bytes = packet ++ rest ∧ packetLength bytes = packet.length := by
  have hreads := decodePacket_reads bytes
  rw [h] at hreads
  cases hreads with
  | instr he hcut hl => exact ⟨_, he, hcut, hl⟩

theorem decodePacket_eq_incomplete_iff (bytes : List Byte) :
    decodePacket bytes = .incomplete ↔ bytes.length < packetLength bytes := by
  have hreads := decodePacket_reads bytes
  generalize decodePacket bytes = d at hreads
  cases hreads with
  | instr he hcut hl =>
    rw [hl, hcut]
    simp
  | illegalOpcode hcut hunknown => simp [hcut, packetLength_unknown hunknown]
  | incomplete hshort => simpa using hshort

theorem decodePacket_eq_illegalOpcode_iff {bytes rest : List Byte} {opcode : Byte} :
    decodePacket bytes = .illegalOpcode opcode rest ↔ bytes = opcode :: rest ∧ opcode.toNat ∉ hostOpcodes := by
  constructor
  · intro h
    have hreads := decodePacket_reads bytes
    rw [h] at hreads
    cases hreads with
    | illegalOpcode hcut hunknown => exact ⟨hcut, hunknown⟩
  · rintro ⟨rfl, hunknown⟩
    exact decodePacket_unknown hunknown rest

/-- A packet decodes to an instruction when the decoder reads one and no byte is left over. -/
theorem decode_packet_iff {bytes : List Byte} {i : Instr} :
    decode (.packet bytes) = some i ↔ decodePacket bytes = .instr i [] := by
  simp only [decode]
  split <;> simp_all

theorem isFrameForm_of_packet {i : Instr} {packet : List Byte} (h : encode i = .packet packet) : i.isFrameForm = false := by
  cases i with
  | frameRead a m => cases h
  | frameWrite a payload => cases h
  | _ => rfl

/-- The decoder reads back the bytes an `XFER` packet carries (R95). -/
theorem decode_xfer {tx : List Byte} (h : tx.length ≤ 255) (m : Byte) :
    decode (.packet (0x01#8 :: lengthByte tx :: m :: tx)) = some (.xfer tx m) := by
  have hsplit : splitBytes (lengthByte tx).toNat tx = some (tx, []) :=
    splitBytes_eq_some.2 ⟨(List.append_nil tx).symm, (lengthByte_toNat h).symm⟩
  exact decode_packet_iff.2 (by simp [decodePacket, operandsXfer, hsplit])

/-- The decoder reads back the bytes a `WRITE_BYTES` packet carries (R95). -/
theorem decode_writeBytes {data : List Byte} (h : data.length ≤ 255) (bank reg : Byte) :
    decode (.packet (0x14#8 :: bank :: reg :: lengthByte data :: data)) = some (.writeBytes bank reg data) := by
  have hsplit : splitBytes (lengthByte data).toNat data = some (data, []) :=
    splitBytes_eq_some.2 ⟨(List.append_nil data).symm, (lengthByte_toNat h).symm⟩
  exact decode_packet_iff.2 (by simp [decodePacket, operandsWriteBytes, hsplit])

/-! ### Bus frames -/

/-- The two forms of R82, with what they decode to. -/
inductive IsFrameForm : List Byte → Nat → Instr → Prop where
  | read (a : Addr7) {m : Nat} (h : 1 ≤ m) : IsFrameForm [commandByte .read a] m (.frameRead a m)
  | write (a : Addr7) {payload : List Byte} (h : 1 ≤ payload.length) :
    IsFrameForm (commandByte .write a :: payload) 0 (.frameWrite a payload)

/-- A byte is the command byte of its bits 6:0 in the direction of its bit 7 (R81). -/
theorem eq_commandByte (c : Byte) : c = commandByte (if c.msb then .read else .write) (c.setWidth 7) := by
  revert c
  decide

/-- Exactly the frames of R82 decode, each to its own instruction. -/
theorem decodeFrame_eq_instr_iff {tx : List Byte} {m : Nat} {i : Instr} :
    decodeFrame tx m = .instr i ↔ IsFrameForm tx m i := by
  constructor
  · intro h
    match tx with
    | [] => cases h
    | c :: payload =>
      have hc := eq_commandByte c
      simp only [decodeFrame] at h
      split at h
      case isTrue hread =>
        rw [if_pos hread] at hc
        split at h
        · cases h
        · rename_i hpayload
          obtain rfl : payload = [] := by simpa using hpayload
          split at h <;> cases h
          rw [hc, commandByte_addr]
          exact .read _ (by omega)
      case isFalse hwrite =>
        rw [if_neg hwrite] at hc
        split at h
        · cases h
        · rename_i hm
          obtain rfl : m = 0 := by simpa using hm
          split at h <;> cases h
          rw [hc, commandByte_addr]
          exact .write _ (by omega)
  · rintro (⟨a, h⟩ | ⟨a, h⟩)
    · have hm : m ≠ 0 := by omega
      simp [decodeFrame, commandByte_msb, commandByte_addr, hm]
    · simp [decodeFrame, commandByte_msb, commandByte_addr, List.length_pos_iff.1 h]

theorem decode_frame_iff {tx : List Byte} {m : Nat} {i : Instr} : decode (.frame tx m) = some i ↔ IsFrameForm tx m i := by
  rw [← decodeFrame_eq_instr_iff]
  simp only [decode]
  split <;> simp_all

theorem IsFrameForm.encode {tx : List Byte} {m : Nat} {i : Instr} (h : IsFrameForm tx m i) :
    i.isFrameForm = true ∧ (∀ p, i.wellFormed p = true) ∧ encode i = .frame tx m := by
  cases h with
  | read a h => exact ⟨rfl, fun _ => decide_eq_true h, rfl⟩
  | write a h => exact ⟨rfl, fun _ => decide_eq_true h, rfl⟩

/-! ### Bytes with a flag in bit 7 -/

/-- Bit 7 over seven further bits adds 128 (R81, R86, R87). -/
theorem flag_or_toNat (a : Addr7) : (0x80#8 ||| a.setWidth 8).toNat = 128 + a.toNat := by
  revert a
  decide

theorem setWidth_eight_toNat (a : Addr7) : (a.setWidth 8).toNat = a.toNat :=
  BitVec.toNat_setWidth_of_le (by decide)

/-- A count of at most 127 fits in bits 6:0. -/
theorem ofNat_eq_setWidth {n : Nat} (h : n ≤ 127) : BitVec.ofNat 8 n = (BitVec.ofNat 7 n).setWidth 8 := by
  apply BitVec.eq_of_toNat_eq
  rw [setWidth_eight_toNat, BitVec.toNat_ofNat, BitVec.toNat_ofNat]
  omega

/-! ### The statements -/

/-- Settles O1: each instruction's words, read back by the branch of the decoder they were written for. -/
theorem decodeEncodeRoundTrip : Obligations.DecodeEncodeRoundTrip := by
  intro p i hwf
  cases i with
  | xfer tx m =>
    simp only [Instr.wellFormed, Bool.and_eq_true, decide_eq_true_eq] at hwf
    exact decode_xfer hwf.2 m
  | writeBytes bank reg data =>
    simp only [Instr.wellFormed, legalBurst, Bool.and_eq_true, decide_eq_true_eq] at hwf
    exact decode_writeBytes (by omega) bank reg
  | frameRead a m => exact decode_frame_iff.2 (.read a (of_decide_eq_true hwf))
  | frameWrite a payload => exact decode_frame_iff.2 (.write a (of_decide_eq_true hwf))
  | _ => rfl

/-- Settles O3: the packet read is an encoding of the length the opcode gives, and it stands at the front. -/
theorem packetsAreCutByTheirLength : Obligations.PacketsAreCutByTheirLength := by
  refine ⟨fun bytes i rest h => ?_, decodePacket_eq_incomplete_iff, fun _ _ _ => decodePacket_eq_illegalOpcode_iff⟩
  obtain ⟨packet, he, rfl, hl⟩ := decodePacket_eq_instr h
  simp [hl, he]

/-- Settles O2: a packet read to its last byte is the encoding at its front, and only the two frame forms decode as frames. -/
theorem encodeDecodeRoundTrip : Obligations.EncodeDecodeRoundTrip := by
  refine ⟨fun bytes i h => ?_, fun tx m i h => (decode_frame_iff.1 h).encode⟩
  obtain ⟨packet, he, rfl, -⟩ := decodePacket_eq_instr (decode_packet_iff.1 h)
  exact ⟨isFrameForm_of_packet he, by rw [he, List.append_nil]⟩

/-- Settles O4: the decoder evaluated on the ten words. -/
theorem decodeKnownWords : Obligations.DecodeKnownWords :=
  ⟨rfl, rfl, rfl, rfl, rfl, rfl, rfl, rfl, rfl, rfl⟩

/-- Settles O5: the two directions differ in bit 7 alone. -/
theorem commandByteFields : Obligations.CommandByteFields := fun a =>
  ⟨flag_or_toNat a, commandByte_msb .read a, setWidth_eight_toNat a, commandByte_msb .write a, commandByte_addr .read a,
    commandByte_addr .write a⟩

/-- Settles O6: each of the bytes is the flag at 0x80, or none, over seven further bits. -/
theorem bridgeBytes : Obligations.BridgeBytes := by
  intro p henable hread
  refine ⟨fun f => ⟨?_, setWidth_eight_toNat f⟩, fun n hn => ?_⟩
  · rw [Machine.followerReadByte, hread, flag_or_toNat]
  · rw [Machine.controlByte, henable, ofNat_eq_setWidth hn, flag_or_toNat, BitVec.toNat_ofNat]
    omega

end Sys2Proof
end

section
/-! Proofs of `Obligations.StepRunsDecodedInstruction`, `IllegalOpcodesRefused`, `IllegalOperandsRefused`, `OutsideThePremises`
and `FrameFormsTransfer` (30_encoding.md R82, R93 to R101). -/

namespace Sys2Proof.Machine

/-! ### What a step fetches -/

theorem fetch_frame {s : State} {q : FrameReq} {i : Instr} (hbus : s.busReq = some q)
    (h : decode (.frame q.tx q.m) = some i) : fetch s = .run i (s.setBusReq none) := by
  simp only [fetch, hbus, h]

theorem fetch_notAFrame {s : State} {q : FrameReq} (hbus : s.busReq = some q) (h : decode (.frame q.tx q.m) = none) :
    fetch s = .notAFrame := by
  simp only [fetch, hbus, h]

theorem fetch_packet {s : State} {i : Instr} {rest : List Byte} (hbus : s.busReq = none)
    (h : decodePacket s.portIn = .instr i rest) : fetch s = .run i (s.setPortIn rest) := by
  simp only [fetch, hbus, h]

theorem fetch_unknown {s : State} {opcode : Byte} {rest : List Byte} (hbus : s.busReq = none)
    (hport : s.portIn = opcode :: rest) (h : opcode.toNat ∉ hostOpcodes) : fetch s = .illegal (s.setPortIn rest) := by
  simp only [fetch, hbus, hport, decodePacket_unknown h]

theorem step_run {s s' : State} {i : Instr} (h : fetch s = .run i s') : step s = exec i s' := by
  simp only [step, h]

/-! ### What is issued -/

theorem issue_busy {s : State} (h : s.seq = .busy) (op : Op (List Byte)) : issue op s = .refused .commandWhileBusy :=
  if_pos h

theorem issue_illFormed {s : State} (hseq : s.seq = .idle) (hwf : s.params.wf = false) (op : Op (List Byte)) :
    issue op s = .refused .illFormedParams := by
  simp [issue, hseq, hwf]

/-- An operation that raises `IllegalCommand` before any event changes nothing and answers it (R99, R100). -/
theorem issue_illegalCommand {op : Op (List Byte)} {s : State} (h : Raises op s.params [] .illegalCommand) (hr : s.ready)
    (hcs : s.cs = .high) : issue op s = .next (s.send illegalCommandPacket) := by
  rw [issue_raises h rfl hr rfl hcs, State.advance_nil]
  rfl

/-- A read frame of at least one byte is issued (R82). -/
theorem exec_frameRead {m : Nat} (h : 1 ≤ m) (a : Addr7) (s : State) : exec (.frameRead a m) s = issue (readFrame a m) s :=
  if_neg (Nat.ne_of_gt h)

/-- A write frame of at least one payload byte is issued (R82). -/
theorem exec_frameWrite {payload : List Byte} (h : 1 ≤ payload.length) (a : Addr7) (s : State) :
    exec (.frameWrite a payload) s = issue (writeFrame a payload >>= fun _ => pure []) s :=
  if_neg (Nat.ne_of_gt h)

theorem exec_illFormed_frame {i : Instr} {p : Params} (hform : i.isFrameForm = true) (hwf : i.wellFormed p = false)
    (s : State) : exec i s = .refused .notAFrameForm := by
  cases i with
  | frameRead a m => exact if_pos (by simpa [Instr.wellFormed] using hwf)
  | frameWrite a payload => exact if_pos (by simpa [Instr.wellFormed] using hwf)
  | _ => cases hform

/-- Every host operation, and every bus frame of the two forms, issues an operation. -/
theorem exec_eq_issue {i : Instr} {p : Params} (h : i.isFrameForm = true → i.wellFormed p = true) :
    ∃ op, ∀ s, exec i s = issue op s := by
  cases i with
  | frameRead a m => exact ⟨_, exec_frameRead (of_decide_eq_true (h rfl)) a⟩
  | frameWrite a payload => exact ⟨_, exec_frameWrite (of_decide_eq_true (h rfl)) a⟩
  | _ => exact ⟨_, fun _ => rfl⟩

/-! ### Operand checks in front of an operation -/

section
variable {p : Params} {β : Type}

/-- A bank or range operand is illegal, or what follows it raises: either way the operation is refused. -/
theorem indexOperand_bind_raises {b : Byte} {f : Fin 4 → Op β}
    (h : ∀ k, b = indexByte k → Raises (f k) p [] .illegalCommand) :
    Raises (indexOperand b >>= f) p [] .illegalCommand := by
  cases hb : legalIndex b with
  | false => exact (indexOperand_raises hb).bind
  | true =>
    obtain ⟨k, rfl⟩ := eq_indexByte hb
    exact (indexOperand_performs k).bind_nil_raises (h k rfl)

/-- A register or follower operand is illegal, or what follows it raises. -/
theorem addrOperand_bind_raises {b : Byte} {f : Addr7 → Op β}
    (h : ∀ a, b = addrByte a → Raises (f a) p [] .illegalCommand) :
    Raises (addrOperand b >>= f) p [] .illegalCommand := by
  cases hb : legalAddr b with
  | false => exact (addrOperand_raises hb).bind
  | true =>
    obtain ⟨a, rfl⟩ := eq_addrByte hb
    exact (addrOperand_performs a).bind_nil_raises (h a rfl)

end

/-- An `XFER` that sends no byte, or more than a packet holds, is refused (R100; log 13). -/
theorem exec_xfer_illegal {s : State} {tx : List Byte} (h : ¬(1 ≤ tx.length ∧ tx.length ≤ 255)) (m : Byte) (hr : s.ready)
    (hcs : s.cs = .high) : exec (.xfer tx m) s = .next (s.send illegalCommandPacket) :=
  issue_illegalCommand (transmitOperand_raises h).bind hr hcs

/-! ### The unassigned opcodes -/

/-- Of the 256 byte values, all but the twenty of R94 are no opcode (R99). -/
theorem length_unknownOpcodes : ((List.range 256).filter fun v => !hostOpcodes.contains v).length = 236 := by
  have hbyte : ∀ v ∈ hostOpcodes, v < 256 := by decide
  have hknown : ((List.range 256).filter hostOpcodes.contains).Perm hostOpcodes :=
    (List.perm_ext_iff_of_nodup (List.nodup_range.filter _) (by decide)).2 fun v => by
      simpa using hbyte v
  have htwenty : hostOpcodes.length = 20 := rfl
  have hsplit := (List.range 256).length_eq_length_filter_add hostOpcodes.contains
  rw [hknown.length_eq, List.length_range, htwenty] at hsplit
  omega

/-! ### The statements -/

/-- Settles O10: the checks of R100 in their order; with all before it passed, the last one of an ill-formed operation fails. -/
theorem illegalOperandsRefused : Obligations.IllegalOperandsRefused := by
  intro s i hr hcs hform hwf hxfer
  cases i with
  | frameRead a m => cases hform
  | frameWrite a payload => cases hform
  | xfer tx m =>
    exact exec_xfer_illegal (fun h => by simp [Instr.wellFormed, h] at hwf) m hr hcs
  | selectBank bank => exact issue_illegalCommand (indexOperand_raises hwf).bind hr hcs
  | selectGyroRange range => exact issue_illegalCommand (indexOperand_raises hwf).bind hr hcs
  | selectAccelRange range => exact issue_illegalCommand (indexOperand_raises hwf).bind hr hcs
  | bridgeWrite f r value => exact issue_illegalCommand (addrOperand_raises hwf).bind hr hcs
  | bridgeRead f r len =>
    refine issue_illegalCommand (addrOperand_bind_raises fun a ha => ?_) hr hcs
    refine Performs.parameters.bind_nil_raises (burstOperand_raises ?_).bind
    simpa [Instr.wellFormed, ha, legalAddr_addrByte] using hwf
  | readU8 bank reg =>
    refine issue_illegalCommand (indexOperand_bind_raises fun b hb => (addrOperand_raises ?_).bind) hr hcs
    simpa [Instr.wellFormed, hb, legalIndex_indexByte] using hwf
  | writeU8 bank reg value =>
    refine issue_illegalCommand (indexOperand_bind_raises fun b hb => (addrOperand_raises ?_).bind) hr hcs
    simpa [Instr.wellFormed, hb, legalIndex_indexByte] using hwf
  | readBytes bank reg len =>
    refine issue_illegalCommand (indexOperand_bind_raises fun b hb => addrOperand_bind_raises fun a ha =>
      (burstOperand_raises ?_).bind) hr hcs
    simpa [Instr.wellFormed, hb, ha, legalIndex_indexByte, legalAddr_addrByte, addrByte_toNat] using hwf
  | writeBytes bank reg data =>
    refine issue_illegalCommand (indexOperand_bind_raises fun b hb => addrOperand_bind_raises fun a ha =>
      (burstOperand_raises ?_).bind) hr hcs
    simpa [Instr.wellFormed, hb, ha, legalIndex_indexByte, legalAddr_addrByte, addrByte_toNat] using hwf
  | _ => cases hwf

/-- Settles O9: the opcode byte alone is fetched, and the exception is raised with no frame open. -/
theorem illegalOpcodesRefused : Obligations.IllegalOpcodesRefused := by
  refine ⟨length_unknownOpcodes, fun s opcode rest hr hcs hbus hport hop => ?_⟩
  simp only [step, fetch_unknown hbus hport hop]
  exact issue_illegalCommand (s := s.setPortIn rest) (Raises.raise _) hr hcs

/-- Settles O21: a frame in which nothing fails, issued. -/
theorem frameFormsTransfer : Obligations.FrameFormsTransfer := by
  refine ⟨fun s e a rx hr hlen hrun => ?_, fun s e a payload hr hlen hrun => ?_⟩
  · rw [exec_frameRead hlen]
    exact issue_performs (readFrame_performs a rx) rfl hr hrun
  · rw [exec_frameWrite hlen]
    exact issue_performs ((writeFrame_performs a payload).bind_pure (Performs.pure [])) rfl hr hrun

/-- Settles O7: what is fetched is run. -/
theorem stepRunsDecodedInstruction : Obligations.StepRunsDecodedInstruction :=
  ⟨fun _ _ _ hbus h => step_run (fetch_packet hbus h), fun _ _ _ hbus h => step_run (fetch_frame hbus h)⟩

/-- Settles O11: the refusals of `issue`, of the two frame forms and of a step, and the check of an `XFER` term. -/
theorem outsideThePremises : Obligations.OutsideThePremises := by
  refine ⟨fun s i hseq hform => ?_, fun s i hseq hwf hform => ?_, fun s i hform hwf => exec_illFormed_frame hform hwf s,
    fun s q hbus h => ?_, fun s tx m hr hcs hlen => exec_xfer_illegal (by omega) m hr hcs⟩
  · obtain ⟨op, hop⟩ := exec_eq_issue hform
    rw [hop, issue_busy hseq]
  · obtain ⟨op, hop⟩ := exec_eq_issue hform
    rw [hop, issue_illFormed hseq hwf]
  · simp only [step, fetch_notAFrame hbus h]

end Sys2Proof.Machine
end

section
/-! Proofs of `Obligations.EveryOperationAnswersOnce` and `Obligations.OnlyTheTwoFrameForms` (30_encoding.md R82, R97, R98,
R101; 60_exceptions.md R226, R234).

Both speak of how an operation may end, whatever the environment answers. `Answers` says it of one operation: its result and the
events it appended, or the exceptions it may raise; it composes over a sequence. `exec_answered` then says it once for every
instruction. -/

namespace Sys2Proof.Machine

/-! ### How an operation may end -/

/-- How an operation begun in `s` has ended: with a result and the events appended as `Q` says, or in an exception of `E`; no
response has been sent. -/
inductive Ends {α : Type} (Q : α → List Event → Prop) (E : Error → Prop) (s : State) : Except Error α × State → Prop where
  | ok {a : α} {t : State} {es : List Event} (result : Q a es) (responses : t.responses = s.responses)
    (tr : t.tr = s.tr ++ es) : Ends Q E s (.ok a, t)
  | error {e : Error} {t : State} (raised : E e) (responses : t.responses = s.responses) : Ends Q E s (.error e, t)

/-- From every state, the operation ends as `Q` and `E` say. -/
def Answers {α : Type} (Q : α → List Event → Prop) (E : Error → Prop) (op : Op α) : Prop := ∀ s, Ends Q E s (op s)

section
variable {α β : Type} {Q : α → List Event → Prop} {E : Error → Prop}

theorem Answers.mono {Q' : α → List Event → Prop} {op : Op α} (h : Answers Q E op) (hQ : ∀ a es, Q a es → Q' a es) :
    Answers Q' E op := by
  intro s
  have hs := h s
  generalize op s = r at hs ⊢
  cases hs with
  | ok ha hr ht => exact .ok (hQ _ _ ha) hr ht
  | error he hr => exact .error he hr

theorem Answers.pure {a : α} (h : Q a []) : Answers Q E (pure a : Op α) := fun _ => .ok h rfl (List.append_nil _).symm

theorem Answers.bind {Q' : β → List Event → Prop} {op : Op α} {f : α → Op β} (h : Answers Q E op)
    (h' : ∀ a es, Q a es → Answers (fun b fs => Q' b (es ++ fs)) E (f a)) : Answers Q' E (op >>= f) := by
  intro s
  have hs := h s
  rw [Op.bind_apply]
  generalize op s = r at hs ⊢
  cases hs with
  | error he hr => exact .error he hr
  | @ok a t es ha hr ht =>
    have hf := h' a es ha t
    show Ends Q' E s (f a t)
    generalize f a t = r at hf ⊢
    cases hf with
    | error he hr' => exact .error he (hr'.trans hr)
    | ok hb hr' ht' => exact .ok hb (hr'.trans hr) (by rw [ht', ht, List.append_assoc])

theorem Answers.raise {e : Error} (h : E e) : Answers Q E (raise e : Op α) := fun s =>
  .error h (kept_closeFrame s).responses

theorem Answers.ite {c : Prop} [Decidable c] {x y : Op α} (h : Answers Q E x) (h' : Answers Q E y) :
    Answers Q E (if c then x else y) := by
  split <;> assumption

/-- An operation whose every exception is raised again under another name. -/
theorem Answers.tryCatch_raise {E' : Error → Prop} {op : Op α} {g : Error → Error} (h : Answers Q E' op)
    (hg : ∀ e, E' e → E (g e)) : Answers Q E (tryCatch op fun e => Machine.raise (g e) : Op α) := by
  intro s
  have hs := h s
  rw [Op.tryCatch_apply]
  generalize op s = r at hs ⊢
  cases hs with
  | ok ha hr ht => exact .ok ha hr ht
  | error he hr => exact .error (hg _ he) ((kept_closeFrame _).responses.trans hr)

end

/-! ### One frame -/

section
variable {α : Type} {E : Error → Prop}

theorem answer_answers : Answers (fun _ es => es = []) E answer := fun _ => .ok rfl rfl (List.append_nil _).symm

theorem emit_answers (ev : Event) : Answers (fun _ es => es = [ev]) E (emit ev) := fun _ => .ok rfl rfl rfl

theorem beginFrame_answers : Answers (fun _ es => es = [.csLow]) E (modify State.beginFrame) := fun _ => .ok rfl rfl rfl

theorem endFrame_answers : Answers (fun _ es => es = [.csHigh]) E (modify State.endFrame) := fun _ => .ok rfl rfl rfl

variable (hbus : E .busError)
include hbus

theorem transportFailed_answers {Q : α → List Event → Prop} (left : Bool) (ev : Event) :
    Answers Q E (transportFailed left ev : Op α) := by
  have hleft : Answers (fun _ _ => True) E (emitIf left ev) :=
    Answers.ite ((emit_answers ev).mono fun _ _ _ => trivial) (.pure trivial)
  exact hleft.bind fun _ _ _ => .raise hbus

theorem txByte_answers (b : Byte) : Answers (fun _ es => es = [.tx b]) E (txByte b) := by
  refine answer_answers.bind fun a es hes => ?_
  subst hes
  split
  · exact emit_answers _
  · exact transportFailed_answers hbus _ _

theorem rxByte_answers : Answers (fun r es => es = [.rx r]) E rxByte := by
  refine answer_answers.bind fun a es hes => ?_
  subst hes
  refine Answers.bind (Q := fun _ es => es = []) (fun s => .ok rfl rfl (List.append_nil _).symm) fun s es hes => ?_
  subst hes
  dsimp only
  split
  · exact (emit_answers _).bind fun _ es hes => .pure (by simpa using hes)
  · exact transportFailed_answers hbus _ _

theorem txAll_answers (tx : List Byte) : Answers (fun _ es => es = tx.map .tx) E (txAll tx) := by
  induction tx with
  | nil => exact .pure rfl
  | cons b tx ih =>
    refine (txByte_answers hbus b).bind fun _ es hes => ih.mono fun _ fs hfs => ?_
    rw [hes, hfs]
    rfl

theorem rxAll_answers (m : Nat) : Answers (fun rx es => rx.length = m ∧ es = rx.map .rx) E (rxAll m) := by
  induction m with
  | zero => exact .pure ⟨rfl, rfl⟩
  | succ m ih =>
    refine (rxByte_answers hbus).bind fun r es hes => ih.bind fun rx fs ⟨hl, hfs⟩ => .pure ⟨by simp [hl], ?_⟩
    simp [hes, hfs]

/-- A frame answers the bytes asked for, and has then appended itself, or it ends in `BusError` (R111, R112). -/
theorem frame_answers (tx : List Byte) (m : Nat) :
    Answers (fun rx es => rx.length = m ∧ es = frameEvents tx rx) E (frame tx m) := by
  refine beginFrame_answers.bind fun _ es hes => (txAll_answers hbus tx).bind fun _ fs hfs =>
    (rxAll_answers hbus m).bind fun rx gs ⟨hl, hgs⟩ => endFrame_answers.bind fun _ hs hhs => .pure ⟨hl, ?_⟩
  simp [hes, hfs, hgs, hhs, frameEvents]

end

/-! ### Traces of the two frame forms -/

/-- The events are whole frames of the two forms, and delays between them (R82, R101). -/
structure OnlyFrameForms (es : List Event) : Prop where
  cut : ∀ fs, framesOf (es ++ fs) = framesOf es ++ framesOf fs
  forms : ∀ f ∈ framesOf es, ∃ j, decode (.frame f.tx f.m) = some j

theorem OnlyFrameForms.nil : OnlyFrameForms [] := ⟨fun _ => rfl, fun _ h => nomatch h⟩

theorem OnlyFrameForms.append {es fs : List Event} (h : OnlyFrameForms es) (h' : OnlyFrameForms fs) :
    OnlyFrameForms (es ++ fs) where
  cut gs := by rw [List.append_assoc, h.cut, h'.cut, h.cut, List.append_assoc]
  forms f hf := by
    rw [h.cut, List.mem_append] at hf
    exact hf.elim (h.forms f) (h'.forms f)

theorem OnlyFrameForms.delay (d : Nat) : OnlyFrameForms [.delay d] := ⟨fun _ => rfl, fun _ h => nomatch h⟩

theorem cutFrames_tx (f : FrameReq) (tx : List Byte) (es : List Event) :
    cutFrames (some f) (tx.map .tx ++ es) = cutFrames (some { f with tx := f.tx ++ tx }) es := by
  induction tx generalizing f with
  | nil => simp
  | cons b tx ih =>
    rw [List.map_cons, List.cons_append, cutFrames, ih]
    simp

theorem cutFrames_rx (f : FrameReq) (rx : List Byte) (es : List Event) :
    cutFrames (some f) (rx.map .rx ++ es) = cutFrames (some { f with m := f.m + rx.length }) es := by
  induction rx generalizing f with
  | nil => simp
  | cons r rx ih =>
    rw [List.map_cons, List.cons_append, cutFrames, ih]
    simp [Nat.add_assoc, Nat.add_comm 1]

/-- A decoder of the trace cuts a frame at its bracket (R83). -/
theorem framesOf_frameEvents (tx rx : List Byte) (fs : List Event) :
    framesOf (frameEvents tx rx ++ fs) = { tx := tx, m := rx.length } :: framesOf fs := by
  simp [framesOf, frameEvents, cutFrames, cutFrames_tx, cutFrames_rx]

theorem OnlyFrameForms.frame {tx rx : List Byte} {i : Instr} (h : IsFrameForm tx rx.length i) :
    OnlyFrameForms (frameEvents tx rx) := by
  have hone : framesOf (frameEvents tx rx) = [{ tx := tx, m := rx.length }] := by
    rw [← List.append_nil (frameEvents tx rx), framesOf_frameEvents]
    rfl
  refine ⟨fun fs => by rw [hone, framesOf_frameEvents, List.singleton_append], fun f hf => ?_⟩
  obtain rfl := List.mem_singleton.1 (hone ▸ hf)
  exact ⟨i, decode_frame_iff.2 h⟩

/-! ### Operations made of the two frame forms -/

/-- The operation ends with a result that satisfies `Q`, having emitted frames of the two forms and delays only, or in an
exception of `E`. -/
def Framed {α : Type} (Q : α → Prop) (E : Error → Prop) (op : Op α) : Prop :=
  Answers (fun a es => Q a ∧ OnlyFrameForms es) E op

/-- For an operation whose result does not matter. -/
def anyResult {α : Type} (_ : α) : Prop := True

section
variable {α β : Type} {Q : α → Prop} {E : Error → Prop}

theorem Framed.pure {a : α} (h : Q a) : Framed Q E (pure a : Op α) := Answers.pure ⟨h, .nil⟩

theorem Framed.bind {Q' : β → Prop} {op : Op α} {f : α → Op β} (h : Framed Q E op) (h' : ∀ a, Q a → Framed Q' E (f a)) :
    Framed Q' E (op >>= f) :=
  Answers.bind h fun a _ ⟨ha, hes⟩ => (h' a ha).mono fun _ _ ⟨hb, hfs⟩ => ⟨hb, hes.append hfs⟩

/-- An operation after one whose result does not matter. -/
theorem Framed.next {Q' : β → Prop} {op : Op α} {f : α → Op β} (h : Framed anyResult E op) (h' : ∀ a, Framed Q' E (f a)) :
    Framed Q' E (op >>= f) := h.bind fun a _ => h' a

theorem Framed.raise {e : Error} (h : E e) : Framed Q E (raise e : Op α) := Answers.raise h

theorem Framed.ite {c : Prop} [Decidable c] {x y : Op α} (h : Framed Q E x) (h' : Framed Q E y) :
    Framed Q E (if c then x else y) := Answers.ite h h'

/-- The result of an operation that answers nothing but whether it succeeded. -/
theorem Framed.empty {op : Op Unit} (h : Framed anyResult E op) :
    Framed (fun payload => payload.length = 0) E (op >>= fun _ => (Pure.pure [] : Op (List Byte))) :=
  h.next fun _ => .pure rfl

theorem Framed.any {op : Op α} (h : Framed Q E op) : Framed anyResult E op := h.mono fun _ _ ⟨_, hes⟩ => ⟨trivial, hes⟩

theorem parameters_framed : Framed anyResult E parameters := fun _ => .ok ⟨trivial, .nil⟩ rfl (List.append_nil _).symm

theorem delay_framed (d : Nat) : Framed anyResult E (delay d) :=
  Answers.ite (.pure ⟨trivial, .nil⟩) ((emit_answers _).mono fun _ _ hes => ⟨trivial, hes ▸ .delay d⟩)

theorem setSfGyro_framed (q : Ratio) : Framed anyResult E (modify fun s => s.setSfGyro q) := fun _ =>
  .ok ⟨trivial, .nil⟩ rfl (List.append_nil _).symm

theorem setSfAccel_framed (q : Ratio) : Framed anyResult E (modify fun s => s.setSfAccel q) := fun _ =>
  .ok ⟨trivial, .nil⟩ rfl (List.append_nil _).symm

theorem gyroFactor_framed (h : E (.scaleFactorUnset .gyroscope)) : Framed anyResult E gyroFactor := by
  intro s
  rw [gyroFactor_apply]
  split
  · exact .ok ⟨trivial, .nil⟩ rfl (List.append_nil _).symm
  · exact .error h (kept_closeFrame s).responses

theorem accelFactor_framed (h : E (.scaleFactorUnset .accelerometer)) : Framed anyResult E accelFactor := by
  intro s
  rw [accelFactor_apply]
  split
  · exact .ok ⟨trivial, .nil⟩ rfl (List.append_nil _).symm
  · exact .error h (kept_closeFrame s).responses

section operands
variable (hill : E .illegalCommand)
include hill

theorem indexOperand_framed (b : Byte) : Framed anyResult E (indexOperand b) := .ite (.pure trivial) (.raise hill)

theorem addrOperand_framed (b : Byte) : Framed anyResult E (addrOperand b) := .ite (.raise hill) (.pure trivial)

/-- A burst that passes its checks has at least one byte (R100 check 2). -/
theorem burstOperand_framed (start : Addr7) (len : Nat) : Framed (fun _ => 1 ≤ len) E (burstOperand start len) :=
  parameters_framed.next fun p => by
    split
    case isTrue h => exact .ite (.pure h.1) (.raise hill)
    case isFalse => exact .raise hill

end operands

/-! ### One lemma per shared operation -/

variable (hbus : E .busError)
include hbus

theorem readFrame_framed (a : Addr7) {m : Nat} (h : 1 ≤ m) : Framed (fun rx => rx.length = m) E (readFrame a m) :=
  (frame_answers hbus _ m).mono fun _ _ ⟨hl, hes⟩ => ⟨hl, hes ▸ .frame (.read a (hl ▸ h))⟩

theorem writeFrame_framed (a : Addr7) {data : List Byte} (h : 1 ≤ data.length) : Framed anyResult E (writeFrame a data) := by
  refine Framed.next (α := List Byte) ((frame_answers hbus _ 0).mono fun rx es ⟨hl, hes⟩ => ⟨trivial, hes ▸ ?_⟩) fun _ =>
    .pure trivial
  obtain rfl := List.length_eq_zero_iff.1 hl
  exact .frame (.write a h)

theorem selectBank_framed (b : Bank) : Framed anyResult E (selectBank b) :=
  parameters_framed.next fun _ => writeFrame_framed hbus _ (by simp)

theorem readBytes_framed (r : RegAddr) {n : Nat} (h : 1 ≤ n) : Framed (fun rx => rx.length = n) E (readBytes r n) :=
  (selectBank_framed hbus _).next fun _ => readFrame_framed hbus _ h

theorem writeBytes_framed (r : RegAddr) {data : List Byte} (h : 1 ≤ data.length) :
    Framed anyResult E (writeBytes r data) :=
  (selectBank_framed hbus _).next fun _ => writeFrame_framed hbus _ h

theorem readU8_framed (r : RegAddr) : Framed anyResult E (readU8 r) :=
  (selectBank_framed hbus _).next fun _ => (readFrame_framed hbus _ (by simp)).any.next fun _ => .pure trivial

theorem writeU8_framed (r : RegAddr) (v : Byte) : Framed anyResult E (writeU8 r v) :=
  (selectBank_framed hbus _).next fun _ => writeFrame_framed hbus _ (by simp)

theorem bridgeRead_framed (f : Addr7) (r : Byte) {n : Nat} (h : 1 ≤ n) :
    Framed (fun rx => rx.length = n) E (bridgeReadBytes f r n) :=
  parameters_framed.next fun _ => (writeU8_framed hbus _ _).next fun _ => (writeU8_framed hbus _ _).next fun _ =>
    (delay_framed _).next fun _ => (writeU8_framed hbus _ _).next fun _ => (delay_framed _).next fun _ =>
      readBytes_framed hbus _ h

theorem bridgeWrite_framed (f : Addr7) (r v : Byte) : Framed anyResult E (bridgeWriteByte f r v) :=
  parameters_framed.next fun _ => (writeU8_framed hbus _ _).next fun _ => (writeU8_framed hbus _ _).next fun _ =>
    (writeU8_framed hbus _ _).next fun _ => (delay_framed _).next fun _ => (writeU8_framed hbus _ _).next fun _ =>
      delay_framed _

/-! ### Calibration, initialization, range selection -/

theorem sumSamples_framed (source : RegAddr) (n : Nat) (acc : Axis3 Int) : Framed anyResult E (sumSamples source n acc) := by
  induction n generalizing acc with
  | zero => exact .pure trivial
  | succ n ih =>
    have hgap : Framed anyResult E (sampleGap n) := .ite (.pure trivial) (parameters_framed.next fun _ => delay_framed _)
    exact (readBytes_framed hbus _ (by simp)).any.next fun _ => hgap.next fun _ => ih _

theorem calGyro_framed : Framed anyResult E calGyro :=
  have hwrite (r : RegAddr) (p : Params) (sum : Int) : Framed anyResult E (writeBytes r (gyroPair p sum)) :=
    writeBytes_framed hbus r (by simp [gyroPair, bigEndianPair])
  parameters_framed.next fun _ => (sumSamples_framed hbus _ _ _).next fun _ => (hwrite _ _ _).next fun _ =>
    (hwrite _ _ _).next fun _ => hwrite _ _ _

theorem calAccel_framed : Framed anyResult E calAccel :=
  have hread (r : RegAddr) : Framed anyResult E (readBytes r 2) := (readBytes_framed hbus r (by simp)).any
  have hwrite (r : RegAddr) (p : Params) (old : List Byte) (sum : Int) :
      Framed anyResult E (writeBytes r (accelPair p old sum)) := writeBytes_framed hbus r (by simp [accelPair])
  parameters_framed.next fun _ => (sumSamples_framed hbus _ _ _).next fun _ => (hread _).next fun _ =>
    (hread _).next fun _ => (hread _).next fun _ => (hwrite _ _ _ _).next fun _ => (hwrite _ _ _ _).next fun _ =>
      hwrite _ _ _ _

theorem runSteps_framed (ops : List MicroOp) : Framed anyResult E (runSteps ops) := by
  induction ops with
  | nil => exact .pure trivial
  | cons op ops ih =>
    refine Framed.next (α := Unit) ?_ fun _ => ih
    cases op with
    | w addr v => exact writeU8_framed hbus addr v
    | rmw addr keep set => exact (readU8_framed hbus addr).next fun _ => writeU8_framed hbus addr _
    | bw r v => exact parameters_framed.next fun _ => bridgeWrite_framed hbus _ r v
    | d ms => exact delay_framed ms

theorem identityMain_framed (hid : E (.deviceNotFound .main)) (n : Nat) : Framed anyResult E (identityMain n) := by
  induction n with
  | zero => exact .raise hid
  | succ n ih =>
    exact parameters_framed.next fun _ => (readU8_framed hbus _).next fun _ =>
      .ite (.pure trivial) (.ite (.raise hid) ((delay_framed _).next fun _ => ih))

theorem identityMag_framed (hid : E (.deviceNotFound .magnetometer)) (n : Nat) : Framed anyResult E (identityMag n) := by
  induction n with
  | zero => exact .raise hid
  | succ n ih =>
    exact parameters_framed.next fun _ => (bridgeRead_framed hbus _ _ (by simp)).any.next fun _ =>
      .ite (.pure trivial) (.ite (.raise hid) ((delay_framed _).next fun _ => ih))

theorem selectGyroRange_framed (r : RangeIx) : Framed anyResult E (selectGyroRange r) :=
  parameters_framed.next fun _ => (readU8_framed hbus _).next fun _ => (writeU8_framed hbus _ _).next fun _ =>
    setSfGyro_framed _

theorem selectAccelRange_framed (r : RangeIx) : Framed anyResult E (selectAccelRange r) :=
  parameters_framed.next fun _ => (readU8_framed hbus _).next fun _ => (writeU8_framed hbus _ _).next fun _ =>
    setSfAccel_framed _

theorem initMain_framed (hid : E (.deviceNotFound .main)) : Framed anyResult E initMain := by
  rw [initMain_eq]
  exact parameters_framed.next fun _ => (identityMain_framed hbus hid _).next fun _ => (runSteps_framed hbus _).next fun _ =>
    (calGyro_framed hbus).next fun _ => (calAccel_framed hbus).next fun _ => (selectGyroRange_framed hbus _).next fun _ =>
      selectAccelRange_framed hbus _

theorem initBridgeDevice_framed (hid : E (.deviceNotFound .magnetometer)) : Framed anyResult E initBridgeDevice :=
  parameters_framed.next fun _ => (runSteps_framed hbus _).next fun _ => (runSteps_framed hbus _).next fun _ =>
    (runSteps_framed hbus _).next fun _ => (identityMag_framed hbus hid _).next fun _ => (runSteps_framed hbus _).next fun _ =>
      (runSteps_framed hbus _).next fun _ => runSteps_framed hbus _

/-! ### Reads of the sensors -/

theorem readGyroRaw_framed : Framed anyResult E readGyroRaw :=
  parameters_framed.next fun _ => (readBytes_framed hbus _ (by simp)).any.next fun _ => .pure trivial

theorem readAccelRaw_framed : Framed anyResult E readAccelRaw :=
  parameters_framed.next fun _ => (readBytes_framed hbus _ (by simp)).any.next fun _ => .pure trivial

theorem readGyroScaled_framed (h : E (.scaleFactorUnset .gyroscope)) : Framed anyResult E readGyroScaled :=
  (gyroFactor_framed h).next fun _ => (readGyroRaw_framed hbus).next fun _ => .pure trivial

theorem readAccelScaled_framed (h : E (.scaleFactorUnset .accelerometer)) : Framed anyResult E readAccelScaled :=
  (accelFactor_framed h).next fun _ => parameters_framed.next fun _ => (readAccelRaw_framed hbus).next fun _ =>
    .pure trivial

theorem readMagScaled_framed (hgate : ∀ c, E (.notReadyOrOverflow c)) : Framed anyResult E readMagScaled :=
  parameters_framed.next fun _ => (bridgeRead_framed hbus _ _ (by simp)).any.next fun _ =>
    .ite ((bridgeRead_framed hbus _ _ (by simp)).any.next fun _ => (bridgeRead_framed hbus _ _ (by simp)).any.next fun _ =>
      .ite (.raise (hgate _)) (.pure trivial)) (.raise (hgate _))

/-- In a snapshot a failure of the gate is a `SensorError` (R216, R219). -/
theorem readMagInSnapshot_framed (hgate : ∀ c, E (.sensorError c)) : Framed anyResult E readMagInSnapshot := by
  refine Answers.tryCatch_raise (E' := fun e => E (rewrapGateError e)) ?_ fun _ => id
  exact readMagScaled_framed hbus hgate

end

/-! ### Payloads (R98) -/

theorem rawPayload_length (t : Axis3 Int) : (rawPayload t).length = 6 := rfl

theorem scaledPayload_length (t : Axis3 (BitVec 32)) : (scaledPayload t).length = 12 := rfl

/-- The payload of a snapshot is three scaled triplets (R98). -/
theorem readSnapshot_framed {E : Error → Prop} (hbus : E .busError) (hgyro : E (.scaleFactorUnset .gyroscope))
    (haccel : E (.scaleFactorUnset .accelerometer)) (hgate : ∀ c, E (.sensorError c)) :
    Framed (fun payload => payload.length = 36) E readSnapshot :=
  (gyroFactor_framed hgyro).next fun _ => (accelFactor_framed haccel).next fun _ =>
    (readGyroScaled_framed hbus hgyro).next fun _ => (readAccelScaled_framed hbus haccel).next fun _ =>
      (readMagInSnapshot_framed hbus hgate).next fun _ => .pure rfl

/-! ### The response of every instruction -/

/-- The exceptions R226 lets an instruction raise. -/
abbrev raisedBy (i : Instr) (e : Error) : Prop := errorPacket e ∈ errorPacketsOf i

/-- The one response to an instruction: `OK` with the payload R98 gives, and then, but for `XFER`, with frames of the two forms
only (R82); or an error that R226 lets the instruction raise. -/
inductive Answered (i : Instr) (s t : State) : Prop where
  | ok (payload : List Byte) (es : List Event) (length : payload.length = payloadLength i)
    (forms : (∀ tx m, i ≠ .xfer tx m) → OnlyFrameForms es) (tr : t.tr = s.tr ++ es)
    (responses : t.responses = s.responses ++ [okStatus :: payload])
  | error (e : Error) (raised : raisedBy i e) (responses : t.responses = s.responses ++ [errorPacket e])

theorem raisedBy_busError (i : Instr) : raisedBy i .busError := by
  cases i <;> exact List.mem_cons_self

theorem raisedBy_illegalCommand {i : Instr} (h : errorPacketsOf i = [busErrorPacket, illegalCommandPacket]) :
    raisedBy i .illegalCommand := by
  rw [raisedBy, h]
  decide

theorem issue_answered {i : Instr} {op : Op (List Byte)} {s t : State} (h : issue op s = .next t)
    (hop : Answers (fun payload es => payload.length = payloadLength i ∧ ((∀ tx m, i ≠ .xfer tx m) → OnlyFrameForms es))
      (raisedBy i) op) : Answered i s t := by
  obtain ⟨-, rfl⟩ := issue_next h
  have hends := hop (s.setSeq .busy)
  generalize op (s.setSeq .busy) = r at hends ⊢
  cases hends with
  | ok ha hr ht =>
    refine .ok _ _ ha.1 ha.2 ht ?_
    rw [respond, State.respondOk_responses, hr]
    rfl
  | @error e u he hr =>
    refine .error e he ?_
    show u.closeFrame.responses ++ _ = _
    rw [(kept_closeFrame u).responses, hr]
    rfl

theorem issue_framed {i : Instr} {op : Op (List Byte)} {s t : State} (h : issue op s = .next t)
    (hop : Framed (fun payload => payload.length = payloadLength i) (raisedBy i) op) : Answered i s t :=
  issue_answered h (hop.mono fun _ _ ⟨hl, hes⟩ => ⟨hl, fun _ => hes⟩)

/-- Every instruction that answers a next state has sent one response of the closed list. -/
theorem exec_answered {i : Instr} {s t : State} (h : exec i s = .next t) : Answered i s t := by
  have hbus := raisedBy_busError i
  cases i with
  | xfer tx m =>
    have hill := raisedBy_illegalCommand (i := .xfer tx m) rfl
    have htx : Answers (fun _ es => es = []) (raisedBy (.xfer tx m)) (transmitOperand tx) :=
      .ite (.pure rfl) (.raise hill)
    exact issue_answered h (htx.bind fun _ _ _ => (frame_answers hbus tx m.toNat).mono fun _ _ ⟨hl, _⟩ =>
      ⟨hl, fun hx => absurd rfl (hx tx m)⟩)
  | selectBank bank =>
    have hill := raisedBy_illegalCommand (i := .selectBank bank) rfl
    exact issue_framed h ((indexOperand_framed hill _).next fun _ => (selectBank_framed hbus _).empty)
  | readU8 bank reg =>
    have hill := raisedBy_illegalCommand (i := .readU8 bank reg) rfl
    exact issue_framed h ((indexOperand_framed hill _).next fun _ => (addrOperand_framed hill _).next fun _ =>
      (readU8_framed hbus _).next fun _ => .pure rfl)
  | writeU8 bank reg value =>
    have hill := raisedBy_illegalCommand (i := .writeU8 bank reg value) rfl
    exact issue_framed h ((indexOperand_framed hill _).next fun _ => (addrOperand_framed hill _).next fun _ =>
      (writeU8_framed hbus _ _).empty)
  | readBytes bank reg len =>
    have hill := raisedBy_illegalCommand (i := .readBytes bank reg len) rfl
    exact issue_framed h ((indexOperand_framed hill _).next fun _ => (addrOperand_framed hill _).next fun _ =>
      (burstOperand_framed hill _ _).bind fun _ hlen => readBytes_framed hbus _ hlen)
  | writeBytes bank reg data =>
    have hill := raisedBy_illegalCommand (i := .writeBytes bank reg data) rfl
    exact issue_framed h ((indexOperand_framed hill _).next fun _ => (addrOperand_framed hill _).next fun _ =>
      (burstOperand_framed hill _ _).bind fun _ hlen => (writeBytes_framed hbus _ hlen).empty)
  | bridgeRead f r len =>
    have hill := raisedBy_illegalCommand (i := .bridgeRead f r len) rfl
    exact issue_framed h ((addrOperand_framed hill _).next fun _ => parameters_framed.next fun _ =>
      (burstOperand_framed hill _ _).bind fun _ hlen => bridgeRead_framed hbus _ _ hlen)
  | bridgeWrite f r value =>
    have hill := raisedBy_illegalCommand (i := .bridgeWrite f r value) rfl
    exact issue_framed h ((addrOperand_framed hill _).next fun _ => (bridgeWrite_framed hbus _ _ _).empty)
  | selectGyroRange range =>
    have hill := raisedBy_illegalCommand (i := .selectGyroRange range) rfl
    exact issue_framed h ((indexOperand_framed hill _).next fun _ => (selectGyroRange_framed hbus _).empty)
  | selectAccelRange range =>
    have hill := raisedBy_illegalCommand (i := .selectAccelRange range) rfl
    exact issue_framed h ((indexOperand_framed hill _).next fun _ => (selectAccelRange_framed hbus _).empty)
  | initMain => exact issue_framed h (initMain_framed hbus (by decide)).empty
  | initBridgeDevice => exact issue_framed h (initBridgeDevice_framed hbus (by decide)).empty
  | calGyro => exact issue_framed h (calGyro_framed hbus).empty
  | calAccel => exact issue_framed h (calAccel_framed hbus).empty
  | readGyroRaw => exact issue_framed h ((readGyroRaw_framed hbus).next fun _ => .pure (rawPayload_length _))
  | readAccelRaw => exact issue_framed h ((readAccelRaw_framed hbus).next fun _ => .pure (rawPayload_length _))
  | readGyroScaled =>
    exact issue_framed h ((readGyroScaled_framed hbus (by decide)).next fun _ => .pure (scaledPayload_length _))
  | readAccelScaled =>
    exact issue_framed h ((readAccelScaled_framed hbus (by decide)).next fun _ => .pure (scaledPayload_length _))
  | readMagScaled =>
    have hgate : ∀ c, raisedBy .readMagScaled (.notReadyOrOverflow c) := by rintro (_ | _) <;> decide
    exact issue_framed h ((readMagScaled_framed hbus hgate).next fun _ => .pure (scaledPayload_length _))
  | readSnapshot =>
    have hgate : ∀ c, raisedBy .readSnapshot (.sensorError c) := by rintro (_ | _) <;> decide
    exact issue_framed h (readSnapshot_framed hbus (by decide) (by decide) hgate)
  | frameRead addr m =>
    by_cases hm : 1 ≤ m
    · rw [exec_frameRead hm] at h
      exact issue_framed h (readFrame_framed hbus addr hm)
    · rw [exec_illFormed_frame (i := .frameRead addr m) (p := s.params) rfl (decide_eq_false hm)] at h
      cases h
  | frameWrite addr payload =>
    by_cases hp : 1 ≤ payload.length
    · rw [exec_frameWrite hp] at h
      exact issue_framed h (writeFrame_framed hbus addr hp).empty
    · rw [exec_illFormed_frame (i := .frameWrite addr payload) (p := s.params) rfl (decide_eq_false hp)] at h
      cases h

/-! ### The statements -/

/-- Settles O16: the response of an instruction, with the sequencer idle after it. -/
theorem everyOperationAnswersOnce : Obligations.EveryOperationAnswersOnce := by
  intro i s t h
  refine ⟨(exec_ran h).seq, ?_⟩
  cases exec_answered h with
  | ok payload es hl hforms htr hr => exact ⟨_, hr, .inl ⟨payload, rfl, hl⟩⟩
  | error e he hr => exact ⟨_, hr, .inr he⟩

/-- No error has the status `OK` (R97). -/
theorem errorPacket_ne_ok (e : Error) (payload : List Byte) : errorPacket e ≠ okStatus :: payload := by
  unfold errorPacket
  split <;> simp [okStatus]

/-- Settles O55: an instruction that answered `OK` has emitted frames of the two forms only. -/
theorem onlyTheTwoFrameForms : Obligations.OnlyTheTwoFrameForms := by
  rintro i s t hx h ⟨payload, hok⟩
  cases exec_answered h with
  | ok _ es hl hforms htr hr => exact ⟨es, htr, (hforms hx).forms⟩
  | error e he hr =>
    rw [hr, List.append_cancel_left_eq, List.singleton_inj] at hok
    exact absurd hok (errorPacket_ne_ok e payload)

end Sys2Proof.Machine
end

section
/-! Proofs of `Obligations.FramesCloseOnEveryExitPath`, `XferTransfers` and `XferFailureClosesTheFrame`
(40_bus_transaction.md R111 to R113).

The discipline of the trace is part of what every instruction keeps (`exec_ran`). `XFER` is its one frame: `xfer_runs` says
what that frame does when nothing fails and at each step that may fail. -/

namespace Sys2Proof.Machine

/-! ### A failure at a given step -/

/-- The environment lets `es` happen and fails at the event after them, a bus step. -/
theorem FailsAt.after {s : State} {es : List Event} {e : Env} {left : Bool} {planned ev : Event}
    (hrun : s.env.run s.params es = some e) (hstep : e.failedStep s.params planned = some ev)
    (hrep : e.next.1.report = .failed left) (rest : List Event) :
    FailsAt s (es ++ planned :: rest) es.length e left ev where
  run := by rwa [List.take_left]
  step := by rwa [List.getElem?_append_right le_rfl, Nat.sub_self]
  report := hrep

/-- A frame cut before its `k`th transmitted byte (R80). -/
theorem frameEvents_cut_tx (tx rx : List Byte) {k : Nat} (hk : k < tx.length) :
    frameEvents tx rx =
      openFrameEvents (tx.take k) [] ++ .tx tx[k] :: ((tx.drop (k + 1)).map .tx ++ (rx.map .rx ++ [.csHigh])) := by
  have hcut : tx.map Event.tx = (tx.take k).map .tx ++ .tx tx[k] :: (tx.drop (k + 1)).map .tx := by
    rw [← List.map_cons, ← List.drop_eq_getElem_cons hk, ← List.map_append, List.take_append_drop]
  rw [frameEvents, hcut]
  simp [openFrameEvents]

/-- A frame cut before one of its received bytes (R80). -/
theorem frameEvents_cut_rx (tx rx rest : List Byte) (r : Byte) :
    frameEvents tx (rx ++ r :: rest) = openFrameEvents tx rx ++ .rx r :: (rest.map .rx ++ [.csHigh]) := by
  simp [frameEvents, openFrameEvents]

/-! ### `XFER` -/

section
variable {s : State} {e : Env} {tx rx : List Byte} {m : Byte}

/-- `XFER` of a legal length is one frame (R100, R111). -/
theorem xfer_runs (p : Params) (htx : 1 ≤ tx.length ∧ tx.length ≤ 255) (hrx : rx.length = m.toNat) :
    Runs (transmitOperand tx >>= fun _ => frame tx m.toNat) p (frameEvents tx rx) rx := by
  have hcheck : Runs (transmitOperand tx) p [] () := ⟨transmitOperand_performs htx, Fails.nil _⟩
  rw [← hrx]
  exact hcheck.bind (frame_runs tx rx)

/-- `XFER` fails where its frame would go on with the bus step `planned` (R112). -/
theorem exec_xfer_fails {es rest : List Event} {left : Bool} {planned ev : Event} (hr : s.ready)
    (htx : 1 ≤ tx.length ∧ tx.length ≤ 255) (hrx : rx.length = m.toNat)
    (hframe : frameEvents tx rx = es ++ planned :: rest) (hrun : s.env.run s.params es = some e)
    (hstep : e.failedStep s.params planned = some ev) (hrep : e.next.1.report = .failed left) :
    exec (.xfer tx m) s =
      .next ((s.advance (es ++ failureEvents left ev) (e.afterFailure s.params left ev)).send busErrorPacket) := by
  have hfails := issue_fails (hframe ▸ (xfer_runs s.params htx hrx).fails) hr (.after hrun hstep hrep rest)
  rwa [List.take_left] at hfails

end

/-! ### The statements -/

/-- Settles O15: what every instruction keeps has the discipline of the trace in it. -/
theorem framesCloseOnEveryExitPath : Obligations.FramesCloseOnEveryExitPath := by
  intro i s t hcs htrace h
  have hran := exec_ran h
  exact ⟨hran.seq, hran.closed ⟨hcs, htrace⟩⟩

/-- Settles O19: the frame of `XFER` in which nothing fails, issued. -/
theorem xferTransfers : Obligations.XferTransfers := by
  intro s e tx m rx hr hmin hmax hrx hrun
  exact issue_performs (xfer_runs s.params ⟨hmin, hmax⟩ hrx).performs rfl hr hrun

/-- Settles O20: the frame is cut at the failing step. The bytes it would have received from there on do not matter, so zeros
stand for them. -/
theorem xferFailureClosesTheFrame : Obligations.XferFailureClosesTheFrame := by
  refine ⟨fun s e tx m k hk left hr hmax hrun hrep => ?_, fun s e tx m rx left hr hmin hmax hm hrun hrep => ?_⟩
  · have hrx : (List.replicate m.toNat 0x00#8).length = m.toNat := List.length_replicate
    exact exec_xfer_fails hr ⟨Nat.one_le_of_lt hk, hmax⟩ hrx (frameEvents_cut_tx tx _ hk) hrun rfl hrep
  · have hrx : (rx ++ 0x00#8 :: List.replicate (m.toNat - rx.length - 1) 0x00#8).length = m.toNat := by
      simp only [List.length_append, List.length_cons, List.length_replicate]
      omega
    exact exec_xfer_fails hr ⟨hmin, hmax⟩ hrx (frameEvents_cut_rx tx rx _ _) hrun rfl hrep

end Sys2Proof.Machine
end

section
/-! Proofs of `Obligations.SelectBankSends`, `ReadU8Reads`, `WriteU8Writes`, `ReadBytesReads`, `WriteBytesWrites` and
`AccessFailureEndsTheOperation` (41_register_access.md R121 to R130, 60_exceptions.md R235).

`IssuesRun` says of one instruction that it issues an operation with a known run; completion and failure both follow from it.
The operations that read or write a scale factor have no `Runs` of their own: `FailsFrom` says from which state they fail. -/

namespace Sys2Proof.Machine

/-! ### Steps without events -/

section
variable {α β : Type} {p : Params} {es : List Event}

/-- A step without events, such as an operand check, before an operation that runs. -/
theorem Runs.after_check {op : Op α} {f : α → Op β} {a : α} {b : β} (h : Performs op p [] a) (h' : Runs (f a) p es b) :
    Runs (op >>= f) p es b := Runs.bind ⟨h, Fails.nil op⟩ h'

/-- A step without events before an operation that fails. -/
theorem Fails.after_check {op : Op α} {f : α → Op β} {a : α} (h : Performs op p [] a) (h' : Fails (f a) p es) :
    Fails (op >>= f) p es := Fails.bind ⟨h, Fails.nil op⟩ h'

end

/-! ### An instruction that issues an operation with a known run -/

/-- The instruction issues an operation that performs `es` and answers `payload`, or fails at a step of `es`. -/
def IssuesRun (i : Instr) (p : Params) (es : List Event) (payload : List Byte) : Prop :=
  ∃ op, (∀ s, exec i s = issue op s) ∧ Runs op p es payload

section
variable {s : State} {e : Env} {i : Instr} {es : List Event} {payload : List Byte}

theorem IssuesRun.completes (h : IssuesRun i s.params es payload) (hr : s.ready) (hrun : s.env.run s.params es = some e) :
    exec i s = .next ((s.advance es e).send (okStatus :: payload)) := by
  obtain ⟨op, hop, hruns⟩ := h
  rw [hop]
  exact issue_performs hruns.performs rfl hr hrun

/-- The instruction fails where its events would go on with the bus step `planned` (R112). -/
theorem IssuesRun.fails_after {rest : List Event} {left : Bool} {planned ev : Event}
    (h : IssuesRun i s.params (es ++ planned :: rest) payload) (hr : s.ready) (hrun : s.env.run s.params es = some e)
    (hstep : e.failedStep s.params planned = some ev) (hrep : e.next.1.report = .failed left) :
    exec i s =
      .next ((s.advance (es ++ failureEvents left ev) (e.afterFailure s.params left ev)).send busErrorPacket) := by
  obtain ⟨op, hop, hruns⟩ := h
  rw [hop, issue_fails hruns.fails hr (.after hrun hstep hrep rest), List.take_left]

end

section
variable {p : Params} (b : Bank) (a : Addr7)

theorem selectBank_issuesRun : IssuesRun (.selectBank (indexByte b)) p (selectEvents p b) [] :=
  ⟨_, fun _ => rfl, .after_check (bankOperand_performs b) ((selectBank_runs b).bind_pure (.pure []))⟩

theorem readU8_issuesRun (v : Byte) :
    IssuesRun (.readU8 (indexByte b) (addrByte a)) p (readEvents p ⟨b, a⟩ [v]) [v] :=
  ⟨_, fun _ => rfl, .after_check (bankOperand_performs b) (.after_check (addrOperand_performs a)
    ((readU8_runs ⟨b, a⟩ v).bind_pure (.pure [v])))⟩

theorem writeU8_issuesRun (v : Byte) :
    IssuesRun (.writeU8 (indexByte b) (addrByte a) v) p (writeEvents p ⟨b, a⟩ [v]) [] :=
  ⟨_, fun _ => rfl, .after_check (bankOperand_performs b) (.after_check (addrOperand_performs a)
    ((writeU8_runs ⟨b, a⟩ v).bind_pure (.pure [])))⟩

theorem readBytes_issuesRun {len : Byte} {rx : List Byte} (hburst : legalBurst p a.toNat len.toNat = true)
    (hrx : rx.length = len.toNat) :
    IssuesRun (.readBytes (indexByte b) (addrByte a) len) p (readEvents p ⟨b, a⟩ rx) rx :=
  ⟨_, fun _ => rfl, .after_check (bankOperand_performs b) (.after_check (addrOperand_performs a)
    (.after_check (burstOperand_performs hburst) (readCount_runs ⟨b, a⟩ hrx)))⟩

theorem writeBytes_issuesRun {data : List Byte} (hburst : legalBurst p a.toNat data.length = true) :
    IssuesRun (.writeBytes (indexByte b) (addrByte a) data) p (writeEvents p ⟨b, a⟩ data) [] :=
  ⟨_, fun _ => rfl, .after_check (bankOperand_performs b) (.after_check (addrOperand_performs a)
    (.after_check (burstOperand_performs hburst) ((writeBytes_runs ⟨b, a⟩ data).bind_pure (.pure []))))⟩

end

/-- The four register accesses: the bank-select frame, then one frame (R123, R125, R127, R129). -/
theorem IsAccess.issuesRun {p : Params} {i : Instr} {b : Bank} {tx rx : List Byte} {m : Nat} (h : IsAccess p i b tx m)
    (hrx : rx.length = m) : ∃ payload, IssuesRun i p (selectEvents p b ++ frameEvents tx rx) payload := by
  cases h with
  | readU8 b a =>
    obtain ⟨v, rfl⟩ := List.length_eq_one_iff.1 hrx
    exact ⟨_, readU8_issuesRun b a v⟩
  | writeU8 b a v =>
    obtain rfl := List.length_eq_zero_iff.1 hrx
    exact ⟨_, writeU8_issuesRun b a v⟩
  | readBytes b a len hburst => exact ⟨_, readBytes_issuesRun b a hburst hrx⟩
  | writeBytes b a data hburst =>
    obtain rfl := List.length_eq_zero_iff.1 hrx
    exact ⟨_, writeBytes_issuesRun b a hburst⟩

/-! ### Failures from one state -/

theorem csAfter_failureEvents (c : Level) (es : List Event) (left : Bool) (ev : Event) :
    csAfter c (es ++ failureEvents left ev) = .high := by
  rw [failureEvents, ← List.append_assoc, csAfter_append]
  rfl

/-- An operation that ends in `BusError` with the frame closed, issued (R234). -/
theorem issue_busError {op : Op (List Byte)} {s t : State} (hr : s.ready)
    (hop : op (s.setSeq .busy) = (.error .busError, t.setSeq .busy)) (hcs : t.cs = .high) (hseq : t.seq = .idle) :
    issue op s = .next (t.send busErrorPacket) := by
  rw [issue_error hr hop, State.takeException, State.closeFrame_of_high (t := t.setSeq .busy) hcs]
  cases t
  subst hseq
  rfl

/-- `Fails` from the one state `s`: for the operations that depend on its scale factors. -/
def FailsFrom {α : Type} (s : State) (op : Op α) (es : List Event) : Prop :=
  ∀ n e left ev, FailsAt s es n e left ev →
    op s = (.error .busError, s.advance (es.take n ++ failureEvents left ev) (e.afterFailure s.params left ev))

section
variable {α β : Type} {s : State} {op : Op α} {f : α → Op β} {a : α} {es fs : List Event}

theorem Fails.failsFrom (h : Fails op s.params es) : FailsFrom s op es := fun n e left ev => h s n e left ev rfl

theorem FailsFrom.left (h : FailsFrom s op es) (f : α → Op β) : FailsFrom s (op >>= f) es :=
  fun n e left ev hf => Op.bind_error s (h n e left ev hf)

/-- A step that leaves the state alone, such as the test of a factor, before an operation that fails. -/
theorem FailsFrom.after_test (hop : op s = (.ok a, s)) (h : FailsFrom s (f a) es) : FailsFrom s (op >>= f) es := by
  intro n e left ev hf
  rw [Op.bind_ok s hop]
  exact h n e left ev hf

theorem FailsFrom.bind (hop : ∀ m, s.env.run s.params es = some m → op s = (.ok a, s.advance es m))
    (h : FailsFrom s op es) (h' : ∀ m, FailsFrom (s.advance es m) (f a) fs) : FailsFrom s (op >>= f) (es ++ fs) := by
  intro n e left ev hf
  rcases Nat.lt_or_ge n es.length with hn | hn
  · rw [Op.bind_error s (h n e left ev (hf.within hn)), List.take_append_of_le_length hn.le]
  · obtain ⟨m, hrun, hf'⟩ := hf.later hn
    rw [Op.bind_ok s (hop m hrun), h' m _ e left ev hf', State.advance_params, State.advance_advance, List.take_append,
      List.take_of_length_le hn, List.append_assoc]

end

/-- The failure of an operation about to be issued is the failure of the operation issued (R24). -/
theorem FailsAt.setSeq {s : State} {es : List Event} {n : Nat} {e : Env} {left : Bool} {ev : Event}
    (h : FailsAt s es n e left ev) (v : Seq) : FailsAt (s.setSeq v) es n e left ev := ⟨h.run, h.step, h.report⟩

/-- An operation that fails from the state it is issued in (R234). -/
theorem issue_failsFrom {op : Op (List Byte)} {s : State} {es : List Event} {n : Nat} {e : Env} {left : Bool} {ev : Event}
    (h : FailsFrom (s.setSeq .busy) op es) (hr : s.ready) (hf : FailsAt s es n e left ev) :
    issue op s =
      .next ((s.advance (es.take n ++ failureEvents left ev) (e.afterFailure s.params left ev)).send busErrorPacket) :=
  issue_busError hr (h n e left ev (hf.setSeq .busy)) (csAfter_failureEvents _ _ _ _) hr.1

/-! ### The operations that test a factor -/

section
variable {s : State} {sfg sfa : Ratio}

theorem gyroFactor_set (h : s.sfGyro = some sfg) : gyroFactor s = (.ok sfg, s) := by rw [gyroFactor_apply, h]

theorem accelFactor_set (h : s.sfAccel = some sfa) : accelFactor s = (.ok sfa, s) := by rw [accelFactor_apply, h]

theorem readGyroRaw_fails {p : Params} {d : List Byte} (hd : d.length = 6) :
    Fails readGyroRaw p (readEvents p p.gyroOut d) := Fails.parameters ((readCount_runs _ hd).fails.left _)

theorem readAccelRaw_fails {p : Params} {d : List Byte} (hd : d.length = 6) :
    Fails readAccelRaw p (readEvents p p.accelOut d) := Fails.parameters ((readCount_runs _ hd).fails.left _)

theorem readGyroScaled_failsFrom {d : List Byte} (h : s.sfGyro = some sfg) (hd : d.length = 6) :
    FailsFrom s readGyroScaled (readEvents s.params s.params.gyroOut d) :=
  .after_test (gyroFactor_set h) ((readGyroRaw_fails hd).failsFrom.left _)

theorem readAccelScaled_failsFrom {d : List Byte} (h : s.sfAccel = some sfa) (hd : d.length = 6) :
    FailsFrom s readAccelScaled (readEvents s.params s.params.accelOut d) :=
  .after_test (accelFactor_set h) (.after_test (parameters_apply s) ((readAccelRaw_fails hd).failsFrom.left _))

/-- A snapshot fails in one of its three reads, unwrapped also in the last (R217, R235). -/
theorem readSnapshot_failsFrom {g a m : List Byte} {s1 s2 : Byte} (hg : s.sfGyro = some sfg) (ha : s.sfAccel = some sfa)
    (hgl : g.length = 6) (hal : a.length = 6) (hml : m.length = 6) (h1 : dataReady s.params s1 = true) :
    FailsFrom s readSnapshot (snapshotMainEvents s.params g a ++ magEvents s.params s1 m s2) := by
  rw [snapshotMainEvents, List.append_assoc]
  refine .after_test (gyroFactor_set hg) (.after_test (accelFactor_set ha) ?_)
  refine .bind (fun _ => readGyroScaled_apply hg hgl) (readGyroScaled_failsFrom hg hgl) fun t => ?_
  refine .bind (s := s.advance _ t) (fun _ => readAccelScaled_apply (s := s.advance _ t) ha hal)
    (readAccelScaled_failsFrom (s := s.advance _ t) ha hal) fun t' => ?_
  exact FailsFrom.left (s := (s.advance _ t).advance _ t')
    (Fails.failsFrom (readMagInSnapshot_fails (readMagScaled_fails hml h1))) _

end

/-! ### The initializations -/

section
variable {p : Params} {vs rs : List Byte} {gs as : List (List Byte)} {old : Axis3 (List Byte)} {tg : Byte}

/-- `InitMain` up to its gyroscope range selection, which stores a factor only after its last access (R160, R192). -/
theorem initMain_fails (h : InitMainAnswers p vs rs gs as old) :
    Fails initMain p (initMainEventsBeforeAccel p vs rs gs as old tg) := by
  obtain ⟨hn, hv, hrs, hg, hg6, ha, ha6, hold⟩ := h
  rw [initMain_eq, initMainEventsBeforeAccel, List.append_assoc, List.append_assoc, List.append_assoc]
  exact Fails.parameters (.bind (identityMain_runs hv hn) (.bind (runSteps_runs _ rs hrs) (.bind (calGyro_runs hg hg6)
    (.bind (calAccel_runs ha ha6 hold) ((selectGyroRange_fails _ tg).left _)))))

/-- `InitMain` past its gyroscope range selection: the factor is stored, and the accelerometer's selection is left (R160). -/
theorem initMain_beforeAccel {s : State} {m : Env} (h : InitMainAnswers s.params vs rs gs as old)
    (hrun : s.env.run s.params (initMainEventsBeforeAccel s.params vs rs gs as old tg) = some m) :
    initMain s =
      selectAccelRange s.params.initAccelRange
        ((s.advance (initMainEventsBeforeAccel s.params vs rs gs as old tg) m).setSfGyro
          (s.params.gyroSf.get s.params.initGyroRange)) := by
  obtain ⟨hn, hv, hrs, hg, hg6, ha, ha6, hold⟩ := h
  obtain ⟨m4, hrun, h5⟩ := Env.run_split hrun
  obtain ⟨m3, hrun, h4⟩ := Env.run_split hrun
  obtain ⟨m2, hrun, h3⟩ := Env.run_split hrun
  obtain ⟨m1, h1, h2⟩ := Env.run_split hrun
  rw [initMain_eq, Op.bind_ok s (parameters_apply s), Op.bind_ok s (identityMain_performs hv hn s m1 rfl h1),
    Op.bind_ok _ (runSteps_performs _ rs hrs (s.advance _ m1) m2 rfl h2), State.advance_advance,
    Op.bind_ok _ (calGyro_performs hg hg6 (s.advance _ m2) m3 rfl h3), State.advance_advance,
    Op.bind_ok _ (calAccel_performs ha ha6 hold (s.advance _ m3) m4 rfl h4), State.advance_advance,
    Op.bind_ok _ (selectGyroRange_apply (s := s.advance _ m4) _ tg h5), State.advance_advance]
  rfl

theorem State.setSfGyro_advance (s : State) (q : Ratio) (es : List Event) (e : Env) :
    (s.setSfGyro q).advance es e = (s.advance es e).setSfGyro q := rfl

/-- `InitMain` failing in its accelerometer range selection leaves the gyroscope's factor stored (R160, R168). -/
theorem initMain_fails_inAccel {s : State} {n : Nat} {e : Env} {left : Bool} {ta : Byte} {ev : Event}
    (h : InitMainAnswers s.params vs rs gs as old)
    (hn : (initMainEventsBeforeAccel s.params vs rs gs as old tg).length ≤ n)
    (hf : FailsAt s (initMainEvents s.params vs rs gs as old tg ta) n e left ev) :
    initMain s =
      (.error .busError,
        (s.advance ((initMainEvents s.params vs rs gs as old tg ta).take n ++ failureEvents left ev)
          (e.afterFailure s.params left ev)).setSfGyro (s.params.gyroSf.get s.params.initGyroRange)) := by
  obtain ⟨m, hrun, hrun', hstep, hrep⟩ := hf.later hn
  have hsel := selectAccelRange_fails s.params.initAccelRange ta
    ((s.advance (initMainEventsBeforeAccel s.params vs rs gs as old tg) m).setSfGyro
      (s.params.gyroSf.get s.params.initGyroRange)) _ e left ev rfl ⟨hrun', hstep, hrep⟩
  rw [initMain_beforeAccel h hrun, hsel, initMainEvents, List.take_append, List.take_of_length_le hn, List.append_assoc]
  rw [State.setSfGyro_advance, State.advance_advance]
  rfl

end

/-- Two step lists at the end of an operation. -/
theorem runSteps_append_end (xs ys : List MicroOp) :
    (runSteps xs >>= fun _ => runSteps ys) = runSteps (xs ++ ys) := by
  simpa using runSteps_append xs ys (pure ())

/-- `InitBridgeDevice` with its step lists joined before and after the identity check (R165). -/
theorem initBridgeDevice_eq :
    initBridgeDevice = (do
      let p ← parameters
      runSteps (stepsBeforeIdentity p.initMagSteps)
      identityMag p.idRetryMax
      runSteps (stepsAfterIdentity p.initMagSteps)) := by
  simp only [initBridgeDevice, runSteps_append, runSteps_append_end, stepsBeforeIdentity, stepsAfterIdentity,
    List.append_assoc]

theorem initBridgeDevice_runs {p : Params} {vs rs rs' : List Byte} (hn : vs.length < p.idRetryMax)
    (hv : ∀ v ∈ vs, v ≠ p.magId.value) (hr : rs.length = readsOf (stepsBeforeIdentity p.initMagSteps))
    (hr' : rs'.length = readsOf (stepsAfterIdentity p.initMagSteps)) :
    Runs initBridgeDevice p (initBridgeEvents p vs rs rs') () := by
  rw [initBridgeDevice_eq, initBridgeEvents, List.append_assoc, List.append_assoc,
    ← List.append_assoc (magMismatchEvents p vs)]
  exact .after_check .parameters ((runSteps_runs _ rs hr).bind ((identityMag_runs hv hn).bind (runSteps_runs _ rs' hr')))

/-! ### Every bus step of the operations made of register accesses -/

/-- A failure at any bus step of `SELECT_BANK` or of a composite operation ends it there (R112, R235). -/
theorem IsRun.exec_fails {s : State} {i : Instr} {es : List Event} {n : Nat} {e : Env} {left : Bool} {ev : Event}
    (h : IsRun s i es) (hr : s.ready) (hf : FailsAt s es n e left ev) :
    exec i s =
      .next ((s.advance (es.take n ++ failureEvents left ev) (e.afterFailure s.params left ev)).send busErrorPacket) := by
  cases h with
  | selectBank b => exact issue_fails (.after_check (bankOperand_performs b) ((selectBank_runs b).fails.left _)) hr hf
  | bridgeRead f r len rx hl h =>
    exact issue_fails (.after_check (addrOperand_performs f) (.after_check .parameters
      (.after_check (burstOperand_performs hl) (bridgeRead_runs f r h).fails))) hr hf
  | bridgeWrite f r v =>
    exact issue_fails (.after_check (addrOperand_performs f) ((bridgeWrite_runs f r v).fails.left _)) hr hf
  | initMain vs rs gs as old tg h => exact issue_fails ((initMain_fails h).left _) hr hf
  | initBridgeDevice vs rs rs' hn hv hrs hrs' =>
    exact issue_fails ((initBridgeDevice_runs hn hv hrs hrs').fails.left _) hr hf
  | calGyro ds h h6 => exact issue_fails ((calGyro_runs h h6).fails.left _) hr hf
  | calAccel ds old h h6 h2 => exact issue_fails ((calAccel_runs h h6 h2).fails.left _) hr hf
  | selectGyroRange r v =>
    exact issue_fails (.after_check (rangeOperand_performs r) ((selectGyroRange_fails r v).left _)) hr hf
  | selectAccelRange r v =>
    exact issue_fails (.after_check (rangeOperand_performs r) ((selectAccelRange_fails r v).left _)) hr hf
  | readGyroRaw d h => exact issue_fails ((readGyroRaw_fails h).left _) hr hf
  | readAccelRaw d h => exact issue_fails ((readAccelRaw_fails h).left _) hr hf
  | readGyroScaled d h hsf =>
    obtain ⟨sf, hsf⟩ := Option.ne_none_iff_exists'.1 hsf
    exact issue_failsFrom ((readGyroScaled_failsFrom (s := s.setSeq .busy) hsf h).left _) hr hf
  | readAccelScaled d h hsf =>
    obtain ⟨sf, hsf⟩ := Option.ne_none_iff_exists'.1 hsf
    exact issue_failsFrom ((readAccelScaled_failsFrom (s := s.setSeq .busy) hsf h).left _) hr hf
  | readMagScaled s1 m s2 h h1 =>
    exact issue_fails ((readMagScaled_fails h (decide_eq_true h1)).left _) hr hf
  | readSnapshot g a s1 m s2 hg ha h hsfg hsfa h1 =>
    obtain ⟨sfg, hsfg⟩ := Option.ne_none_iff_exists'.1 hsfg
    obtain ⟨sfa, hsfa⟩ := Option.ne_none_iff_exists'.1 hsfa
    exact issue_failsFrom
      (readSnapshot_failsFrom (s := s.setSeq .busy) hsfg hsfa hg ha h (decide_eq_true h1)) hr hf

/-! ### The statements -/

/-- Settles O22: the bank-select frame, with the operand legal. -/
theorem selectBankSends : Obligations.SelectBankSends := fun _ _ b hr hrun => (selectBank_issuesRun b).completes hr hrun

/-- Settles O23: the bank-select frame, then a read frame of one byte. -/
theorem readU8Reads : Obligations.ReadU8Reads := fun _ _ b a v hr hrun => (readU8_issuesRun b a v).completes hr hrun

/-- Settles O24: the bank-select frame, then a write frame of one byte. -/
theorem writeU8Writes : Obligations.WriteU8Writes := fun _ _ b a v hr hrun => (writeU8_issuesRun b a v).completes hr hrun

/-- Settles O25: the burst is legal, so the read frame answers all of its bytes. -/
theorem readBytesReads : Obligations.ReadBytesReads := fun _ _ b a _ _ hr hburst hrx hrun =>
  (readBytes_issuesRun b a hburst hrx).completes hr hrun

/-- Settles O26: the burst is legal, so the write frame sends all of its bytes. -/
theorem writeBytesWrites : Obligations.WriteBytesWrites := fun _ _ b a _ hr hburst hrun =>
  (writeBytes_issuesRun b a hburst).completes hr hrun

/-- Settles O27. The events of an access are cut at its failing step; the bytes it would have received from there on do not
matter, so zeros stand for them. A composite operation fails in the one of its accesses that holds the failing step. -/
theorem accessFailureEndsTheOperation : Obligations.AccessFailureEndsTheOperation := by
  refine ⟨fun s e i b tx m k hk left ha hr hrun hrep => ?_, fun s e i b tx m k hk left ha hr hrun hrep => ?_,
    fun s e i b tx m rx left ha hr hm hrun hrep => ?_, fun s e i es n left ev h hr hf => h.exec_fails hr hf,
    fun s e es vs rs gs as old tg ta n left ev hr h hes hn hf => ?_⟩
  · obtain ⟨payload, hi⟩ := ha.issuesRun (rx := List.replicate m 0x00#8) List.length_replicate
    rw [selectEvents, frameEvents_cut_tx _ _ hk, List.append_assoc, List.cons_append] at hi
    exact hi.fails_after hr hrun rfl hrep
  · obtain ⟨payload, hi⟩ := ha.issuesRun (rx := List.replicate m 0x00#8) List.length_replicate
    rw [frameEvents_cut_tx tx _ hk, ← List.append_assoc] at hi
    exact hi.fails_after hr hrun rfl hrep
  · have hrx : (rx ++ 0x00#8 :: List.replicate (m - rx.length - 1) 0x00#8).length = m := by
      simp only [List.length_append, List.length_cons, List.length_replicate]
      omega
    obtain ⟨payload, hi⟩ := ha.issuesRun hrx
    rw [frameEvents_cut_rx, ← List.append_assoc] at hi
    exact hi.fails_after hr hrun rfl hrep
  · subst hes
    exact issue_busError hr (Op.bind_error _ (initMain_fails_inAccel (s := s.setSeq .busy) h hn (hf.setSeq .busy)))
      (csAfter_failureEvents _ _ _ _) hr.1

end Sys2Proof.Machine
end

section
/-! Proofs of `Obligations.BridgeReadRelays`, `BridgeWriteRelays` and `RelayedAccessCost` (42_bridge_access.md R141 to R148).

The two completions are `IssuesRun`, as for the register accesses. The cost needs the converse: `Emits` says which events an
operation that has succeeded must have appended, whatever the environment answered. -/

namespace Sys2Proof.Machine

/-! ### Relayed accesses with a known run -/

theorem bridgeRead_issuesRun {p : Params} (f : Addr7) (r : Byte) {len : Byte} {rx : List Byte}
    (hburst : legalBurst p p.relayReg.toNat len.toNat = true) (hrx : rx.length = len.toNat) :
    IssuesRun (.bridgeRead (addrByte f) r len) p (bridgeReadEvents p f r rx) rx :=
  ⟨_, fun _ => rfl, .after_check (addrOperand_performs f) (.after_check .parameters
    (.after_check (burstOperand_performs hburst) (bridgeRead_runs f r hrx)))⟩

theorem bridgeWrite_issuesRun {p : Params} (f : Addr7) (r v : Byte) :
    IssuesRun (.bridgeWrite (addrByte f) r v) p (bridgeWriteEvents p f r v) [] :=
  ⟨_, fun _ => rfl, .after_check (addrOperand_performs f) ((bridgeWrite_runs f r v).bind_pure (.pure []))⟩

/-! ### What an operation that succeeded has emitted -/

/-- With parameters `p`, the operation, if it succeeds, has kept them and has appended events as `Q` says. -/
def Emits {α : Type} (p : Params) (Q : α → List Event → Prop) (op : Op α) : Prop :=
  ∀ s a t, s.params = p → op s = (.ok a, t) → t.params = p ∧ ∃ es, Q a es ∧ t.tr = s.tr ++ es

section
variable {α β : Type} {p : Params} {Q : α → List Event → Prop} {Q' : β → List Event → Prop}

theorem Emits.mono {P : α → List Event → Prop} {op : Op α} (h : Emits p P op) (hQ : ∀ a es, P a es → Q a es) :
    Emits p Q op := fun s a t hp hop =>
  have ⟨hkept, es, hes, htr⟩ := h s a t hp hop
  ⟨hkept, es, hQ a es hes, htr⟩

theorem Emits.pure {a : α} (h : Q a []) : Emits p Q (pure a : Op α) := by
  rintro s _ _ hp ⟨⟩
  exact ⟨hp, [], h, (List.append_nil _).symm⟩

theorem Emits.bind {op : Op α} {f : α → Op β} (h : Emits p Q op)
    (h' : ∀ a es, Q a es → Emits p (fun b fs => Q' b (es ++ fs)) (f a)) : Emits p Q' (op >>= f) := by
  intro s b u hp hop
  rw [Op.bind_apply] at hop
  rcases hx : op s with ⟨_ | a, t⟩ <;> rw [hx] at hop
  · cases hop
  · obtain ⟨hpt, es, hes, htr⟩ := h s a t hp hx
    obtain ⟨hpu, fs, hfs, htr'⟩ := h' a es hes t b u hpt hop
    exact ⟨hpu, es ++ fs, hfs, by rw [htr', htr, List.append_assoc]⟩

/-- An operation after one whose events are known to be `xs`. -/
theorem Emits.after {xs : List Event} {op : Op α} {f : α → Op β} (h : Emits p (fun _ es => es = xs) op)
    (h' : ∀ a, Emits p (fun b fs => Q' b (xs ++ fs)) (f a)) : Emits p Q' (op >>= f) :=
  h.bind fun a _ hes => hes ▸ h' a

/-- No operation changes the parameters (R28), so the ones read are `p`. -/
theorem Emits.parameters {f : Params → Op β} (h : Emits p Q' (f p)) : Emits p Q' (parameters >>= f) := by
  intro s b t hp hop
  rw [Op.bind_ok s (parameters_apply s), hp] at hop
  exact h s b t hp hop

/-- An operand check emits nothing (R100). -/
theorem Emits.check {op : Op α} {e : Error} (h : ∀ s, (∃ a, op s = (.ok a, s)) ∨ op s = (.error e, s.closeFrame)) :
    Emits p (fun _ es => es = []) op := by
  intro s a t hp hop
  rcases h s with ⟨a', h⟩ | h <;> rw [h] at hop <;> cases hop
  exact ⟨hp, [], rfl, (List.append_nil _).symm⟩

/-- How an operation may end, for one that keeps the parameters. -/
theorem Answers.emits {E : Error → Prop} {op : Op α} (h : Answers Q E op) (hcalm : Calm op) : Emits p Q op := by
  intro s a t hp hop
  have hends := h s
  have hkept := (hcalm.contained s).params
  rw [hop] at hends hkept
  cases hends with
  | ok ha _ htr => exact ⟨hkept.trans hp, _, ha, htr⟩

end

section
variable {p : Params}

theorem delay_emits (d : Nat) : Emits p (fun _ es => es = delayEvents d) (delay d) := by
  have hanswers : Answers (fun _ es => es = delayEvents d) (fun _ => True) (delay d) := by
    unfold delay delayEvents
    split
    · exact .pure rfl
    · exact emit_answers _
  exact hanswers.emits (delay_calm d)

theorem readFrame_emits (a : Addr7) (m : Nat) :
    Emits p (fun rx es => rx.length = m ∧ es = frameEvents [0x80#8 ||| a.setWidth 8] rx) (readFrame a m) :=
  (frame_answers (E := fun _ => True) trivial _ m).emits (readFrame_calm a m)

theorem writeFrame_emits (a : Addr7) (data : List Byte) :
    Emits p (fun _ es => es = frameEvents (a.setWidth 8 :: data) []) (writeFrame a data) := by
  refine ((frame_answers (E := fun _ => True) trivial _ 0).emits (frame_calm _ 0)).bind fun rx es ⟨hrx, hes⟩ => .pure ?_
  rw [hes, List.length_eq_zero_iff.1 hrx, List.append_nil]
  rfl

theorem selectBank_emits (b : Bank) : Emits p (fun _ es => es = selectEvents p b) (selectBank b) :=
  .parameters (writeFrame_emits _ _)

theorem readBytes_emits (r : RegAddr) (n : Nat) :
    Emits p (fun rx es => rx.length = n ∧ es = readEvents p r rx) (readBytes r n) :=
  (selectBank_emits r.bank).after fun _ => (readFrame_emits r.reg n).mono fun _ _ ⟨hrx, hes⟩ => ⟨hrx, by rw [hes]; rfl⟩

theorem writeU8_emits (r : RegAddr) (v : Byte) : Emits p (fun _ es => es = writeEvents p r [v]) (writeU8 r v) :=
  (selectBank_emits r.bank).after fun _ => (writeFrame_emits r.reg [v]).mono fun _ _ hes => by rw [hes]; rfl

/-- A relayed read that succeeds has done the six steps of R141. -/
theorem bridgeRead_emits (f : Addr7) (r : Byte) (n : Nat) :
    Emits p (fun rx es => rx.length = n ∧ es = bridgeReadEvents p f r rx) (bridgeReadBytes f r n) := by
  refine .parameters ((writeU8_emits _ _).after fun _ => (writeU8_emits _ _).after fun _ => (delay_emits _).after fun _ =>
    (writeU8_emits _ _).after fun _ => (delay_emits _).after fun _ => (readBytes_emits _ n).mono ?_)
  rintro rx _ ⟨rfl, rfl⟩
  simp [bridgeReadEvents, followerReadByte, controlByte]

/-- A relayed write that succeeds has done the six steps of R145. -/
theorem bridgeWrite_emits (f : Addr7) (r v : Byte) :
    Emits p (fun _ es => es = bridgeWriteEvents p f r v) (bridgeWriteByte f r v) := by
  refine .parameters ((writeU8_emits _ _).after fun _ => (writeU8_emits _ _).after fun _ => (writeU8_emits _ _).after fun _ =>
    (delay_emits _).after fun _ => (writeU8_emits _ _).after fun _ => (delay_emits _).mono ?_)
  rintro _ _ rfl
  simp [bridgeWriteEvents, followerWriteByte, controlByte]

end

/-! ### Issued -/

section
variable {s t : State}

/-- An operation issued and answered `OK` has succeeded (R97). -/
theorem issue_emits {op : Op (List Byte)} {Q : List Byte → List Event → Prop} (hcalm : Calm op)
    (h : issue op s = .next t) (hok : succeeded s t) (hop : Emits s.params Q op) :
    ∃ payload es, Q payload es ∧ t.tr = s.tr ++ es := by
  obtain ⟨-, rfl⟩ := issue_next h
  obtain ⟨payload, hok⟩ := hok
  have hkept := (hcalm.contained (s.setSeq .busy)).responses
  rcases hend : op (s.setSeq .busy) with ⟨e | result, u⟩ <;> rw [hend] at hok hkept
  · have hresp : u.closeFrame.responses = s.responses := (kept_closeFrame u).responses.trans hkept
    replace hok : u.closeFrame.responses ++ [errorPacket e] = _ := hok
    rw [hresp, List.append_cancel_left_eq, List.singleton_inj] at hok
    exact absurd hok (errorPacket_ne_ok e payload)
  · obtain ⟨-, es, hes, htr⟩ := hop (s.setSeq .busy) _ _ rfl hend
    exact ⟨result, es, hes, htr⟩

theorem exec_bridgeRead_emits {f r len : Byte} (h : exec (.bridgeRead f r len) s = .next t) (hok : succeeded s t) :
    ∃ a rx, t.tr = s.tr ++ bridgeReadEvents s.params a r rx := by
  have hcalm := (addrOperand_calm f).bind fun a => Calm.parameters.bind fun p =>
    (burstOperand_calm p.relayReg len.toNat).bind fun _ => bridgeRead_calm a r len.toNat
  obtain ⟨rx, _, ⟨a, rfl⟩, htr⟩ := issue_emits (Q := fun rx es => ∃ a, es = bridgeReadEvents s.params a r rx) hcalm h hok <|
    (Emits.check (addrOperand_apply f)).after fun a => .parameters
      ((Emits.check fun s => (burstOperand_apply _ _ s).imp_left fun h => ⟨(), h⟩).after fun _ =>
        (bridgeRead_emits a r len.toNat).mono fun _ _ ⟨_, hes⟩ => ⟨a, hes⟩)
  exact ⟨a, rx, htr⟩

theorem exec_bridgeWrite_emits {f r v : Byte} (h : exec (.bridgeWrite f r v) s = .next t) (hok : succeeded s t) :
    ∃ a, t.tr = s.tr ++ bridgeWriteEvents s.params a r v := by
  have hcalm := (addrOperand_calm f).bind fun a => (bridgeWrite_calm a r v).bind_empty
  obtain ⟨_, _, ⟨a, rfl⟩, htr⟩ := issue_emits (Q := fun _ es => ∃ a, es = bridgeWriteEvents s.params a r v) hcalm h hok <|
    (Emits.check (addrOperand_apply f)).after fun a => (bridgeWrite_emits a r v).after fun _ => .pure ⟨a, by simp⟩
  exact ⟨a, htr⟩

end

/-! ### What the events cost -/

section
variable (p : Params) (r : RegAddr) (es : List Event)

@[simp] theorem framesOf_nil : framesOf [] = [] := rfl

/-- A register access is two frames: the bank select and its own (R148). -/
@[simp] theorem framesOf_writeEvents_length (data : List Byte) :
    (framesOf (writeEvents p r data ++ es)).length = (framesOf es).length + 2 := by
  simp [writeEvents, selectEvents, framesOf_frameEvents]

@[simp] theorem framesOf_readEvents_length (rx : List Byte) :
    (framesOf (readEvents p r rx ++ es)).length = (framesOf es).length + 2 := by
  simp [readEvents, selectEvents, framesOf_frameEvents]

@[simp] theorem framesOf_delayEvents (d : Nat) : framesOf (delayEvents d ++ es) = framesOf es := by
  unfold delayEvents
  split <;> rfl

@[simp] theorem delaysOf_append (fs : List Event) : delaysOf (es ++ fs) = delaysOf es ++ delaysOf fs :=
  List.filterMap_append

@[simp] theorem delaysOf_frameEvents (tx rx : List Byte) : delaysOf (frameEvents tx rx) = [] := by
  simp [frameEvents, delaysOf]

@[simp] theorem delaysOf_writeEvents (data : List Byte) : delaysOf (writeEvents p r data) = [] := by
  simp [writeEvents, selectEvents]

@[simp] theorem delaysOf_readEvents (rx : List Byte) : delaysOf (readEvents p r rx) = [] := by
  simp [readEvents, selectEvents]

/-- A delay of 0 leaves no event (R13). -/
@[simp] theorem delaysOf_delayEvents (d : Nat) : delaysOf (delayEvents d) = [d].filter (fun d => d ≠ 0) := by
  unfold delayEvents
  split <;> simp [delaysOf, *]

end

section
variable (p : Params) (f : Addr7) (r : Byte)

theorem framesOf_bridgeReadEvents_length (rx : List Byte) (es : List Event) :
    (framesOf (bridgeReadEvents p f r rx ++ es)).length = (framesOf es).length + 8 := by
  simp [bridgeReadEvents]

theorem delaysOf_bridgeReadEvents (rx : List Byte) :
    delaysOf (bridgeReadEvents p f r rx) = [p.tBr1, p.tBr2].filter (fun d => d ≠ 0) := by
  simp [bridgeReadEvents, ← List.filter_append]

theorem framesOf_bridgeWriteEvents_length (v : Byte) (es : List Event) :
    (framesOf (bridgeWriteEvents p f r v ++ es)).length = (framesOf es).length + 8 := by
  simp [bridgeWriteEvents]

theorem delaysOf_bridgeWriteEvents (v : Byte) :
    delaysOf (bridgeWriteEvents p f r v) = [p.tBr1, p.tBr2].filter (fun d => d ≠ 0) := by
  simp [bridgeWriteEvents, ← List.filter_append]

end

/-! ### The statements -/

/-- Settles O28: the operands legal, then the six steps of a relayed read. -/
theorem bridgeReadRelays : Obligations.BridgeReadRelays := fun _ _ f r _ _ hr hburst hrx hrun =>
  (bridgeRead_issuesRun f r hburst hrx).completes hr hrun

/-- Settles O29: the follower address legal, then the six steps of a relayed write. -/
theorem bridgeWriteRelays : Obligations.BridgeWriteRelays := fun _ _ f r v hr hrun =>
  (bridgeWrite_issuesRun f r v).completes hr hrun

/-- Settles O30: an access that succeeded has emitted the events of R141 or R145, whatever the environment answered, and
those hold four register accesses and the two waits. -/
theorem relayedAccessCost : Obligations.RelayedAccessCost := by
  rintro s t i (⟨f, r, len, rfl⟩ | ⟨f, r, v, rfl⟩) h hok
  · obtain ⟨a, rx, htr⟩ := exec_bridgeRead_emits h hok
    refine ⟨_, htr, ?_, delaysOf_bridgeReadEvents _ _ _ _⟩
    simpa using framesOf_bridgeReadEvents_length s.params a r rx []
  · obtain ⟨a, htr⟩ := exec_bridgeWrite_emits h hok
    refine ⟨_, htr, ?_, delaysOf_bridgeWriteEvents _ _ _ _⟩
    simpa using framesOf_bridgeWriteEvents_length s.params a r v []

end Sys2Proof.Machine
end

section
/-! Proofs of `Obligations.InitMainCompletes`, `InitBridgeDeviceCompletes` and `IdentityIsBounded`
(43_initialization.md R156 to R168).

`INIT_MAIN` stores both factors, so it has no `Performs`: its completion is `initMain_apply`, issued. `INIT_BRIDGE_DEVICE`
stores none and is an `IssuesRun`. An exhausted identity check is a `Raises`, which ends the sequence it stands in. -/

namespace Sys2Proof.Machine

section
variable {s t : State} {e : Env} {vs rs : List Byte} {v : Byte}

/-- An operation that succeeds, issued: the state it leaves sends the response and is idle again (R24, R97). -/
theorem issue_completes {op : Op (List Byte)} {payload : List Byte} (hr : s.ready)
    (hop : op (s.setSeq .busy) = (.ok payload, t.setSeq .busy)) (hseq : t.seq = .idle) :
    issue op s = .next (t.send (okStatus :: payload)) := by
  rw [issue_ok hr hop]
  cases t
  subst hseq
  rfl

/-- `INIT_BRIDGE_DEVICE` when nothing fails (R165). -/
theorem initBridgeDevice_issuesRun {p : Params} {rs' : List Byte} (hn : vs.length < p.idRetryMax)
    (hv : ∀ v ∈ vs, v ≠ p.magId.value) (hr : rs.length = readsOf (stepsBeforeIdentity p.initMagSteps))
    (hr' : rs'.length = readsOf (stepsAfterIdentity p.initMagSteps)) :
    IssuesRun .initBridgeDevice p (initBridgeEvents p vs rs rs') [] :=
  ⟨_, fun _ => rfl, (initBridgeDevice_runs hn hv hr hr').bind_pure (.pure [])⟩

/-- `InitMain` with every identity read mismatching ends in its identity check: no step of the sequence runs (R160, R168). -/
theorem initMain_raises {p : Params} (hn : vs.length + 1 = p.idRetryMax) (hvs : ∀ w ∈ vs, w ≠ p.mainId.value)
    (hv : v ≠ p.mainId.value) :
    Raises initMain p (mainMismatchEvents p vs ++ readEvents p p.mainId.addr [v]) (.deviceNotFound .main) := by
  have hid := identityMain_raises hvs hv
  rw [hn] at hid
  exact Performs.parameters.bind_nil_raises hid.bind

/-- `InitBridgeDevice` with every identity read mismatching ends in its identity check, after the three steps before it
(R165, R168). -/
theorem initBridgeDevice_raises {p : Params} (hn : vs.length + 1 = p.idRetryMax) (hvs : ∀ w ∈ vs, w ≠ p.magId.value)
    (hv : v ≠ p.magId.value) (hrs : rs.length = readsOf (stepsBeforeIdentity p.initMagSteps)) :
    Raises initBridgeDevice p
      (stepEvents p (stepsBeforeIdentity p.initMagSteps) rs ++ magMismatchEvents p vs ++
        bridgeReadEvents p p.magAddr p.magId.reg [v])
      (.deviceNotFound .magnetometer) := by
  have hid := identityMag_raises hvs hv
  rw [hn] at hid
  rw [initBridgeDevice_eq, List.append_assoc]
  exact Performs.parameters.bind_nil_raises ((runSteps_performs _ rs hrs).bind_raises hid.bind)

end

/-! ### The statements -/

/-- Settles O31: the run of `InitMain` (`initMain_apply`), issued. -/
theorem initMainCompletes : Obligations.InitMainCompletes := by
  intro s e vs rs gs as old tg ta hr hn hv hrs hg hg6 ha ha6 hold hrun
  have hinit := initMain_apply (s := s.setSeq .busy) hn hv hrs hg hg6 ha ha6 hold hrun
  exact issue_completes hr (Op.bind_ok _ hinit) hr.1

/-- Settles O32: the steps, the identity check with its match, and the steps after it, with no factor written. -/
theorem initBridgeDeviceCompletes : Obligations.InitBridgeDeviceCompletes :=
  fun _ _ _ _ _ hr hn hv hrs hrs' hrun => (initBridgeDevice_issuesRun hn hv hrs hrs').completes hr hrun

/-- Settles O33: an exhausted identity check raises, and its last access, a read, has closed its frame. -/
theorem identityIsBounded : Obligations.IdentityIsBounded := by
  refine ⟨fun s e vs v hr hn hvs hv hrun => ?_, fun s e vs v rs hr hn hvs hv hrs hrun => ?_⟩
  · refine issue_raises (initMain_raises hn hvs hv).bind rfl hr hrun ?_
    rw [csAfter_append, csAfter_readEvents]
  · refine issue_raises (initBridgeDevice_raises hn hvs hv hrs).bind rfl hr hrun ?_
    rw [csAfter_append, csAfter_bridgeReadEvents]

end Sys2Proof.Machine
end

section
/-! Proofs of `Obligations.CalGyroCompletes`, `CalAccelCompletes`, `GyroOffsetRange`, `AccelOffsetArithmetic` and
`ReservedBitPreserved` (44_calibration.md R176 to R183).

The two completions are `IssuesRun`. The ranges of R178 come from one bound on a sum of samples, since the truncated divisions
keep the order. The reserved bit needs the converse of a completion: `calAccel_emits` says that a calibration that has succeeded
has emitted `calAccelEvents` of some samples and some existing pairs, and `lowBitOf_toNat` gives bit 0 of a written low byte. -/

namespace Sys2Proof.Machine

/-! ### Completion -/

section
variable {p : Params} {ds : List (List Byte)}

theorem calGyro_issuesRun (hn : ds.length = p.calSamples) (h6 : ∀ d ∈ ds, d.length = 6) :
    IssuesRun .calGyro p (calGyroEvents p ds) [] :=
  ⟨_, fun _ => rfl, (calGyro_runs hn h6).bind_pure (.pure [])⟩

theorem calAccel_issuesRun {old : Axis3 (List Byte)} (hn : ds.length = p.calSamples) (h6 : ∀ d ∈ ds, d.length = 6)
    (h2 : ∀ d ∈ old.toList, d.length = 2) : IssuesRun .calAccel p (calAccelEvents p ds old) [] :=
  ⟨_, fun _ => rfl, (calAccel_runs hn h6 h2).bind_pure (.pure [])⟩

end

/-! ### Sums of samples -/

/-- Two bytes assembled are a raw sample (R10). -/
theorem isSample_s16 (high low : Byte) : isSample (s16 high low) :=
  ⟨BitVec.le_toInt (high ++ low), Int.lt_add_one_iff.1 (BitVec.toInt_lt (x := high ++ low))⟩

theorem isSample_axisBig (d : List Byte) : ∀ v ∈ (axisBig d).toList, isSample v := by
  simp [axisBig, Axis3.toList, isSample_s16]

/-- `n` samples sum to at least `n` times the least and at most `n` times the greatest of them. -/
theorem sampleSum_bounds (ds : List (List Byte)) :
    ∀ sum ∈ (sampleSum ds).toList, -32768 * (ds.length : Int) ≤ sum ∧ sum ≤ 32767 * ds.length := by
  induction ds with
  | nil => simp [sampleSum, Axis3.toList]
  | cons d ds ih =>
    have hd := isSample_axisBig d
    simp only [sampleSum, Axis3.add, Axis3.toList, List.mem_cons, List.not_mem_nil, or_false, forall_eq_or_imp, forall_eq,
      isSample, List.length_cons] at ih hd ⊢
    omega

/-! ### Offsets as integers -/

theorem u16_toNat (i : Int) : ((u16 i).toNat : Int) = i % 65536 := by
  rw [u16, BitVec.toNat_ofInt]
  omega

/-- A number of 16 bits with its sign is read back from its pattern. -/
theorem u16_toInt {i : Int} (h : isSample i) : (u16 i).toInt = i :=
  BitVec.toInt_ofInt_eq_self (by decide) h.1 (Int.lt_add_one_of_le h.2)

/-- The pair written for a gyroscope axis is the high and the low byte of the offset modulo `2^16` (R55, R177). -/
theorem gyroPair_toNat (p : Params) (sum : Int) :
    (gyroPair p sum).map (fun b => (b.toNat : Int)) =
      [gyroOffset p sum % 65536 / 256, gyroOffset p sum % 65536 % 256] := by
  have hpair := congrArg (List.map (Nat.cast : Nat → Int)) (bigEndianPair_toNat (u16 (gyroOffset p sum)))
  rw [List.map_map] at hpair
  rw [gyroPair, ← u16_toNat]
  exact_mod_cast hpair

section
variable {p : Params} {sum : Int}

/-- The truncated average keeps the order, so it lies between the extreme samples (R178). -/
theorem isSample_sampleAverage (hn : p.calSamples = 100) (hmin : -3276800 ≤ sum) (hmax : sum ≤ 3276700) :
    isSample (sampleAverage p sum) := by
  rw [sampleAverage, tdiv, hn]
  exact ⟨Int.tdiv_le_tdiv (by decide : (0 : Int) < 100) hmin, Int.tdiv_le_tdiv (by decide : (0 : Int) < 100) hmax⟩

/-- The offset of a raw sample: only the least sample reaches 8192 (R178). -/
theorem gyroOffset_bounds (hdiv : p.gyroCalDiv = 4) (havg : isSample (sampleAverage p sum)) :
    -8191 ≤ gyroOffset p sum ∧ gyroOffset p sum ≤ 8192 := by
  obtain ⟨hmin, hmax⟩ := havg
  have hmin' : -32767 ≤ -sampleAverage p sum := by omega
  have hmax' : -sampleAverage p sum ≤ 32768 := by omega
  rw [gyroOffset, tdiv, hdiv]
  exact ⟨Int.tdiv_le_tdiv (by decide : (0 : Int) < 4) hmin', Int.tdiv_le_tdiv (by decide : (0 : Int) < 4) hmax'⟩

end

/-- Read signed or not, a 16-bit pattern is the same number modulo `2^16` (R10). -/
theorem signed16_sub_emod (u : Nat) (k : Int) : (signed16 u - k) % 65536 = ((u : Int) - k) % 65536 := by
  unfold signed16
  split <;> omega

/-- The new value of an accelerometer offset, its pair read signed (R181). -/
theorem accelOffset_toNat (p : Params) (high low : Byte) (sum : Int) :
    ((accelOffset p [high, low] sum).toNat : Int) =
      (signed16 (256 * high.toNat + low.toNat) - Int.tdiv (Int.tdiv sum p.calSamples) p.accelCalDiv) % 65536 := by
  rw [← s16_eq_signed16, ← u16_toNat]
  rfl

/-! ### The reserved bit -/

/-- A byte whose bit 0 is replaced by bit 0 of another one (R89). -/
theorem lowBitOf_toNat (v old : Byte) :
    ((v &&& 0xFE#8) ||| (old &&& 0x01#8)).toNat = v.toNat / 2 * 2 + old.toNat % 2 := by
  have hkeep : (v &&& 0xFE#8).toNat = 2 ^ 1 * (v.toNat / 2) := by decide +revert
  have hbit : (old &&& 0x01#8).toNat = old.toNat % 2 := by rw [BitVec.toNat_and]; exact Nat.and_one_is_mod _
  rw [BitVec.toNat_or, hkeep, hbit, ← Nat.two_pow_add_eq_or_of_lt (by omega)]
  omega

/-- The pair written for an accelerometer axis: the new value's bytes, but for bit 0 of the low one (R181, R183). -/
theorem accelPair_toNat (p : Params) (old : List Byte) (sum : Int) :
    (accelPair p old sum).map BitVec.toNat =
      [(accelOffset p old sum).toNat / 256,
        (accelOffset p old sum).toNat % 256 / 2 * 2 + (byteAt old 1).toNat % 2] := by
  simp only [accelPair, List.map_cons, List.map_nil, highByte_toNat, lowBitOf_toNat, lowByte_toNat]

/-- The pair written for an accelerometer axis: bit 0 of its low byte is the one read, whatever the sum (R183). -/
theorem accelPair_keeps_reserved (p : Params) (old : List Byte) (sum : Int) :
    (byteAt (accelPair p old sum) 1).toNat % 2 = (byteAt old 1).toNat % 2 := by
  have hlow : (byteAt (accelPair p old sum) 1).toNat = _ :=
    lowBitOf_toNat (lowByte (accelOffset p old sum)) (byteAt old 1)
  rw [hlow]
  omega

/-! ### What a calibration that succeeded has emitted -/

section
variable {p : Params}

theorem writeBytes_emits (r : RegAddr) (data : List Byte) :
    Emits p (fun _ es => es = writeEvents p r data) (writeBytes r data) :=
  (selectBank_emits r.bank).after fun _ => (writeFrame_emits r.reg data).mono fun _ _ hes => by rw [hes]; rfl

/-- The delay between two samples, and not after the last (R176). -/
theorem sampleGap_emits (n : Nat) :
    Emits p (fun _ es => es = if n = 0 then [] else delayEvents p.calSampleDelay) (sampleGap n) := by
  unfold sampleGap
  split
  · exact .pure rfl
  · exact .parameters (delay_emits _)

/-- The events of a first sample, of the gap after it and of the other samples (R176). -/
theorem sampleEvents_cons (source : RegAddr) (d : List Byte) (ds : List (List Byte)) :
    sampleEvents p source (d :: ds) =
      readEvents p source d ++ ((if ds.length = 0 then [] else delayEvents p.calSampleDelay) ++ sampleEvents p source ds) := by
  cases ds <;> simp [sampleEvents]

theorem Axis3.add_sampleSum_cons (acc : Axis3 Int) (d : List Byte) (ds : List (List Byte)) :
    (acc.add (axisBig d)).add (sampleSum ds) = acc.add (sampleSum (d :: ds)) := by
  simp [Axis3.add, sampleSum, add_assoc]

/-- Samples that were read answer their sum and have emitted their reads and gaps (R176). -/
theorem sumSamples_emits (source : RegAddr) (n : Nat) (acc : Axis3 Int) :
    Emits p (fun sum es => ∃ ds : List (List Byte), ds.length = n ∧ sum = acc.add (sampleSum ds) ∧
      es = sampleEvents p source ds) (sumSamples source n acc) := by
  induction n generalizing acc with
  | zero => exact .pure ⟨[], rfl, by simp [Axis3.add, sampleSum], rfl⟩
  | succ n ih =>
    refine (readBytes_emits source 6).bind fun d es ⟨_, hes⟩ => (sampleGap_emits n).after fun _ => (ih _).mono ?_
    rintro sum _ ⟨ds, hn, hsum, rfl⟩
    exact ⟨d :: ds, by simp [hn], hsum.trans (Axis3.add_sampleSum_cons acc d ds), by rw [sampleEvents_cons, hes, hn]⟩

/-- A `CalAccel` that succeeds has read its samples and the existing pairs, and has written the pairs computed from them
(R181). -/
theorem calAccel_emits :
    Emits p (fun _ es => ∃ ds old, (∀ d ∈ old.toList, d.length = 2) ∧ es = calAccelEvents p ds old) calAccel := by
  refine .parameters ((sumSamples_emits _ _ _).bind ?_)
  rintro _ _ ⟨ds, -, rfl, rfl⟩
  refine (readBytes_emits _ 2).bind fun ex _ ⟨hx, hxs⟩ => (readBytes_emits _ 2).bind fun ey _ ⟨hy, hys⟩ =>
    (readBytes_emits _ 2).bind fun ez _ ⟨hz, hzs⟩ => (writeBytes_emits _ _).after fun _ =>
      (writeBytes_emits _ _).after fun _ => (writeBytes_emits _ _).mono ?_
  rintro _ _ rfl
  refine ⟨ds, ⟨ex, ey, ez⟩, by simp [Axis3.toList, hx, hy, hz], ?_⟩
  simp [calAccelEvents, hxs, hys, hzs, Axis3.zero_add]

end

/-- A `CAL_ACCEL` that succeeded, whatever the environment answered (R181). -/
theorem exec_calAccel_emits {s t : State} (h : exec .calAccel s = .next t) (hok : succeeded s t) :
    ∃ ds old, (∀ d ∈ old.toList, d.length = 2) ∧ t.tr = s.tr ++ calAccelEvents s.params ds old := by
  obtain ⟨_, _, ⟨ds, old, hold, rfl⟩, htr⟩ := issue_emits
    (Q := fun _ es => ∃ ds old, (∀ d ∈ old.toList, d.length = 2) ∧ es = calAccelEvents s.params ds old)
    calAccel_calm.bind_empty h hok (calAccel_emits.bind fun _ es hes => .pure (by rwa [List.append_nil]))
  exact ⟨ds, old, hold, htr⟩

/-! ### The statements -/

/-- Settles O34: the samples, then the three pairs written blindly. -/
theorem calGyroCompletes : Obligations.CalGyroCompletes := fun _ _ _ hr hn h6 hrun =>
  (calGyro_issuesRun hn h6).completes hr hrun

/-- Settles O35: the samples, the three pairs read, then the three written. -/
theorem calAccelCompletes : Obligations.CalAccelCompletes := fun _ _ _ _ hr hn h6 h2 hrun =>
  (calAccel_issuesRun hn h6 h2).completes hr hrun

/-- Settles O36: the sum of 100 samples is bounded, and the average and the offset with it. -/
theorem gyroOffsetRange : Obligations.GyroOffsetRange := by
  refine ⟨fun p sum => ⟨rfl, gyroPair_toNat p sum⟩, fun p hn hdiv => ⟨fun ds hds sum hsum => ?_, fun sum => ?_, ?_⟩⟩
  · obtain ⟨hmin, hmax⟩ := sampleSum_bounds ds sum hsum
    rw [hds] at hmin hmax
    have havg := isSample_sampleAverage hn hmin hmax
    have hoff := gyroOffset_bounds hdiv havg
    have hneg : -32767 ≤ -sampleAverage p sum ∧ -sampleAverage p sum ≤ 32768 := by
      obtain ⟨hlow, hhigh⟩ := havg
      omega
    exact ⟨⟨hmin, hmax⟩, havg, hneg, hoff, u16_toInt ⟨by omega, by omega⟩⟩
  · rw [gyroOffset, tdiv, hdiv]
    exact Int.neg_tdiv _ _
  · simp only [gyroOffset, sampleAverage, tdiv, hn, hdiv]
    decide

/-- Settles O37: the old value is the signed number of its pair, and a signed number and its pattern agree modulo `2^16`. -/
theorem accelOffsetArithmetic : Obligations.AccelOffsetArithmetic := by
  intro p high low sum old shift new
  have hold : old = ((256 * high.toNat + low.toNat : Nat) : Int) := by simp [old]
  have hnew : (new : Int) = (signed16 old.toNat - shift) % 65536 := by
    rw [hold, Int.toNat_natCast]
    exact accelOffset_toNat p high low sum
  refine ⟨?_, hnew, accelPair_toNat p [high, low] sum⟩
  rw [hnew, signed16_sub_emod, hold, Int.toNat_natCast]

/-- Settles O38: a `CAL_ACCEL` that succeeded has emitted its events (R181), and each pair in them keeps the reserved bit. -/
theorem reservedBitPreserved : Obligations.ReservedBitPreserved := by
  intro s t h hok
  obtain ⟨ds, ⟨ex, ey, ez⟩, hold, htr⟩ := exec_calAccel_emits h hok
  refine ⟨sampleEvents s.params s.params.accelOut ds, ex, ey, ez, accelPair s.params ex (sampleSum ds).x,
    accelPair s.params ey (sampleSum ds).y, accelPair s.params ez (sampleSum ds).z, ?_, ?_⟩
  · simpa only [calAccelEvents, List.append_assoc] using htr
  · simp only [Axis3.toList, List.mem_cons, List.not_mem_nil, or_false, forall_eq_or_imp, forall_eq] at hold ⊢
    obtain ⟨hx, hy, hz⟩ := hold
    exact ⟨⟨hx, rfl, accelPair_keeps_reserved _ _ _⟩, ⟨hy, rfl, accelPair_keeps_reserved _ _ _⟩,
      ⟨hz, rfl, accelPair_keeps_reserved _ _ _⟩⟩

end Sys2Proof.Machine
end

section
/-! Proofs of `Obligations.RangeSelectionsComplete`, `FactorStoredExactlyOnSuccess` and
`RangeSelectionIsIdempotentInItsLookup` (45_scaled_read.md R191 to R194, 60_exceptions.md R234).

The two range selections are one operation over the two modalities (`selectRange`). `SelectionEnd` says once how it may end,
whatever the environment answers: with an error and the factor as it was, or with its accesses made and the divisor stored. -/

namespace Sys2Proof.Machine

/-! ### What a response leaves -/

/-- The packet that answers the result of an operation (R97, R226). -/
def responsePacket : Except Error (List Byte) → List Byte
  | .ok payload => okStatus :: payload
  | .error e => errorPacket e

section
variable (q : Except Error (List Byte) × State)

theorem respond_responses : (respond q).responses = q.2.responses ++ [responsePacket q.1] := by
  obtain ⟨_ | payload, u⟩ := q
  · exact congrArg (· ++ _) (kept_closeFrame u).responses
  · rfl

theorem respond_sfGyro : (respond q).sfGyro = q.2.sfGyro := by
  obtain ⟨_ | payload, u⟩ := q
  · exact (kept_closeFrame u).gyro
  · rfl

theorem respond_sfAccel : (respond q).sfAccel = q.2.sfAccel := by
  obtain ⟨_ | payload, u⟩ := q
  · exact (kept_closeFrame u).accel
  · rfl

/-- The response to a success adds no event. -/
theorem respond_ok_tr (payload : List Byte) (u : State) : (respond (.ok payload, u)).tr = u.tr := rfl

/-- A response with no frame open adds no event. -/
theorem respond_tr_of_high (h : q.2.cs = .high) : (respond q).tr = q.2.tr := by
  obtain ⟨_ | payload, u⟩ := q
  · show u.closeFrame.tr = u.tr
    rw [State.closeFrame_of_high h]
  · rfl

end

/-- An operation sends one response. -/
theorem answeredWith_unique {s t : State} {x y : List Byte} (hx : answeredWith s t x) (hy : answeredWith s t y) : x = y := by
  rw [answeredWith, hx, List.append_cancel_left_eq, List.singleton_inj] at hy
  exact hy

/-! ### The two selections as one -/

/-- The configuration register of a modality (R6). -/
def rangeCfg (p : Params) : Modality → RegAddr
  | .gyroscope => p.gyroCfg
  | .accelerometer => p.accelCfg

/-- The full-scale bits of its configuration register (R6). -/
def rangeMask (p : Params) : Modality → Byte
  | .gyroscope => p.gyroFsMask
  | .accelerometer => p.accelFsMask

/-- The configuration bits of its ranges (R6). -/
def rangeBits (p : Params) : Modality → Four Byte
  | .gyroscope => p.gyroFsBits
  | .accelerometer => p.accelFsBits

/-- The divisors of its ranges (R6). -/
def rangeFactors (p : Params) : Modality → Four Ratio
  | .gyroscope => p.gyroSf
  | .accelerometer => p.accelSf

/-- Its scale-factor register (R22). -/
def State.factor (s : State) : Modality → Option Ratio
  | .gyroscope => s.sfGyro
  | .accelerometer => s.sfAccel

/-- The divisor stored (R192, R194). -/
def State.setFactor (s : State) : Modality → Ratio → State
  | .gyroscope => s.setSfGyro
  | .accelerometer => s.setSfAccel

/-- The accesses of a range selection, of configuration register `cfg`, a mask and the range's bits (R192, R194). -/
def rangeAccess (cfg : RegAddr) (mask bits : Byte) : Op Unit := do
  let t ← readU8 cfg
  writeU8 cfg (mergeBits t (~~~mask) bits)

/-- The range selection of a modality (R192, R194). -/
def selectRange (m : Modality) (r : RangeIx) : Op Unit := do
  let p ← parameters
  rangeAccess (rangeCfg p m) (rangeMask p m) ((rangeBits p m).get r)
  modify fun s => s.setFactor m ((rangeFactors p m).get r)

/-- The range-selection instruction of a modality. -/
def selectInstr : Modality → Byte → Instr
  | .gyroscope => .selectGyroRange
  | .accelerometer => .selectAccelRange

theorem selectRange_gyroscope (r : RangeIx) : selectRange .gyroscope r = selectGyroRange r := by
  simp only [selectRange, rangeAccess, bind_assoc]
  rfl

theorem selectRange_accelerometer (r : RangeIx) : selectRange .accelerometer r = selectAccelRange r := by
  simp only [selectRange, rangeAccess, bind_assoc]
  rfl

theorem exec_selectInstr (m : Modality) (b : Byte) (s : State) :
    exec (selectInstr m b) s = issue (do
      let r ← rangeOperand b
      selectRange m r
      return []) s := by
  cases m
  · simp only [selectRange_gyroscope]
    rfl
  · simp only [selectRange_accelerometer]
    rfl

@[simp] theorem State.setFactor_factor (s : State) (m : Modality) (q : Ratio) : (s.setFactor m q).factor m = some q := by
  cases m <;> rfl
@[simp] theorem State.setFactor_tr (s : State) (m : Modality) (q : Ratio) : (s.setFactor m q).tr = s.tr := by
  cases m <;> rfl
@[simp] theorem State.setFactor_responses (s : State) (m : Modality) (q : Ratio) :
    (s.setFactor m q).responses = s.responses := by
  cases m <;> rfl

theorem respond_factor (q : Except Error (List Byte) × State) (m : Modality) : (respond q).factor m = q.2.factor m := by
  cases m
  · exact respond_sfGyro q
  · exact respond_sfAccel q

theorem SameFactors.factor {s t : State} (h : SameFactors s t) (m : Modality) : t.factor m = s.factor m := by
  cases m
  · exact h.gyro
  · exact h.accel

/-! ### How a selection may end -/

section
variable {p : Params}

/-- A read of one byte that succeeds has done the read of R123. -/
theorem readU8_emits (r : RegAddr) : Emits p (fun v es => es = readEvents p r [v]) (readU8 r) := by
  refine (selectBank_emits r.bank).after fun _ => (readFrame_emits r.reg 1).bind fun rx es ⟨hrx, hes⟩ => .pure ?_
  obtain ⟨v, rfl⟩ := List.length_eq_one_iff.1 hrx
  rw [hes, List.append_nil]
  rfl

variable (cfg : RegAddr) (mask bits : Byte)

theorem rangeAccess_calm : Calm (rangeAccess cfg mask bits) := (readU8_calm cfg).bind fun _ => writeU8_calm cfg _

/-- The accesses of a range selection that have succeeded (R192, R194). -/
theorem rangeAccess_emits :
    Emits p (fun _ es => ∃ v, es = selectRangeEvents p cfg mask bits v) (rangeAccess cfg mask bits) :=
  (readU8_emits cfg).bind fun v _ hread => (writeU8_emits cfg _).mono fun _ _ hwrite => ⟨v, by rw [hread, hwrite]; rfl⟩

end

/-- How a range selection with operand `b` may end: with an error and the factor as it was, or with the operand legal, its
accesses made and the range's divisor stored. -/
inductive SelectionEnd (m : Modality) (b : Byte) (s t : State) : Prop where
  | failed (e : Error) (answered : answeredWith s t (errorPacket e)) (kept : t.factor m = s.factor m)
  | stored (k : RangeIx) (v : Byte) (operand : b = indexByte k) (answered : answeredWith s t [okStatus])
    (factor : t.factor m = some ((rangeFactors s.params m).get k))
    (tr : t.tr = s.tr ++
      selectRangeEvents s.params (rangeCfg s.params m) (rangeMask s.params m) ((rangeBits s.params m).get k) v)

section
variable {m : Modality} {b : Byte} {s t : State}

/-- What a run of an operation that touches no factor has left alone. -/
theorem Calm.of_apply {α : Type} {op : Op α} {r : Except Error α} {u : State} (h : Calm op) (hop : op s = (r, u)) :
    Contained s u ∧ SameFactors s u := by
  have hc := h.contained s
  have hf := h.factors s
  rw [hop] at hc hf
  exact ⟨hc, hf⟩

/-- All that a range selection can do once its operand is legal. -/
theorem selectRange_cases (m : Modality) (r : RangeIx) (s : State) :
    (∃ e u, selectRange m r s = (.error e, u) ∧ Contained s u ∧ SameFactors s u) ∨
    ∃ v u, selectRange m r s = (.ok (), u.setFactor m ((rangeFactors s.params m).get r)) ∧ Contained s u ∧
      u.tr = s.tr ++
        selectRangeEvents s.params (rangeCfg s.params m) (rangeMask s.params m) ((rangeBits s.params m).get r) v := by
  rw [selectRange, Op.bind_ok s (parameters_apply s)]
  rcases hop : rangeAccess (rangeCfg s.params m) (rangeMask s.params m) ((rangeBits s.params m).get r) s with ⟨e | _, u⟩
  · exact .inl ⟨e, u, Op.bind_error s hop, (rangeAccess_calm _ _ _).of_apply hop⟩
  · obtain ⟨hc, -⟩ := (rangeAccess_calm _ _ _).of_apply hop
    obtain ⟨-, _, ⟨v, rfl⟩, htr⟩ := rangeAccess_emits _ _ _ s () u rfl hop
    exact .inr ⟨v, u, Op.bind_ok s hop, hc, htr⟩

/-- An operation that failed having touched no factor, answered. -/
theorem SelectionEnd.respond_error {e : Error} {u : State}
    (h : Contained (s.setSeq .busy) u ∧ SameFactors (s.setSeq .busy) u) : SelectionEnd m b s (respond (.error e, u)) := by
  obtain ⟨hc, hf⟩ := h
  refine .failed e ?_ ?_
  · rw [answeredWith, respond_responses, hc.responses]
    rfl
  · rw [respond_factor, hf.factor]
    cases m <;> rfl

/-- A legal range operand passes its check, which changes nothing (R100). -/
theorem rangeOperand_apply (k : RangeIx) (s : State) : rangeOperand (indexByte k) s = (.ok k, s) := by
  rw [rangeOperand_performs (p := s.params) k s s.env rfl rfl, State.advance_nil]

/-- All that a range-selection instruction can do (R192, R194). -/
theorem exec_selectInstr_ends (h : exec (selectInstr m b) s = .next t) : SelectionEnd m b s t := by
  rw [exec_selectInstr] at h
  obtain ⟨-, rfl⟩ := issue_next h
  cases hb : legalIndex b with
  | false =>
    have hcheck : rangeOperand b _ = _ := rangeOperand_raises hb (s.setSeq .busy) s.env rfl rfl
    rw [Op.bind_error _ hcheck]
    exact .respond_error ((indexOperand_calm b).of_apply hcheck)
  | true =>
    obtain ⟨k, rfl⟩ := eq_indexByte hb
    rw [Op.bind_ok _ (rangeOperand_apply k _)]
    rcases selectRange_cases m k (s.setSeq .busy) with ⟨e, u, hsel, hu⟩ | ⟨v, u, hsel, hc, htr⟩
    · rw [Op.bind_error _ hsel]
      exact .respond_error hu
    · rw [Op.bind_ok _ hsel, Op.pure_apply]
      refine .stored k v rfl ?_ ?_ ?_
      · rw [answeredWith, respond_responses, State.setFactor_responses, hc.responses]
        rfl
      · rw [respond_factor, State.setFactor_factor]
        rfl
      · rw [respond_ok_tr, State.setFactor_tr]
        exact htr

/-- A selection with a legal operand that succeeds, issued. -/
theorem issue_selection {sel : RangeIx → Op Unit} {r : RangeIx} (hr : s.ready)
    (hsel : sel r (s.setSeq .busy) = (.ok (), t.setSeq .busy)) (hseq : t.seq = .idle) :
    issue (do
      let r ← rangeOperand (indexByte r)
      sel r
      return []) s = .next (t.send [okStatus]) :=
  issue_completes hr ((Op.bind_ok _ (rangeOperand_apply r _)).trans (Op.bind_ok _ hsel)) hseq

theorem indexByte_injective : Function.Injective indexByte := by decide

/-- With a well-formed table the range's bits lie under the mask (R191). -/
theorem rangeBits_under_mask {p : Params} (h : p.wf = true) (m : Modality) (k : RangeIx) :
    (rangeBits p m).get k &&& ~~~rangeMask p m = 0x00#8 := by
  have hunder (mask : Byte) (bits : Four Byte) (h : bitsUnderMask mask bits = true) : bits.get k &&& ~~~mask = 0x00#8 :=
    of_decide_eq_true (List.all_eq_true.1 h _ (Four.get_mem_toList bits k))
  simp only [Params.wf, Bool.and_eq_true] at h
  cases m
  · exact hunder _ _ (by tauto)
  · exact hunder _ _ (by tauto)

/-- The bits written under the mask are those set, when they lie under it (R192). -/
theorem mergeBits_and_mask {mask bits : Byte} (h : bits &&& ~~~mask = 0x00#8) (t : Byte) :
    mergeBits t (~~~mask) bits &&& mask = bits := by
  ext i hi
  have hbit : (bits &&& ~~~mask)[i] = false := by rw [h, BitVec.getElem_zero]
  simp only [mergeBits, BitVec.getElem_and, BitVec.getElem_or, BitVec.getElem_not] at hbit ⊢
  cases hm : mask[i] <;> simp_all

/-- A selection that failed has answered with an error it may raise, and one that succeeded has stored its divisor. -/
theorem exec_selectInstr_factor (h : exec (selectInstr m b) s = .next t) :
    (t.factor m = s.factor m ∧ ∃ packet ∈ errorPacketsOf (selectInstr m b), answeredWith s t packet) ∨
    (∃ k, b = indexByte k ∧ t.factor m = some ((rangeFactors s.params m).get k) ∧ answeredWith s t [okStatus]) := by
  cases exec_selectInstr_ends h with
  | stored k v operand answered factor tr => exact .inr ⟨k, operand, factor, answered⟩
  | failed e answered kept =>
    refine .inl ⟨kept, ?_⟩
    cases exec_answered h with
    | ok payload es length forms tr responses =>
      exact absurd (answeredWith_unique answered responses) (errorPacket_ne_ok e payload)
    | error e' raised responses => exact ⟨_, raised, responses⟩

/-- A selection that succeeded has stored the divisor and written the bits of its own range (R193). -/
theorem exec_selectInstr_succeeded {k : RangeIx} (h : exec (selectInstr m (indexByte k)) s = .next t) (hok : succeeded s t) :
    t.factor m = some ((rangeFactors s.params m).get k) ∧
    ∃ es v, t.tr = s.tr ++ es ++ writeEvents s.params (rangeCfg s.params m) [v] ∧
      v &&& rangeMask s.params m = (rangeBits s.params m).get k := by
  obtain ⟨payload, hok⟩ := hok
  cases exec_selectInstr_ends h with
  | failed e answered kept => exact absurd (answeredWith_unique answered hok) (errorPacket_ne_ok e payload)
  | stored k' v operand answered factor tr =>
    obtain rfl := indexByte_injective operand
    have hready := (issue_next ((exec_selectInstr m _ s).symm.trans h)).1
    refine ⟨factor, readEvents s.params (rangeCfg s.params m) [v], _, ?_,
      mergeBits_and_mask (rangeBits_under_mask hready.2 m k) v⟩
    rw [tr, selectRangeEvents, ← List.append_assoc]
    rfl

end

/-! ### The statements -/

/-- Settles O40: the configuration register is read and written, and the divisor is stored after that. -/
theorem rangeSelectionsComplete : Obligations.RangeSelectionsComplete :=
  ⟨fun s _ r v hr hrun => issue_selection hr (selectGyroRange_apply (s := s.setSeq .busy) r v hrun) hr.1,
    fun s _ r v hr hrun => issue_selection hr (selectAccelRange_apply (s := s.setSeq .busy) r v hrun) hr.1⟩

/-- Settles O41, for each modality from the two ways its selection may end. -/
theorem factorStoredExactlyOnSuccess : Obligations.FactorStoredExactlyOnSuccess :=
  ⟨fun _ _ _ h => exec_selectInstr_factor (m := .gyroscope) h,
    fun _ _ _ h => exec_selectInstr_factor (m := .accelerometer) h⟩

/-- Settles O42: what a selection that succeeded has written and stored is a function of the range alone. -/
theorem rangeSelectionIsIdempotentInItsLookup : Obligations.RangeSelectionIsIdempotentInItsLookup :=
  ⟨fun _ _ _ h hok => exec_selectInstr_succeeded (m := .gyroscope) h hok,
    fun _ _ _ h hok => exec_selectInstr_succeeded (m := .accelerometer) h hok⟩

end Sys2Proof.Machine
end

section
/-! Proofs of `Obligations.RawReadsComplete`, `ScaledReadsComplete`, `ScaledReadsRefuseUnset`, `MagScaledCompletes`,
`MagGateFails` and `MagGateOutcomes` (45_scaled_read.md R196 to R208, 46_snapshot.md R216, 30_encoding.md R98).

The completions issue the runs of `Laws/Sequences`. What an ended magnetometer read tells about its gate is the converse:
`readMagScaled_ends` says once how it may end, whatever the environment answers, from the two ways a relayed read may end. -/

namespace Sys2Proof.Machine

/-! ### Payloads (R98) -/

theorem bigEndianPair_u16_s16 (high low : Byte) : bigEndianPair (u16 (s16 high low)) = [high, low] := by
  rw [u16_s16]
  refine List.map_injective_iff.2 (fun _ _ => BitVec.eq_of_toNat_eq) ?_
  have hlow := low.isLt
  rw [bigEndianPair_toNat, toNat_append_bytes]
  simp only [List.map_cons, List.map_nil, List.cons.injEq, and_true]
  omega

/-- The three samples assembled from six bytes are answered as those bytes (R53, R98). -/
theorem rawPayload_axisBig {d : List Byte} (h : d.length = 6) : rawPayload (axisBig d) = d := by
  match d, h with
  | [d0, d1, d2, d3, d4, d5], _ => simp [rawPayload, axisBig, Axis3.toList, bigEndianPair_u16_s16, byteAt]

/-- An operation that assembles the six bytes `d` into samples answers them as `d` (R98). -/
theorem answersRaw_performs {p : Params} {es : List Event} {read : Op (Axis3 Int)} {d : List Byte}
    (h : Performs read p es (axisBig d)) (hd : d.length = 6) :
    Performs (read >>= fun t => pure (rawPayload t)) p es d := by
  refine h.bind_pure ?_
  rw [rawPayload_axisBig hd]
  exact Performs.pure d

/-- A binary32 pattern, most significant byte first (R98). -/
theorem wordBytes_toNat (v : BitVec 32) : (wordBytes v).map BitVec.toNat =
    [v.toNat / 2 ^ 24, v.toNat / 2 ^ 16 % 256, v.toNat / 2 ^ 8 % 256, v.toNat % 256] := by
  have hv := v.isLt
  simp only [wordBytes, List.map_cons, List.map_nil, BitVec.extractLsb'_toNat, Nat.shiftRight_eq_div_pow]
  congr 1
  · omega
  · simp

/-- The lanes in the order x, y, z (R205). -/
theorem scaledPayload_eq (t : Axis3 (BitVec 32)) :
    scaledPayload t = wordBytes t.x ++ wordBytes t.y ++ wordBytes t.z := by
  simp [scaledPayload, Axis3.toList]

/-! ### Refusals before any event -/

/-- An operation that raises at once, with no frame open, issued (R234). -/
theorem issue_refuses {op : Op (List Byte)} {s : State} {err : Error} (hr : s.ready) (hcs : s.cs = .high)
    (hop : op (s.setSeq .busy) = (.error err, (s.setSeq .busy).closeFrame)) :
    issue op s = .next (s.send (errorPacket err)) := by
  have hclosed : (s.setSeq .busy).closeFrame = s.setSeq .busy := State.closeFrame_of_high hcs
  rw [issue_error hr hop, State.takeException, hclosed, hclosed]
  obtain ⟨hidle, -⟩ := hr
  cases s
  subst hidle
  rfl

section
variable {α : Type} {s : State}

/-- An operation that asks for the gyroscope's factor first, with that factor `UNSET` (R201). -/
theorem gyroFactor_bind_unset (h : s.sfGyro = none) (f : Ratio → Op α) :
    (gyroFactor >>= f) s = (.error (.scaleFactorUnset .gyroscope), s.closeFrame) :=
  Op.bind_error s (by rw [gyroFactor_apply, h])

/-- An operation that asks for the accelerometer's factor first, with that factor `UNSET` (R203). -/
theorem accelFactor_bind_unset (h : s.sfAccel = none) (f : Ratio → Op α) :
    (accelFactor >>= f) s = (.error (.scaleFactorUnset .accelerometer), s.closeFrame) :=
  Op.bind_error s (by rw [accelFactor_apply, h])

end

/-! ### How a relayed read may end -/

/-- The operation, if it succeeds, leaves no frame open. -/
def EndsHigh {α : Type} (op : Op α) : Prop := ∀ s a t, op s = (.ok a, t) → t.cs = .high

theorem EndsHigh.bind {α β : Type} (op : Op α) {f : α → Op β} (h : ∀ a, EndsHigh (f a)) : EndsHigh (op >>= f) := by
  intro s b u hop
  rw [Op.bind_apply] at hop
  rcases hx : op s with ⟨_ | a, t⟩ <;> rw [hx] at hop
  · cases hop
  · exact h a t b u hop

theorem frame_endsHigh (tx : List Byte) (m : Nat) : EndsHigh (frame tx m) := by
  refine .bind _ fun _ => .bind _ fun _ => .bind _ fun rx => ?_
  rintro s a t ⟨⟩
  rfl

theorem bridgeRead_endsHigh (f : Addr7) (r : Byte) (n : Nat) : EndsHigh (bridgeReadBytes f r n) :=
  .bind _ fun _ => .bind _ fun _ => .bind _ fun _ => .bind _ fun _ => .bind _ fun _ => .bind _ fun _ => .bind _ fun _ =>
    frame_endsHigh _ n

/-- A relayed read, whatever the environment answers: `BusError`, or the six steps of R141 with `n` bytes received and no
frame open. -/
theorem bridgeRead_cases (f : Addr7) (r : Byte) {n : Nat} (hn : 1 ≤ n) (s : State) :
    (∃ t, bridgeReadBytes f r n s = (.error .busError, t)) ∨
    ∃ rx t, bridgeReadBytes f r n s = (.ok rx, t) ∧ rx.length = n ∧ t.params = s.params ∧ t.cs = .high ∧
      t.tr = s.tr ++ bridgeReadEvents s.params f r rx := by
  have hends := bridgeRead_framed (E := (· = .busError)) rfl f r hn s
  rcases hop : bridgeReadBytes f r n s with ⟨e | rx, t⟩
  · rw [hop] at hends
    cases hends with
    | error he hr => exact .inl ⟨t, by rw [he]⟩
  · obtain ⟨hp, es, ⟨hl, rfl⟩, htr⟩ := bridgeRead_emits f r n s rx t rfl hop
    exact .inr ⟨rx, t, rfl, hl, hp, bridgeRead_endsHigh f r n s rx t hop, htr⟩

/-! ### How a magnetometer read may end -/

/-- How `ReadMagScaled` may end with parameters `p` and the trace `tr` before it: with the gate open, with either failure of
the gate, the reads of each made and no frame open, or with `BusError` (R206, R207). -/
inductive MagEnd (p : Params) (tr : List Event) : Except Error (Axis3 (BitVec 32)) × State → Prop where
  | scaled {s1 s2 : Byte} {m : List Byte} {a : Axis3 (BitVec 32)} {t : State} (six : m.length = 6)
    (ready : s1 &&& p.magDrdyMask ≠ 0x00#8) (noOverflow : s2 &&& p.magOvfMask = 0x00#8)
    (cs : t.cs = .high) (reads : t.tr = tr ++ magEvents p s1 m s2) : MagEnd p tr (.ok a, t)
  | notReady {s1 : Byte} {t : State} (notReady : s1 &&& p.magDrdyMask = 0x00#8) (cs : t.cs = .high)
    (reads : t.tr = tr ++ bridgeReadEvents p p.magAddr p.magSt1Reg [s1]) :
    MagEnd p tr (.error (.notReadyOrOverflow .notReady), t)
  | overflow {s1 s2 : Byte} {m : List Byte} {t : State} (six : m.length = 6) (ready : s1 &&& p.magDrdyMask ≠ 0x00#8)
    (overflow : s2 &&& p.magOvfMask ≠ 0x00#8) (cs : t.cs = .high) (reads : t.tr = tr ++ magEvents p s1 m s2) :
    MagEnd p tr (.error (.notReadyOrOverflow .overflow), t)
  | failed {t : State} : MagEnd p tr (.error .busError, t)

/-- The ready gate tests one bit of the one byte received (R206, R207 d). -/
theorem dataReady_received_iff (p : Params) (s1 : Byte) :
    dataReady p (byteAt [s1] 0) = true ↔ s1 &&& p.magDrdyMask ≠ 0x00#8 := decide_eq_true_iff

/-- The overflow gate tests one bit of the one byte received (R206, R207 d). -/
theorem overflowed_received_iff (p : Params) (s2 : Byte) :
    overflowed p (byteAt [s2] 0) = true ↔ s2 &&& p.magOvfMask ≠ 0x00#8 := decide_eq_true_iff

/-- All that `ReadMagScaled` can do, whatever the environment answers (R206, R207): each relayed read may fail, and each gate may
be shut. -/
theorem readMagScaled_ends (s : State) : MagEnd s.params s.tr (readMagScaled s) := by
  rw [readMagScaled, Op.bind_ok s (parameters_apply s)]
  rcases bridgeRead_cases s.params.magAddr s.params.magSt1Reg (n := 1) (by simp) s with
    ⟨t1, h1⟩ | ⟨rx1, t1, h1, hl1, hp1, hcs1, htr1⟩
  · rw [Op.bind_error s h1]
    exact .failed
  obtain ⟨s1, rfl⟩ := List.length_eq_one_iff.1 hl1
  rw [Op.bind_ok s h1]
  by_cases hready : s1 &&& s.params.magDrdyMask = 0x00#8
  · rw [if_neg (fun h => (dataReady_received_iff _ _).1 h hready), raise_apply, State.closeFrame_of_high hcs1]
    exact .notReady hready hcs1 htr1
  rw [if_pos ((dataReady_received_iff _ _).2 hready)]
  rcases bridgeRead_cases s.params.magAddr s.params.magDataReg (n := 6) (by simp) t1 with
    ⟨t2, h2⟩ | ⟨m, t2, h2, hl2, hp2, hcs2, htr2⟩
  · rw [Op.bind_error t1 h2]
    exact .failed
  rw [Op.bind_ok t1 h2]
  rcases bridgeRead_cases s.params.magAddr s.params.magSt2Reg (n := 1) (by simp) t2 with
    ⟨t3, h3⟩ | ⟨rx3, t3, h3, hl3, hp3, hcs3, htr3⟩
  · rw [Op.bind_error t2 h3]
    exact .failed
  obtain ⟨s2, rfl⟩ := List.length_eq_one_iff.1 hl3
  rw [Op.bind_ok t2 h3]
  have htr : t3.tr = s.tr ++ magEvents s.params s1 m s2 := by
    rw [htr3, htr2, htr1, hp2, hp1, List.append_assoc, List.append_assoc, ← List.append_assoc (bridgeReadEvents ..)]
    rfl
  by_cases hover : s2 &&& s.params.magOvfMask = 0x00#8
  · rw [if_neg (fun h => (overflowed_received_iff _ _).1 h hover)]
    exact .scaled hl2 hready hover hcs3 htr
  · rw [if_pos ((overflowed_received_iff _ _).2 hover), raise_apply, State.closeFrame_of_high hcs3]
    exact .overflow hl2 hready hover hcs3 htr

/-- `READ_MAG_SCALED` ends as `ReadMagScaled` does and answers its lanes or its error. -/
theorem exec_readMagScaled_ends {s t : State} (h : exec .readMagScaled s = .next t) :
    ∃ q, MagEnd s.params s.tr q ∧ t = respond (q.1.map scaledPayload, q.2) ∧
      answeredWith s t (responsePacket (q.1.map scaledPayload)) := by
  obtain ⟨-, rfl⟩ := issue_next h
  have hresponses := (readMagScaled_calm.contained (s.setSeq .busy)).responses
  have hop : (readMagScaled >>= fun a => pure (scaledPayload a) : Op (List Byte)) (s.setSeq .busy) =
      ((readMagScaled (s.setSeq .busy)).1.map scaledPayload, (readMagScaled (s.setSeq .busy)).2) := by
    rw [Op.bind_apply]
    rcases readMagScaled (s.setSeq .busy) with ⟨e | a, u⟩ <;> rfl
  refine ⟨readMagScaled (s.setSeq .busy), readMagScaled_ends (s.setSeq .busy), congrArg respond hop, ?_⟩
  rw [answeredWith, hop, respond_responses, hresponses]
  rfl

theorem csAfter_magEvents (c : Level) (p : Params) (s1 : Byte) (m : List Byte) (s2 : Byte) :
    csAfter c (magEvents p s1 m s2) = .high := by
  rw [magEvents, csAfter_append, csAfter_bridgeReadEvents]

/-! ### The statements -/

/-- Settles O43: the six bytes of one read are assembled into samples and answered as the same bytes. -/
theorem rawReadsComplete : Obligations.RawReadsComplete :=
  ⟨fun _ _ _ hr hd hrun => issue_performs (answersRaw_performs (readGyroRaw_performs hd) hd) rfl hr hrun,
    fun _ _ _ hr hd hrun => issue_performs (answersRaw_performs (readAccelRaw_performs hd) hd) rfl hr hrun⟩

/-- Settles O44: the factor set, one read and its lanes scaled; the payload is the bytes of the three patterns. -/
theorem scaledReadsComplete : Obligations.ScaledReadsComplete :=
  ⟨fun s _ _ _ hr hsf hd hrun =>
      issue_completes hr (Op.bind_ok _ (readGyroScaled_apply (s := s.setSeq .busy) hsf hd hrun)) hr.1,
    fun s _ _ _ hr hsf hd hrun =>
      issue_completes hr (Op.bind_ok _ (readAccelScaled_apply (s := s.setSeq .busy) hsf hd hrun)) hr.1,
    wordBytes_toNat, scaledPayload_eq⟩

/-- Settles O45: each operation asks for its factors, the gyroscope's first, before it does anything else. -/
theorem scaledReadsRefuseUnset : Obligations.ScaledReadsRefuseUnset := by
  refine fun s hr hcs => ⟨fun hg => ?_, fun ha => ?_, fun hg => ?_, fun hg ha => ?_⟩
  · exact issue_refuses hr hcs (Op.bind_error _ (gyroFactor_bind_unset (s := s.setSeq .busy) hg _))
  · exact issue_refuses hr hcs (Op.bind_error _ (accelFactor_bind_unset (s := s.setSeq .busy) ha _))
  · exact issue_refuses hr hcs (gyroFactor_bind_unset (s := s.setSeq .busy) hg _)
  · obtain ⟨sf, hsf⟩ := Option.ne_none_iff_exists'.1 hg
    refine issue_refuses (op := readSnapshot) (err := .scaleFactorUnset .accelerometer) hr hcs
      ((Op.bind_ok _ (gyroFactor_set (s := s.setSeq .busy) hsf)).trans ?_)
    exact accelFactor_bind_unset (s := s.setSeq .busy) ha _

/-- Settles O46: the gate open, the three relayed reads and the lanes scaled. -/
theorem magScaledCompletes : Obligations.MagScaledCompletes := fun _ _ _ _ _ hr hm hready hover hrun =>
  issue_performs ((readMagScaled_performs hm (decide_eq_true hready) (decide_eq_false (not_not.2 hover))).bind_pure
    (Performs.pure _)) rfl hr hrun

/-- Settles O47: the gate raises after the status read, or after all three reads, and the last read has closed its frame. -/
theorem magGateFails : Obligations.MagGateFails :=
  ⟨fun _ _ _ hr hready hrun => issue_raises (readMagScaled_notReady (decide_eq_false (not_not.2 hready))).bind rfl hr hrun
      (csAfter_bridgeReadEvents ..),
    fun _ _ _ _ _ hr hm hready hover hrun =>
      issue_raises (readMagScaled_overflow hm (decide_eq_true hready) (decide_eq_true hover)).bind rfl hr hrun
        (csAfter_magEvents ..)⟩

/-- Settles O48: the response tells which of its ways to end the read has taken. -/
theorem magGateOutcomes : Obligations.MagGateOutcomes := by
  intro s t h
  obtain ⟨q, hend, hrespond, hanswer⟩ := exec_readMagScaled_ends h
  cases hend with
  | @scaled _ _ _ a _ six ready noOverflow cs reads =>
    have hpacket {x : List Byte} (hx : answeredWith s t x) : x = okStatus :: scaledPayload a :=
      answeredWith_unique hx hanswer
    refine ⟨fun _ => ⟨_, _, _, ?_, six, ready, noOverflow⟩, fun hx => ?_, fun hx => ?_⟩
    · rw [hrespond, respond_tr_of_high _ cs, reads]
    · exact absurd (hpacket hx) (by simp [okStatus])
    · exact absurd (hpacket hx) (by simp [okStatus])
  | notReady notReady cs reads =>
    have hpacket {x : List Byte} (hx : answeredWith s t x) : x = errorPacket (.notReadyOrOverflow .notReady) :=
      answeredWith_unique hx hanswer
    refine ⟨fun ⟨payload, hok⟩ => ?_, fun _ => ⟨_, ?_, notReady⟩, fun hx => ?_⟩
    · exact absurd (hpacket hok).symm (errorPacket_ne_ok _ payload)
    · rw [hrespond, respond_tr_of_high _ cs, reads]
    · exact absurd (hpacket hx) (by decide)
  | overflow six ready overflow cs reads =>
    have hpacket {x : List Byte} (hx : answeredWith s t x) : x = errorPacket (.notReadyOrOverflow .overflow) :=
      answeredWith_unique hx hanswer
    refine ⟨fun ⟨payload, hok⟩ => ?_, fun hx => ?_, fun _ => ⟨_, _, _, ?_, six, ready, overflow⟩⟩
    · exact absurd (hpacket hok).symm (errorPacket_ne_ok _ payload)
    · exact absurd (hpacket hx) (by decide)
    · rw [hrespond, respond_tr_of_high _ cs, reads]
  | failed =>
    have hpacket {x : List Byte} (hx : answeredWith s t x) : x = errorPacket .busError := answeredWith_unique hx hanswer
    refine ⟨fun ⟨payload, hok⟩ => ?_, fun hx => ?_, fun hx => ?_⟩
    · exact absurd (hpacket hok).symm (errorPacket_ne_ok _ payload)
    · exact absurd (hpacket hx) (by decide)
    · exact absurd (hpacket hx) (by decide)

end Sys2Proof.Machine
end

section
/-! Proofs of `Obligations.ScaledValuesAreQuotients` and `Obligations.SourceConstantsGiveBoundedResults` (45_scaled_read.md
R200, R204, R208).

The quotients are fractions, which `f32` rounds to the nearest number (`nearestEven_f32`). The bounds turn on the magnitude
alone (`nearestMagnitude_f32`): a result stays on the same side of every finite pattern as its fraction, which bounds it from above
and from below, and a fraction that some pattern stands for is met exactly. -/

namespace Sys2Proof.Machine

/-! ### The rounded quotients -/

theorem nearestEven_scaleBy {sf : Ratio} (hnum : 0 < sf.num) (v : Int) :
    nearestEven ((v : ℚ) / ratioValue sf) (scaleBy sf v) := by
  have hq : (v : ℚ) / ratioValue sf = ((v * sf.den : Int) : ℚ) / sf.num := by
    rw [ratioValue, div_div_eq_mul_div]
    push_cast
    rfl
  rw [hq]
  exact nearestEven_f32 _ hnum

theorem nearestEven_scaleWithArtifact {sf : Ratio} (hnum : 0 < sf.num) (hden : 0 < sf.den) (v : Int) :
    nearestEven (((v : ℚ) + ratioValue sf) / ratioValue sf) (scaleWithArtifact sf v) := by
  have hden' : (sf.den : ℚ) ≠ 0 := mod_cast hden.ne'
  have hq : ((v : ℚ) + ratioValue sf) / ratioValue sf = ((v * sf.den + sf.num : Int) : ℚ) / sf.num := by
    rw [ratioValue, div_div_eq_mul_div, add_mul, div_mul_cancel₀ _ hden']
    push_cast
    rfl
  rw [hq]
  exact nearestEven_f32 _ hnum

theorem nearestEven_scaleMag {scale : Ratio} (hden : 0 < scale.den) (v : Int) :
    nearestEven ((v : ℚ) * ratioValue scale) (scaleMag scale v) := by
  have hq : (v : ℚ) * ratioValue scale = ((v * scale.num : Int) : ℚ) / scale.den := by
    rw [ratioValue, mul_div_assoc']
    push_cast
    rfl
  rw [hq]
  exact nearestEven_f32 _ hden

/-! ### Results between patterns -/

section
variable {n : Int} {d p : Nat}

/-- The pattern of a fraction has the magnitude nearest the fraction's. -/
theorem nearestMagnitude_f32 (n : Int) (hd : 0 < d) :
    NearestMagnitude |(n : ℚ) / d| ((f32 n d).toNat % 2 ^ 31) := by
  have habs : |(n : ℚ) / d| = (n.natAbs : ℚ) / d := by
    rw [abs_div, Nat.abs_cast, Nat.cast_natAbs, Int.cast_abs]
  rw [f32_toNat_mod, habs]
  exact nearestMagnitude_of_betweenMidpoints (f32Magnitude_betweenMidpoints _ hd)

/-- What is nearest `q` is no larger than a finite number that `q` is no larger than. -/
theorem NearestMagnitude.le_of_le {q : ℚ} {M : Nat} (h : NearestMagnitude q M) (hp : p ≤ f32LargestFinite)
    (hq : q ≤ magnitudeValue p) : magnitudeValue M ≤ magnitudeValue p := by
  by_contra hlt
  rw [not_le] at hlt
  obtain ⟨hnear, -⟩ := h p hp
  rw [abs_of_pos (sub_pos.2 (hq.trans_lt hlt)), abs_of_nonneg (sub_nonneg.2 hq)] at hnear
  linarith

/-- What is nearest `q` is no smaller than a finite number that `q` is no smaller than. -/
theorem NearestMagnitude.ge_of_ge {q : ℚ} {M : Nat} (h : NearestMagnitude q M) (hp : p ≤ f32LargestFinite)
    (hq : magnitudeValue p ≤ q) : magnitudeValue p ≤ magnitudeValue M := by
  by_contra hlt
  rw [not_le] at hlt
  obtain ⟨hnear, -⟩ := h p hp
  rw [abs_of_neg (sub_neg.2 (hlt.trans_le hq)), abs_of_nonpos (sub_nonpos.2 hq)] at hnear
  linarith

/-- A fraction no larger than a finite number rounds to a number no larger. -/
theorem abs_f32Value_le (hd : 0 < d) (hp : p ≤ f32LargestFinite) (h : |(n : ℚ) / d| ≤ magnitudeValue p) :
    |f32Value (f32 n d)| ≤ magnitudeValue p := by
  rw [abs_f32Value]
  exact (nearestMagnitude_f32 n hd).le_of_le hp h

/-- A non-zero fraction whose denominator is no larger than `2^126` rounds to a normal number. -/
theorem normal_f32 (hn : n ≠ 0) (hd : 0 < d) (hmax : d ≤ 2 ^ 126) : 2 ^ 23 ≤ (f32 n d).toNat % 2 ^ 31 := by
  have hd' : (0 : ℚ) < d := mod_cast hd
  have hn' : (1 : ℚ) ≤ |(n : ℚ)| := mod_cast Int.one_le_abs hn
  have hleast : magnitudeValue (2 ^ 23) = 1 / 2 ^ 126 := by
    have hgrid := magnitudeValue_grid (k := 0) (m := 2 ^ 23) (.inl rfl) (by norm_num)
    rw [Nat.zero_mul, Nat.zero_add] at hgrid
    rw [hgrid]
    norm_num
  rw [← magnitudeValue_strictMono.le_iff_le]
  refine (nearestMagnitude_f32 n hd).ge_of_ge (by decide) ?_
  rw [hleast, abs_div, Nat.abs_cast]
  gcongr
  exact_mod_cast hmax

/-- A fraction whose magnitude a finite pattern stands for is not rounded. -/
theorem f32Value_f32_of_exact (hd : 0 < d) (hp : p ≤ f32LargestFinite) (h : |(n : ℚ) / d| = magnitudeValue p) :
    f32Value (f32 n d) = n / d := by
  have habs : |f32Value (f32 n d)| = |(n : ℚ) / d| := by
    have hnear := nearestMagnitude_f32 n hd
    rw [abs_f32Value, h]
    exact le_antisymm (hnear.le_of_le hp h.le) (hnear.ge_of_ge hp h.ge)
  have hd' : (0 : ℚ) < d := mod_cast hd
  rw [abs_f32Value] at habs
  rw [f32Value_f32, habs]
  split
  · next hn => rw [abs_of_neg (div_neg_of_neg_of_pos (mod_cast hn) hd'), neg_neg]
  · next hn => rw [abs_of_nonneg (div_nonneg (mod_cast not_lt.1 hn) hd'.le)]

theorem finite_f32 (n : Int) (hd : 0 < d) : f32Finite (f32 n d) := (nearestEven_f32 n hd).1

end

/-! ### Numbers that patterns stand for -/

/-- Every number of 24 significant bits that is no finer than the least unit has a pattern. -/
theorem exists_magnitudeValue_eq (k : Nat) {m : Nat} (hm : m ≤ 2 ^ 24) :
    ∃ p, magnitudeValue p = m * 2 ^ ((k : Int) - 149) := by
  induction k generalizing m with
  | zero => exact ⟨_, magnitudeValue_grid (.inl rfl) hm⟩
  | succ k ih =>
    by_cases hlow : 2 ^ 23 ≤ m
    · exact ⟨_, magnitudeValue_grid (.inr hlow) hm⟩
    · obtain ⟨p, hp⟩ := ih (m := 2 * m) (by omega)
      refine ⟨p, hp.trans ?_⟩
      rw [show ((k + 1 : Nat) : Int) - 149 = (k : Int) - 149 + 1 by push_cast; ring, zpow_add_one₀ two_ne_zero]
      push_cast
      ring

/-- A number of 24 significant bits over a power of two up to `2^126` is not rounded (R200 point 8). -/
theorem f32Value_f32_two_pow {n : Int} (hn : n.natAbs ≤ 2 ^ 24) {k : Nat} (hk : k ≤ 126) :
    f32Value (f32 n (2 ^ k)) = n / 2 ^ k := by
  have habs : |(n : ℚ) / (2 ^ k : Nat)| = n.natAbs * 2 ^ (((149 - k : Nat) : Int) - 149) := by
    rw [abs_div, Nat.abs_cast, Nat.cast_natAbs, Int.cast_abs, div_eq_mul_inv,
      show ((149 - k : Nat) : Int) - 149 = -k by omega, zpow_neg, zpow_natCast]
    push_cast
    rfl
  obtain ⟨p, hp⟩ := exists_magnitudeValue_eq (149 - k) hn
  have hmax : p ≤ f32LargestFinite := by
    have hbound : magnitudeValue p ≤ magnitudeValue (150 * 2 ^ 23 + 2 ^ 23) := by
      rw [hp, magnitudeValue_grid (.inr le_rfl) (by norm_num)]
      calc (n.natAbs : ℚ) * 2 ^ (((149 - k : Nat) : Int) - 149) ≤ 2 ^ 24 * 2 ^ (0 : Int) := by
            gcongr
            · exact_mod_cast hn
            · norm_num
            · omega
        _ = ((2 ^ 23 : Nat) : ℚ) * 2 ^ (((150 : Nat) : Int) - 149) := by norm_num
    exact (magnitudeValue_strictMono.le_iff_le.1 hbound).trans (by decide)
  have hexact := f32Value_f32_of_exact (Nat.two_pow_pos k) hmax (habs.trans hp.symm)
  rw [hexact]
  push_cast
  rfl

/-! ### The source's constants (R200) -/

section
variable {v : Int} (hv : isSample v)
include hv

theorem abs_sample_le : |(v : ℚ)| ≤ 32768 := by
  obtain ⟨hmin, hmax⟩ := hv
  have habs : |v| ≤ 32768 := abs_le.2 ⟨hmin, by omega⟩
  exact_mod_cast habs

/-- The magnitude of a scaled sample, unrounded. -/
theorem abs_scaled_sample_le (num den : Nat) : |((v * num : Int) : ℚ) / den| ≤ 32768 * num / den := by
  have habs := abs_sample_le hv
  rw [abs_div, Nat.abs_cast, Int.cast_mul, abs_mul, Int.cast_natCast, Nat.abs_cast]
  gcongr

/-- A scaled sample is no larger than a finite number that the greatest scaled sample is no larger than. -/
theorem abs_f32Value_scaled_le {num den p : Nat} {bound : ℚ} (hden : 0 < den) (hp : p ≤ f32LargestFinite)
    (hbound : magnitudeValue p = bound) (hmax : (32768 * num / den : ℚ) ≤ bound) :
    |f32Value (f32 (v * num) den)| ≤ bound := by
  rw [← hbound] at hmax ⊢
  exact abs_f32Value_le hden hp ((abs_scaled_sample_le hv num den).trans hmax)

/-- With the divisor 16.4 a result is no larger than 1998.5, which has a pattern. -/
theorem abs_scaleBy_gyro_lt : |f32Value (scaleBy ⟨82, 5⟩ v)| < 1999 := by
  have hgrid : magnitudeValue (136 * 2 ^ 23 + 16371712) = 3997 / 2 := by
    rw [magnitudeValue_grid (.inr (by norm_num)) (by norm_num)]
    norm_num
  calc |f32Value (scaleBy ⟨82, 5⟩ v)| ≤ 3997 / 2 :=
        abs_f32Value_scaled_le hv (num := 5) (by decide) (by decide) hgrid (by norm_num)
    _ < 1999 := by norm_num

/-- With the divisor 2048 a result is no larger than 16, which has a pattern. -/
theorem abs_scaleBy_accel_le : |f32Value (scaleBy ⟨2048, 1⟩ v)| ≤ 16 := by
  have hgrid : magnitudeValue (130 * 2 ^ 23 + 2 ^ 23) = 16 := by
    rw [magnitudeValue_grid (.inr le_rfl) (by norm_num)]
    norm_num
  exact abs_f32Value_scaled_le hv (num := 1) (by decide) (by decide) hgrid (by norm_num)

/-- With the multiplier 0.15 a result is no larger than the pattern above 4915.2, which is less than half a unit away. -/
theorem abs_scaleMag_le : |f32Value (scaleMag ⟨3, 20⟩ v)| ≤ 49152 / 10 + 1 / 4096 := by
  have hgrid : magnitudeValue (138 * 2 ^ 23 + 10066330) = 10066330 / 2048 := by
    rw [magnitudeValue_grid (.inr (by norm_num)) (by norm_num)]
    norm_num
  calc |f32Value (scaleMag ⟨3, 20⟩ v)| ≤ 10066330 / 2048 :=
        abs_f32Value_scaled_le hv (num := 3) (by decide) (by decide) hgrid (by norm_num)
    _ ≤ 49152 / 10 + 1 / 4096 := by norm_num

end

/-- A non-zero sample scaled by one of the source's constants is no subnormal number (R200 point 5). -/
theorem normal_scaled_sample {v : Int} (hv : v ≠ 0) :
    ∀ b ∈ [scaleBy ⟨82, 5⟩ v, scaleBy ⟨2048, 1⟩ v, scaleMag ⟨3, 20⟩ v], 2 ^ 23 ≤ b.toNat % 2 ^ 31 := by
  have hscaled {num den : Nat} (hnum : num ≠ 0) (hden : 0 < den) (hmax : den ≤ 2 ^ 126) :
      2 ^ 23 ≤ (f32 (v * num) den).toNat % 2 ^ 31 := normal_f32 (mul_ne_zero hv (mod_cast hnum)) hden hmax
  simp only [List.mem_cons, List.not_mem_nil, or_false, forall_eq_or_imp, forall_eq]
  exact ⟨hscaled (by decide) (by decide) (by decide), hscaled (by decide) (by decide) (by decide),
    hscaled (by decide) (by decide) (by decide)⟩

/-! ### The statements -/

/-- Settles O53: each component is `f32` of one exact fraction. -/
theorem scaledValuesAreQuotients : Obligations.ScaledValuesAreQuotients :=
  ⟨fun _ v _ hnum _ => nearestEven_scaleBy hnum v, fun _ v _ hnum hden => nearestEven_scaleWithArtifact hnum hden v,
    fun _ v _ hden => nearestEven_scaleMag hden v⟩

/-- Settles O54: a scaled sample lies below a pattern near its bound, above the least normal number, and on a pattern where
the divisor is a power of two. -/
theorem sourceConstantsGiveBoundedResults : Obligations.SourceConstantsGiveBoundedResults := by
  intro v hv
  refine ⟨⟨finite_f32 _ (by decide), abs_scaleBy_gyro_lt hv⟩, ⟨finite_f32 _ (by decide), abs_scaleBy_accel_le hv⟩,
    ⟨finite_f32 _ (by decide), abs_scaleMag_le hv⟩, normal_scaled_sample, fun k hk => ?_⟩
  obtain ⟨hmin, hmax⟩ := hv
  have hexact : f32Value (scaleBy ⟨2 ^ k, 1⟩ v) = ((v * (1 : Nat) : Int) : ℚ) / 2 ^ k :=
    f32Value_f32_two_pow (n := v * (1 : Nat)) (by omega) hk
  rwa [Nat.cast_one, mul_one] at hexact

end Sys2Proof.Machine
end

section
/-! Proofs of `Obligations.SnapshotCompletes`, `SnapshotGateFails` and `SnapshotCost` (46_snapshot.md R216 to R221).

The two main-device reads run as `readSnapshot_apply` says; what is left is the magnetometer read, whose `Performs` and `Raises`
are those of `ReadMagScaled` with the error rewrapped. The cost needs the converse: `readSnapshot_ends` says once how a
snapshot may end, whatever the environment answers. -/

namespace Sys2Proof.Machine

/-! ### The magnetometer read of a snapshot -/

section
variable {p : Params} {es : List Event}

/-- No frame is open once it has been closed. -/
theorem State.closeFrame_cs (s : State) : s.closeFrame.cs = .high := by
  unfold State.closeFrame
  split
  case isTrue => rfl
  case isFalse h =>
    cases hcs : s.cs with
    | high => rfl
    | low => exact absurd hcs h

/-- The rewrapping leaves a read that succeeds as it is (R216). -/
theorem readMagInSnapshot_performs {m : Axis3 (BitVec 32)} (h : Performs readMagScaled p es m) :
    Performs readMagInSnapshot p es m := by
  intro s e hp hrun
  rw [readMagInSnapshot_apply, h s e hp hrun]

/-- The error is raised again under its new name; the frame is closed already (R216, R219). -/
theorem readMagInSnapshot_raises {err : Error} (h : Raises readMagScaled p es err) :
    Raises readMagInSnapshot p es (rewrapGateError err) := by
  intro s e hp hrun
  rw [readMagInSnapshot_apply, h s e hp hrun]
  exact Prod.ext rfl (State.closeFrame_of_high (State.closeFrame_cs _))

end

/-! ### A snapshot with a known run -/

section
variable {s t : State} {e : Env} {g a : List Byte} {sfg sfa : Ratio} {fs : List Event}

/-- An operation that raises with no frame open, issued: the state it leaves sends the response and is idle again (R234). -/
theorem issue_ends_in_error {op : Op (List Byte)} {err : Error} (hr : s.ready)
    (hop : op (s.setSeq .busy) = (.error err, t.setSeq .busy)) (hcs : t.cs = .high) (hseq : t.seq = .idle) :
    issue op s = .next (t.send (errorPacket err)) := by
  rw [issue_error hr hop, State.takeException, State.closeFrame_of_high (t := t.setSeq .busy) hcs]
  cases t
  subst hseq
  rfl

/-- The snapshot with the magnetometer read succeeding (R216). -/
theorem readSnapshot_ok {m : Axis3 (BitVec 32)} (hg : s.sfGyro = some sfg) (ha : s.sfAccel = some sfa)
    (hgl : g.length = 6) (hal : a.length = 6) (hmag : Performs readMagInSnapshot s.params fs m)
    (hrun : s.env.run s.params (snapshotMainEvents s.params g a ++ fs) = some e) :
    readSnapshot s =
      (.ok (scaledPayload (scaleGyro sfg (axisBig g)) ++
        scaledPayload (scaleAccel s.params.accelZArtifact sfa (axisBig a)) ++ scaledPayload m),
        s.advance (snapshotMainEvents s.params g a ++ fs) e) := by
  obtain ⟨e1, hmain, hrest⟩ := Env.run_split hrun
  rw [readSnapshot_apply hg ha hgl hal hmain, Op.bind_ok _ (hmag (s.advance _ e1) e rfl hrest), Op.pure_apply,
    State.advance_advance]

/-- The snapshot with the magnetometer read raising: nothing of the two reads before it is returned (R216, R219). -/
theorem readSnapshot_error {err : Error} (hg : s.sfGyro = some sfg) (ha : s.sfAccel = some sfa)
    (hgl : g.length = 6) (hal : a.length = 6) (hmag : Raises readMagInSnapshot s.params fs err)
    (hrun : s.env.run s.params (snapshotMainEvents s.params g a ++ fs) = some e) :
    readSnapshot s = (.error err, (s.advance (snapshotMainEvents s.params g a ++ fs) e).closeFrame) := by
  obtain ⟨e1, hmain, hrest⟩ := Env.run_split hrun
  rw [readSnapshot_apply hg ha hgl hal hmain, Op.bind_error _ (hmag (s.advance _ e1) e rfl hrest), State.advance_advance]

/-- `READ_SNAPSHOT` with a gate of `ReadMagScaled` shut after the events `fs` (R219). -/
theorem exec_readSnapshot_gate {c : GateCause} (hr : s.ready) (hg : s.sfGyro ≠ none) (ha : s.sfAccel ≠ none)
    (hgl : g.length = 6) (hal : a.length = 6) (hgate : Raises readMagScaled s.params fs (.notReadyOrOverflow c))
    (hcs : ∀ c, csAfter c fs = .high)
    (hrun : s.env.run s.params (snapshotMainEvents s.params g a ++ fs) = some e) :
    exec .readSnapshot s =
      .next ((s.advance (snapshotMainEvents s.params g a ++ fs) e).send (errorPacket (.sensorError c))) := by
  obtain ⟨sfg, hsfg⟩ := Option.ne_none_iff_exists'.1 hg
  obtain ⟨sfa, hsfa⟩ := Option.ne_none_iff_exists'.1 ha
  have hhigh : (s.advance (snapshotMainEvents s.params g a ++ fs) e).cs = .high := by
    rw [State.advance_cs, csAfter_append, hcs]
  have hraised := readSnapshot_error (s := s.setSeq .busy) hsfg hsfa hgl hal (readMagInSnapshot_raises hgate) hrun
  exact issue_ends_in_error hr (hraised.trans (Prod.ext rfl (State.closeFrame_of_high hhigh))) hhigh hr.1

end

/-! ### How a snapshot may end -/

/-- The snapshot before its magnetometer read: both factors tested, then the two main-device reads (R216, R217). -/
def snapshotMain : Op (Axis3 (BitVec 32) × Axis3 (BitVec 32)) := do
  let _ ← gyroFactor
  let _ ← accelFactor
  let g ← readGyroScaled
  let a ← readAccelScaled
  return (g, a)

theorem readSnapshot_eq : readSnapshot = (do
    let ga ← snapshotMain
    let m ← readMagInSnapshot
    return scaledPayload ga.1 ++ scaledPayload ga.2 ++ scaledPayload m) := by
  simp only [readSnapshot, snapshotMain, bind_assoc, pure_bind]

section
variable {p : Params}

/-- A test of a factor that passes emits nothing (R216). -/
theorem gyroFactor_emits : Emits p (fun _ es => es = []) gyroFactor :=
  .check (e := .scaleFactorUnset .gyroscope) fun s => by
    rw [gyroFactor_apply]
    cases s.sfGyro with
    | none => exact .inr rfl
    | some sf => exact .inl ⟨sf, rfl⟩

theorem accelFactor_emits : Emits p (fun _ es => es = []) accelFactor :=
  .check (e := .scaleFactorUnset .accelerometer) fun s => by
    rw [accelFactor_apply]
    cases s.sfAccel with
    | none => exact .inr rfl
    | some sf => exact .inl ⟨sf, rfl⟩

/-- The events of one read of six bytes of `r` (R196, R198). -/
def isSixRead (p : Params) (r : RegAddr) (es : List Event) : Prop := ∃ d, d.length = 6 ∧ es = readEvents p r d

theorem rawTriplet_emits (r : RegAddr) :
    Emits p (fun _ es => isSixRead p r es) (readBytes r 6 >>= fun d => pure (axisBig d)) :=
  (readBytes_emits r 6).bind fun d _ ⟨hd, hes⟩ => .pure ⟨d, hd, by rw [hes, List.append_nil]⟩

/-- A scaled read that succeeds has made the one read of its raw triplet (R201). -/
theorem readGyroScaled_emits : Emits p (fun _ es => isSixRead p p.gyroOut es) readGyroScaled :=
  gyroFactor_emits.after fun _ => Emits.bind (Q := fun _ => isSixRead p p.gyroOut) (.parameters (rawTriplet_emits _))
    fun _ _ hes => .pure (by simpa using hes)

/-- A scaled read that succeeds has made the one read of its raw triplet (R203). -/
theorem readAccelScaled_emits : Emits p (fun _ es => isSixRead p p.accelOut es) readAccelScaled :=
  accelFactor_emits.after fun _ => .parameters <|
    Emits.bind (Q := fun _ => isSixRead p p.accelOut) (.parameters (rawTriplet_emits _))
      fun _ _ hes => .pure (by simpa using hes)

theorem snapshotMain_emits :
    Emits p (fun _ es => ∃ g a, g.length = 6 ∧ a.length = 6 ∧ es = snapshotMainEvents p g a) snapshotMain :=
  gyroFactor_emits.after fun _ => accelFactor_emits.after fun _ => readGyroScaled_emits.bind fun _ _ ⟨g, hg, hges⟩ =>
    readAccelScaled_emits.bind fun _ _ ⟨a, ha, haes⟩ => .pure ⟨g, a, hg, ha, by simp [hges, haes, snapshotMainEvents]⟩

end

/-- An error that is no failure of the magnetometer gate in a snapshot (R219). -/
def notSensorError (e : Error) : Prop := ∀ c, e ≠ .sensorError c

/-- Before its magnetometer read a snapshot raises no `SensorError` (R219). -/
theorem snapshotMain_framed : Framed anyResult notSensorError snapshotMain :=
  have hbus : notSensorError .busError := fun _ h => nomatch h
  have hunset (m : Modality) : notSensorError (.scaleFactorUnset m) := fun _ h => nomatch h
  (gyroFactor_framed (hunset _)).next fun _ => (accelFactor_framed (hunset _)).next fun _ =>
    (readGyroScaled_framed hbus (hunset _)).next fun _ => (readAccelScaled_framed hbus (hunset _)).next fun _ => .pure trivial

/-- How a snapshot may end with parameters `p` and the trace `tr` before it: with a payload or with a failure of the gate, the
reads of each made and no frame open, or with another error (R216, R219). -/
inductive SnapshotEnd (p : Params) (tr : List Event) : Except Error (List Byte) × State → Prop where
  | complete {g a m payload : List Byte} {s1 s2 : Byte} {t : State} (cs : t.cs = .high)
    (reads : t.tr = tr ++ (snapshotMainEvents p g a ++ magEvents p s1 m s2)) : SnapshotEnd p tr (.ok payload, t)
  | notReady {g a : List Byte} {s1 : Byte} {t : State} (cs : t.cs = .high)
    (reads : t.tr = tr ++ (snapshotMainEvents p g a ++ bridgeReadEvents p p.magAddr p.magSt1Reg [s1])) :
    SnapshotEnd p tr (.error (.sensorError .notReady), t)
  | overflow {g a m : List Byte} {s1 s2 : Byte} {t : State} (cs : t.cs = .high)
    (reads : t.tr = tr ++ (snapshotMainEvents p g a ++ magEvents p s1 m s2)) :
    SnapshotEnd p tr (.error (.sensorError .overflow), t)
  | failed {e : Error} {t : State} (other : notSensorError e) : SnapshotEnd p tr (.error e, t)

/-- All that `ReadSnapshot` can do, whatever the environment answers: how its main-device reads end, then how its magnetometer
read ends (R216, R219). -/
theorem readSnapshot_ends (s : State) : SnapshotEnd s.params s.tr (readSnapshot s) := by
  rw [readSnapshot_eq]
  rcases hmain : snapshotMain s with ⟨err | ⟨x, y⟩, u⟩
  · have hraised := snapshotMain_framed s
    rw [hmain] at hraised
    rw [Op.bind_error s hmain]
    cases hraised with
    | error other _ => exact .failed other
  obtain ⟨hp, _, ⟨g, a, -, -, rfl⟩, htr⟩ := snapshotMain_emits s _ _ rfl hmain
  have hend := readMagScaled_ends u
  rw [hp, htr] at hend
  rw [Op.bind_ok s hmain, Op.bind_apply, readMagInSnapshot_apply]
  generalize readMagScaled u = q at hend ⊢
  cases hend with
  | scaled _ _ _ cs reads => exact .complete cs (reads.trans (List.append_assoc ..))
  | notReady _ cs reads =>
    simp only [State.closeFrame_of_high cs]
    exact .notReady cs (reads.trans (List.append_assoc ..))
  | overflow _ _ _ cs reads =>
    simp only [State.closeFrame_of_high cs]
    exact .overflow cs (reads.trans (List.append_assoc ..))
  | failed => exact .failed fun _ h => nomatch h

/-- `READ_SNAPSHOT` ends as `ReadSnapshot` does and answers its payload or its error. -/
theorem exec_readSnapshot_ends {s t : State} (h : exec .readSnapshot s = .next t) :
    ∃ r u, SnapshotEnd s.params s.tr (r, u) ∧ t = respond (r, u) ∧ answeredWith s t (responsePacket r) := by
  obtain ⟨-, rfl⟩ := issue_next h
  refine ⟨_, _, readSnapshot_ends (s.setSeq .busy), rfl, ?_⟩
  rw [answeredWith, respond_responses, (readSnapshot_calm.contained (s.setSeq .busy)).responses]
  rfl

/-- Only `SensorError` is answered with its status byte (R97, R226). -/
theorem eq_sensorError_of_errorPacket {e : Error} {c : GateCause} (h : errorPacket e = errorPacket (.sensorError c)) :
    e = .sensorError c := by
  revert h
  cases c <;> fun_cases errorPacket e <;> decide

/-! ### What a snapshot costs -/

section
variable (p : Params) (g a m : List Byte) (s1 s2 : Byte) (es : List Event)

/-- The two main-device reads are two register accesses (R221). -/
theorem framesOf_snapshotMainEvents_length :
    (framesOf (snapshotMainEvents p g a ++ es)).length = (framesOf es).length + 4 := by
  simp [snapshotMainEvents]

theorem delaysOf_snapshotMainEvents : delaysOf (snapshotMainEvents p g a) = [] := by
  simp [snapshotMainEvents]

/-- Three relayed reads of four register accesses each (R221). -/
theorem framesOf_magEvents_length : (framesOf (magEvents p s1 m s2)).length = 24 := by
  rw [magEvents, List.append_assoc, framesOf_bridgeReadEvents_length, framesOf_bridgeReadEvents_length,
    ← List.append_nil (bridgeReadEvents ..), framesOf_bridgeReadEvents_length]
  rfl

theorem delaysOf_magEvents :
    delaysOf (magEvents p s1 m s2) = [p.tBr1, p.tBr2, p.tBr1, p.tBr2, p.tBr1, p.tBr2].filter (fun d => d ≠ 0) := by
  simp only [magEvents, delaysOf_append, delaysOf_bridgeReadEvents, ← List.filter_append]
  rfl

/-- The events of a snapshot whose three relayed reads were all made (R221). -/
theorem snapshot_cost :
    (framesOf (snapshotMainEvents p g a ++ magEvents p s1 m s2)).length = 28 ∧
    delaysOf (snapshotMainEvents p g a ++ magEvents p s1 m s2) =
      [p.tBr1, p.tBr2, p.tBr1, p.tBr2, p.tBr1, p.tBr2].filter (fun d => d ≠ 0) := by
  rw [framesOf_snapshotMainEvents_length, framesOf_magEvents_length, delaysOf_append, delaysOf_snapshotMainEvents,
    delaysOf_magEvents]
  exact ⟨rfl, rfl⟩

/-- The events of a snapshot that ended with its first relayed read (R221). -/
theorem snapshot_notReady_cost :
    (framesOf (snapshotMainEvents p g a ++ bridgeReadEvents p p.magAddr p.magSt1Reg [s1])).length = 12 ∧
    delaysOf (snapshotMainEvents p g a ++ bridgeReadEvents p p.magAddr p.magSt1Reg [s1]) =
      [p.tBr1, p.tBr2].filter (fun d => d ≠ 0) := by
  have hrelay := framesOf_bridgeReadEvents_length p p.magAddr p.magSt1Reg [s1] []
  rw [List.append_nil] at hrelay
  rw [framesOf_snapshotMainEvents_length, hrelay, delaysOf_append, delaysOf_snapshotMainEvents, delaysOf_bridgeReadEvents]
  exact ⟨rfl, rfl⟩

end

/-! ### The statements -/

/-- Settles O49: both factors set, the two reads and the relayed ones through the open gate, the lanes scaled. -/
theorem snapshotCompletes : Obligations.SnapshotCompletes :=
  fun s _ _ _ _ _ _ _ _ hr hsfg hsfa hg ha hm hready hover hrun =>
    issue_completes hr (readSnapshot_ok (s := s.setSeq .busy) hsfg hsfa hg ha (readMagInSnapshot_performs
      (readMagScaled_performs hm (decide_eq_true hready) (decide_eq_false (not_not.2 hover)))) hrun) hr.1

/-- Settles O50: either gate raises inside the snapshot's magnetometer read, which rewraps its error. -/
theorem snapshotGateFails : Obligations.SnapshotGateFails :=
  ⟨fun _ _ _ _ _ hr hsfg hsfa hg ha hready hrun => exec_readSnapshot_gate hr hsfg hsfa hg ha
      (readMagScaled_notReady (decide_eq_false (not_not.2 hready))) (fun _ => csAfter_bridgeReadEvents ..) hrun,
    fun _ _ _ _ _ _ _ hr hsfg hsfa hg ha hm hready hover hrun => exec_readSnapshot_gate hr hsfg hsfa hg ha
      (readMagScaled_overflow hm (decide_eq_true hready) (decide_eq_true hover)) (fun _ => csAfter_magEvents ..) hrun⟩

/-- Settles O51: the response tells which of its ways to end the snapshot has taken, and so which reads it has made. -/
theorem snapshotCost : Obligations.SnapshotCost := by
  intro s t h
  obtain ⟨r, u, hend, hrespond, hanswer⟩ := exec_readSnapshot_ends h
  have hpacket {x : List Byte} (hx : answeredWith s t x) : x = responsePacket r := answeredWith_unique hx hanswer
  have htr (hcs : u.cs = .high) : t.tr = u.tr := (congrArg State.tr hrespond).trans (respond_tr_of_high _ hcs)
  cases hend with
  | complete cs reads =>
    exact ⟨fun _ => ⟨_, (htr cs).trans reads, snapshot_cost ..⟩,
      fun hx => absurd (hpacket hx) (by simp [responsePacket, okStatus])⟩
  | notReady cs reads =>
    refine ⟨?_, fun _ => ⟨_, (htr cs).trans reads, snapshot_notReady_cost ..⟩⟩
    rintro (⟨payload, hok⟩ | hx)
    · exact absurd (hpacket hok).symm (errorPacket_ne_ok (.sensorError .notReady) payload)
    · exact absurd (hpacket hx) (by decide)
  | overflow cs reads =>
    exact ⟨fun _ => ⟨_, (htr cs).trans reads, snapshot_cost ..⟩, fun hx => absurd (hpacket hx) (by decide)⟩
  | failed other =>
    have hne {c : GateCause} (hx : answeredWith s t (errorPacket (.sensorError c))) : False :=
      other c (eq_sensorError_of_errorPacket (hpacket hx).symm)
    refine ⟨?_, fun hx => (hne (c := .notReady) hx).elim⟩
    rintro (⟨payload, hok⟩ | hx)
    · exact absurd (hpacket hok).symm (errorPacket_ne_ok _ payload)
    · exact (hne (c := .overflow) hx).elim

end Sys2Proof.Machine
end

section
/-! Proofs of `Obligations.ResetValues` and `ResetMeetsInvariant` (10_state.md R25, R28, R36, 70_reset_and_hazards.md R260). -/

namespace Sys2Proof.Machine

/-! ### The state after reset -/

/-- Nothing is pending at reset, so the framer waits for a command (R36, R260). -/
theorem step_resetWith (p : Params) : step (State.resetWith p) = .next (State.resetWith p) :=
  stepWaitsForAWholePacket (State.resetWith p) rfl rfl

/-- A factor that is `UNSET` is from any table (R22). -/
theorem fromTable_unset (table : Four Ratio) : fromTable none table := fun _ h => nomatch h

/-- Reset meets the invariant: idle, no frame open, an empty trace, both factors `UNSET` (R36, R260). -/
theorem State.resetWith_inv (p : Params) : (State.resetWith p).Inv where
  seq := rfl
  cs := rfl
  trace := rfl
  sfGyro := fromTable_unset p.gyroSf
  sfAccel := fromTable_unset p.accelSf
  env := Env.reset_wf

/-! ### The parameters are constant -/

theorem SameButPorts.params {s t : State} (h : SameButPorts s t) : t.params = s.params := by
  obtain ⟨q, bytes, rfl⟩ := h
  rfl

/-- No step changes the parameters (R28). -/
theorem step_params {s t : State} (h : step s = .next t) : t.params = s.params := by
  rcases step_cases h with rfl | ⟨s', _, _, hports, hran⟩
  · rfl
  · exact hran.params.trans hports.params

/-! ### The statements -/

/-- Settles O12: the reset values are those of the record, the framer finds nothing to run, and what a step can do leaves the
parameters alone. -/
theorem resetValues : Obligations.ResetValues :=
  ⟨fun p => ⟨rfl, rfl, rfl, rfl, rfl, rfl, rfl, rfl, step_resetWith p⟩, fun _ _ => step_params⟩

/-- Settles O13: the example parameters are one record among all. -/
theorem resetMeetsInvariant : Obligations.ResetMeetsInvariant :=
  ⟨State.resetWith_inv Params.vectorsEX, State.resetWith_inv⟩

end Sys2Proof.Machine
end
